-- ==== Sys2Proof/Word.lean ====
section
/-! DEFINITION. The words of the block: bytes, 16-bit codes, and byte strings of a fixed length (R10, R11). -/

namespace Sys2Proof

/-- A byte (R10). -/
abbrev Byte := BitVec 8

/-- A 16-bit service code (R9 SVC_WIDTH, R50). -/
abbrev Svc := BitVec 16

/-- A byte string of exactly `n` bytes, in offset order (R11): IDm and PMm have 8 (R9), a system code 2,
a block 16. The length travels with the data. -/
abbrev Bytes (n : Nat) := { l : List Byte // l.length = n }

/-- One block of a tag: 16 bytes (R9 BLOCK_SIZE). -/
abbrev Block := Bytes 16

/-- A byte list as a byte string of `n` bytes, when it has that length. -/
def Bytes.ofList? (n : Nat) (l : List Byte) : Option (Bytes n) :=
  if h : l.length = n then some ⟨l, h⟩ else none

/-- `zeros(k)` of R11. -/
def zeros (k : Nat) : List Byte := List.replicate k 0

end Sys2Proof
end

