-- ==== Sys2Proof/Syntax.lean ====
section
/-! DEFINITION. The instructions: one constructor per row of spec/opcode_table.json. The 15 host operations
(R80), the 5 host sequences (R98) and the 10 frame kinds (R93). -/

namespace Sys2Proof

/-- The attribute block record (R32). The checksum is no field of it. -/
structure AttributeBlock where
  /-- major version -/
  verMajor : BitVec 4
  /-- minor version -/
  verMinor : BitVec 4
  /-- most blocks readable per transaction -/
  nbr : Byte
  /-- most blocks writeable per transaction -/
  nbw : Byte
  /-- capacity as a block count -/
  nmaxb : BitVec 16
  /-- bytes 5 to 8, carried verbatim -/
  rsv : Bytes 4
  /-- write in progress -/
  wip : Bool
  /-- the tag may be written -/
  writeable : Bool
  /-- byte count of the current NDEF message -/
  ln : BitVec 24
deriving DecidableEq, Repr

/-- A read callback (R26: `rd(block_number, begin, end)` returns 16 bytes or `none`), as plain data: a handle to
an application function whose answers are draws (I5), or a function of the application's block store that answers
`none` from block `size` on (95_test_vectors.md bench E1). Which of the two is a DESIGN CHOICE: log 8. -/
inductive ReadCb where
  | drawn (handle : Nat)
  | store (bank : BitVec 16) (size : Nat)
deriving DecidableEq, Repr

/-- A write callback (R26: `wr(block_number, data[16], begin, end)` returns a Boolean), as plain data: as `ReadCb`,
or the callback of a read-only service, which always returns false (R192, D27). DESIGN CHOICE: log 8. -/
inductive WriteCb where
  | drawn (handle : Nat)
  | store (bank : BitVec 16) (size : Nat)
  | readOnly
deriving DecidableEq, Repr

/-- The instructions. A frame kind carries the frame's bytes but for its code byte, which is the constructor's:
`len` is byte 0 of the frame and `rest` the bytes from offset 2 on, so that a frame is `len :: code :: rest`
(R81) and every byte list of two bytes or more with that code byte is one. -/
inductive Instr where
  /-- LOAD_TAG (0x10), R140 -/
  | loadTag (idm pmm : Bytes 8)
  /-- TIMEOUT_RD (0x11), R131 -/
  | timeoutRd (n : Nat)
  /-- TIMEOUT_WR (0x12), R132 -/
  | timeoutWr (n : Nat)
  /-- SER_READ (0x20), R143 -/
  | serRead (svc : Svc) (blocks : List Nat)
  /-- SER_WRITE (0x21), R144 -/
  | serWrite (svc : Svc) (blocks : List Nat) (data : List Byte)
  /-- PARSE_READ_RSP (0x22), R147 -/
  | parseReadRsp (frame : List Byte) (n : Nat)
  /-- PARSE_WRITE_RSP (0x23), R148 -/
  | parseWriteRsp (frame : List Byte)
  /-- READ_BLOCKS (0x24), R150 -/
  | readBlocks (svc : Svc) (blocks : List Nat)
  /-- WRITE_BLOCKS (0x25), R151 -/
  | writeBlocks (svc : Svc) (blocks : List Nat) (data : List Byte)
  /-- ATTR_PARSE (0x30), R112; `b` is 16 bytes (`Instr.wf`) -/
  | attrParse (b : List Byte)
  /-- ATTR_SERIALIZE (0x31), R111 -/
  | attrSerialize (ab : AttributeBlock)
  /-- ATTR_CHECK (0x32), R113; `b` is 16 bytes (`Instr.wf`) -/
  | attrCheck (b : List Byte)
  /-- LOAD_IDENTITY (0x40), R191 -/
  | loadIdentity (idm pmm : Bytes 8) (sys : Bytes 2)
  /-- REGISTER_SERVICE (0x41), R192 -/
  | registerService (code : Svc) (rd : ReadCb) (wr : WriteCb)
  /-- DISPATCH (0x42), R193 -/
  | dispatch (frame : List Byte)
  /-- GET_ATTR, R171 -/
  | getAttr
  /-- READ_CHUNKED, R174 -/
  | readChunked (blocks : List Nat) (limit : Nat)
  /-- WRITE_CHUNKED, R175 -/
  | writeChunked (blocks : List Nat) (data : List Byte) (limit : Nat)
  /-- NDEF_GET, R177 -/
  | ndefGet
  /-- NDEF_SET, R179 -/
  | ndefSet (data : List Byte)
  /-- Polling command frame (0x00), R82, R196 -/
  | pollingCmd (len : Byte) (rest : List Byte)
  /-- Polling response frame (0x01), R83 -/
  | pollingRsp (len : Byte) (rest : List Byte)
  /-- Request Response command frame (0x04), R84, R197 -/
  | requestResponseCmd (len : Byte) (rest : List Byte)
  /-- Request Response response frame (0x05), R84 -/
  | requestResponseRsp (len : Byte) (rest : List Byte)
  /-- Read Without Encryption command frame (0x06), R85, R217 -/
  | readWoEncCmd (len : Byte) (rest : List Byte)
  /-- Read Without Encryption response frame (0x07), R87 -/
  | readWoEncRsp (len : Byte) (rest : List Byte)
  /-- Write Without Encryption command frame (0x08), R88, R219 -/
  | writeWoEncCmd (len : Byte) (rest : List Byte)
  /-- Write Without Encryption response frame (0x09), R89 -/
  | writeWoEncRsp (len : Byte) (rest : List Byte)
  /-- Request System Code command frame (0x0C), R90, R198 -/
  | requestSystemCodeCmd (len : Byte) (rest : List Byte)
  /-- Request System Code response frame (0x0D), R90 -/
  | requestSystemCodeRsp (len : Byte) (rest : List Byte)
deriving DecidableEq, Repr

end Sys2Proof
end

