-- ==== Sys2Proof/Machine/Operands.lean ====
section
/-! DEFINITION. Operand forms: byte slices, byte orders, and the assembly of each field from frame bytes
(R11, R55, R86, R92). -/

namespace Sys2Proof.Machine

/-- `F[k]` (R11). Every rule reads a byte only after it has checked the length. -/
def byteAt (F : List Byte) (k : Nat) : Byte := F.getD k 0

/-- `F[a ..< b]` (R11). -/
def slice (F : List Byte) (a b : Nat) : List Byte := (F.drop a).take (b - a)

/-- `le16(v)` (R11): the low byte first. -/
def le16 (v : BitVec 16) : List Byte := [v.extractLsb' 0 8, v.extractLsb' 8 8]

/-- `be16(v)` (R11): the high byte first. -/
def be16 (v : BitVec 16) : List Byte := [v.extractLsb' 8 8, v.extractLsb' 0 8]

/-- `be24(v)` (R11): the high byte first. -/
def be24 (v : BitVec 24) : List Byte := [v.extractLsb' 16 8, v.extractLsb' 8 8, v.extractLsb' 0 8]

/-- A 16-bit value from its high and its low byte. -/
def pair16 (hi lo : Byte) : BitVec 16 := hi ++ lo

/-- A 24-bit value from its three bytes, high byte first. -/
def triple24 (hi mid lo : Byte) : BitVec 24 := hi ++ (mid ++ lo)

/-- A little-endian 16-bit field at offset `c`: `F[c] | (F[c+1] << 8)` (R92). -/
def le16At (F : List Byte) (c : Nat) : BitVec 16 := pair16 (byteAt F (c + 1)) (byteAt F c)

/-- A byte for a count or a length that the rules keep below 256. -/
def byteOf (n : Nat) : Byte := BitVec.ofNat 8 n

/-- Bit 7 of an entry header: the 2-byte form (R86, R92). -/
def entryShort (h : Byte) : Bool := h.getLsbD 7

/-- Bits 3:0 of an entry header: the service index (R86, R92). -/
def entryIndex (h : Byte) : Nat := (h &&& 0x0F).toNat

/-- The entry encoder (R141): service index 0, access mode 000, the short form exactly below 256. -/
def encEntry (b : Nat) : List Byte :=
  if b < 256 then [0x80, byteOf b] else 0x00 :: le16 (BitVec.ofNat 16 b)

/-- `1 << (I mod 8)`, the error position of a status (R216). -/
def positionBit (i : Nat) : Byte := byteOf (1 <<< (i % 8))

/-- A frame from its bytes after the length byte: byte 0 is the total length (R52, R200). -/
def framed (body : List Byte) : List Byte := byteOf (body.length + 1) :: body

/-- Block `i` of a data buffer: bytes `16*i ..< 16*i + 16` (R56). -/
def blockSlice (data : List Byte) (i : Nat) : List Byte := slice data (16 * i) (16 * i + 16)

end Sys2Proof.Machine
end

