-- ==== Sys2Proof/WellFormed.lean ====
section
/-! DEFINITION. Which instructions are well formed: the conditions on operands that their types do not carry. -/

namespace Sys2Proof

/-- A well-formed instruction. The operand of ATTR_PARSE and of ATTR_CHECK is 16 bytes: "A list of any other length is
not a well-formed operand, and the decoder refuses it" (R112; R80 and R113 give ATTR_CHECK the same operand). Everything
else the spec asks of an operand is either in its type (the other fixed lengths, the widths of codes and of attribute
fields) or a check of the operation itself, with its own error record (R230). -/
def Instr.wf : Instr → Bool
  | .loadTag _ _ => true
  | .timeoutRd _ => true
  | .timeoutWr _ => true
  | .serRead _ _ => true
  | .serWrite _ _ _ => true
  | .parseReadRsp _ _ => true
  | .parseWriteRsp _ => true
  | .readBlocks _ _ => true
  | .writeBlocks _ _ _ => true
  | .attrParse b => decide (b.length = 16)
  | .attrSerialize _ => true
  | .attrCheck b => decide (b.length = 16)
  | .loadIdentity _ _ _ => true
  | .registerService _ _ _ => true
  | .dispatch _ => true
  | .getAttr => true
  | .readChunked _ _ => true
  | .writeChunked _ _ _ => true
  | .ndefGet => true
  | .ndefSet _ => true
  | .pollingCmd _ _ => true
  | .pollingRsp _ _ => true
  | .requestResponseCmd _ _ => true
  | .requestResponseRsp _ _ => true
  | .readWoEncCmd _ _ => true
  | .readWoEncRsp _ _ => true
  | .writeWoEncCmd _ _ => true
  | .writeWoEncRsp _ _ => true
  | .requestSystemCodeCmd _ _ => true
  | .requestSystemCodeRsp _ _ => true

end Sys2Proof
end

