-- ==== Sys2Proof/Decode.lean ====
section
/-! DEFINITION. The decoder and the encoder of a program item.

An item's first byte is its selector: the operation number of a host operation (R80), the code byte of a frame kind
(R81, R93), or, for the sequences of R98, which have no number, 0x80 to 0x84 (DESIGN CHOICE: log 4). The spec gives
the typed operands of an operation and no layout for them; theirs is the model's (DESIGN CHOICE: log 3): byte strings
of a fixed length as they stand, 16-bit codes low byte first, a natural in base 128 with bit 7 set on every byte but
the last, a list as its length and its elements. The 16 bytes of ATTR_PARSE and of ATTR_CHECK are all the bytes after
the selector. A frame item is the selector, the frame's length byte, and the bytes from offset 2 on as a byte list. An
item ends with its last operand. -/

namespace Sys2Proof

open Machine

/-- Why bytes decode to no instruction. -/
inductive DecodeError where
  /-- the selector names no operation, frame kind or sequence (R80) -/
  | noSuchOperation (selector : Byte)
  /-- an operand runs past the end of the item -/
  | truncated
  /-- an operand is not well formed (R112 "the decoder refuses it"; `Instr.wf`) -/
  | illFormed
  /-- bytes follow the last operand -/
  | trailing
deriving DecidableEq, Repr

/-! ## Operand decoders -/

/-- A decoder of one operand: what it reads and the bytes that are left, or why it cannot. -/
abbrev Dec (α : Type) := List Byte → Except DecodeError (α × List Byte)

/-- Reads one operand, then the next from the bytes that are left. -/
def Dec.next {α β : Type} (p : Dec α) (k : α → Dec β) : Dec β := fun bs =>
  match p bs with
  | .ok (a, rest) => k a rest
  | .error e => .error e

/-- Reads nothing. -/
def Dec.done {α : Type} (a : α) : Dec α := fun bs => .ok (a, bs)

/-- Refuses. -/
def Dec.fail {α : Type} (e : DecodeError) : Dec α := fun _ => .error e

def decByte : Dec Byte
  | [] => .error .truncated
  | b :: rest => .ok (b, rest)

/-- A byte string of `n` bytes. -/
def decBytes (n : Nat) : Dec (Bytes n) := fun bs =>
  match Bytes.ofList? n (bs.take n) with
  | some v => .ok (v, bs.drop n)
  | none => .error .truncated

/-- A natural: base 128, low digit first, bit 7 set on every byte but the last. -/
def decNat : Dec Nat
  | [] => .error .truncated
  | b :: rest =>
    if b.toNat < 128 then .ok (b.toNat, rest)
    else match decNat rest with
      | .ok (n, rest') => .ok (b.toNat - 128 + 128 * n, rest')
      | .error e => .error e

/-- `k` naturals. -/
def decNats : Nat → Dec (List Nat)
  | 0 => Dec.done []
  | k + 1 => Dec.next decNat fun n => Dec.next (decNats k) fun ns => Dec.done (n :: ns)

/-- A list of naturals: its length, then its elements. -/
def decNatList : Dec (List Nat) := Dec.next decNat decNats

/-- A byte list: its length, then its bytes. -/
def decByteList : Dec (List Byte) :=
  Dec.next decNat fun n => Dec.next (decBytes n) fun v => Dec.done v.val

/-- All the bytes that are left. -/
def decRest : Dec (List Byte) := fun bs => .ok (bs, [])

/-- A 16-bit code, low byte first. -/
def decSvc : Dec Svc := Dec.next decByte fun lo => Dec.next decByte fun hi => Dec.done (pair16 hi lo)

/-- A Boolean: 0 or 1; no other byte is one. -/
def decBool : Dec Bool :=
  Dec.next decByte fun b =>
    if b = 0 then Dec.done false else if b = 1 then Dec.done true else Dec.fail .illFormed

def decReadCb : Dec ReadCb :=
  Dec.next decByte fun b =>
    if b = 0 then Dec.next decNat fun h => Dec.done (.drawn h)
    else if b = 1 then
      Dec.next decSvc fun bank => Dec.next decNat fun size => Dec.done (.store bank size)
    else Dec.fail .illFormed

def decWriteCb : Dec WriteCb :=
  Dec.next decByte fun b =>
    if b = 0 then Dec.next decNat fun h => Dec.done (.drawn h)
    else if b = 1 then
      Dec.next decSvc fun bank => Dec.next decNat fun size => Dec.done (.store bank size)
    else if b = 2 then Dec.done .readOnly
    else Dec.fail .illFormed

/-- An attribute block record, field by field in the order of R32; ln low byte first. -/
def decAttr : Dec AttributeBlock :=
  Dec.next decByte fun ver => Dec.next decByte fun nbr => Dec.next decByte fun nbw =>
  Dec.next decSvc fun nmaxb => Dec.next (decBytes 4) fun rsv =>
  Dec.next decBool fun wip => Dec.next decBool fun writeable =>
  Dec.next decByte fun l0 => Dec.next decByte fun l1 => Dec.next decByte fun l2 =>
  Dec.done { verMajor := ver.extractLsb' 4 4, verMinor := ver.extractLsb' 0 4, nbr, nbw, nmaxb, rsv, wip,
             writeable, ln := triple24 l2 l1 l0 }

/-- A frame item: the frame's length byte, then the bytes from offset 2 on. -/
def decFrame (mk : Byte → List Byte → Instr) : Dec Instr :=
  Dec.next decByte fun len => Dec.next decByteList fun rest => Dec.done (mk len rest)

/-! ## The decoder -/

/-- The operands of the item that a selector names (R80, R93, R98). -/
def decOperands (selector : Byte) : Dec Instr :=
  match selector.toNat with
  | 0x00 => decFrame .pollingCmd
  | 0x01 => decFrame .pollingRsp
  | 0x04 => decFrame .requestResponseCmd
  | 0x05 => decFrame .requestResponseRsp
  | 0x06 => decFrame .readWoEncCmd
  | 0x07 => decFrame .readWoEncRsp
  | 0x08 => decFrame .writeWoEncCmd
  | 0x09 => decFrame .writeWoEncRsp
  | 0x0C => decFrame .requestSystemCodeCmd
  | 0x0D => decFrame .requestSystemCodeRsp
  | 0x10 => Dec.next (decBytes 8) fun idm => Dec.next (decBytes 8) fun pmm => Dec.done (.loadTag idm pmm)
  | 0x11 => Dec.next decNat fun n => Dec.done (.timeoutRd n)
  | 0x12 => Dec.next decNat fun n => Dec.done (.timeoutWr n)
  | 0x20 => Dec.next decSvc fun svc => Dec.next decNatList fun blocks => Dec.done (.serRead svc blocks)
  | 0x21 => Dec.next decSvc fun svc => Dec.next decNatList fun blocks => Dec.next decByteList fun data =>
      Dec.done (.serWrite svc blocks data)
  | 0x22 => Dec.next decByteList fun frame => Dec.next decNat fun n => Dec.done (.parseReadRsp frame n)
  | 0x23 => Dec.next decByteList fun frame => Dec.done (.parseWriteRsp frame)
  | 0x24 => Dec.next decSvc fun svc => Dec.next decNatList fun blocks => Dec.done (.readBlocks svc blocks)
  | 0x25 => Dec.next decSvc fun svc => Dec.next decNatList fun blocks => Dec.next decByteList fun data =>
      Dec.done (.writeBlocks svc blocks data)
  | 0x30 => Dec.next decRest fun b => Dec.done (.attrParse b)
  | 0x31 => Dec.next decAttr fun ab => Dec.done (.attrSerialize ab)
  | 0x32 => Dec.next decRest fun b => Dec.done (.attrCheck b)
  | 0x40 => Dec.next (decBytes 8) fun idm => Dec.next (decBytes 8) fun pmm => Dec.next (decBytes 2) fun sys =>
      Dec.done (.loadIdentity idm pmm sys)
  | 0x41 => Dec.next decSvc fun code => Dec.next decReadCb fun rd => Dec.next decWriteCb fun wr =>
      Dec.done (.registerService code rd wr)
  | 0x42 => Dec.next decByteList fun frame => Dec.done (.dispatch frame)
  | 0x80 => Dec.done .getAttr
  | 0x81 => Dec.next decNatList fun blocks => Dec.next decNat fun limit => Dec.done (.readChunked blocks limit)
  | 0x82 => Dec.next decNatList fun blocks => Dec.next decByteList fun data => Dec.next decNat fun limit =>
      Dec.done (.writeChunked blocks data limit)
  | 0x83 => Dec.done .ndefGet
  | 0x84 => Dec.next decByteList fun data => Dec.done (.ndefSet data)
  | _ => Dec.fail (.noSuchOperation selector)

/-- Refuses an instruction that is not well formed (R112). -/
def checkWf (i : Instr) : Dec Instr := if i.wf then Dec.done i else Dec.fail .illFormed

/-- An item's instruction, and the bytes after its last operand. -/
def decItem : Dec Instr := Dec.next decByte fun selector => Dec.next (decOperands selector) checkWf

/-- The instruction a program item stands for: nothing follows its last operand. -/
def decode (item : List Byte) : Except DecodeError Instr :=
  match decItem item with
  | .ok (i, []) => .ok i
  | .ok (_, _ :: _) => .error .trailing
  | .error e => .error e

/-! ## The encoder -/

/-- The digits of a natural in base 128, low digit first, with `fuel` digits or fewer before the last. -/
def encNatDigits : Nat → Nat → List Byte
  | 0, n => [byteOf n]
  | fuel + 1, n => if n < 128 then [byteOf n] else byteOf (128 + n % 128) :: encNatDigits fuel (n / 128)

def encNat (n : Nat) : List Byte := encNatDigits n n

def encNatList (ns : List Nat) : List Byte := encNat ns.length ++ ns.flatMap encNat

def encByteList (l : List Byte) : List Byte := encNat l.length ++ l

def encBool (b : Bool) : List Byte := [if b then 1 else 0]

def encReadCb : ReadCb → List Byte
  | .drawn h => 0 :: encNat h
  | .store bank size => 1 :: (le16 bank ++ encNat size)

def encWriteCb : WriteCb → List Byte
  | .drawn h => 0 :: encNat h
  | .store bank size => 1 :: (le16 bank ++ encNat size)
  | .readOnly => [2]

def encAttr (ab : AttributeBlock) : List Byte :=
  (ab.verMajor ++ ab.verMinor) :: ab.nbr :: ab.nbw :: (le16 ab.nmaxb ++ (ab.rsv.val ++
    (encBool ab.wip ++ (encBool ab.writeable ++ (be24 ab.ln).reverse))))

def encFrame (len : Byte) (rest : List Byte) : List Byte := len :: encByteList rest

/-- The selector of an instruction (R80, R93; 0x80 to 0x84: log 4). -/
def Instr.selector : Instr → Byte
  | .loadTag _ _ => 0x10
  | .timeoutRd _ => 0x11
  | .timeoutWr _ => 0x12
  | .serRead _ _ => 0x20
  | .serWrite _ _ _ => 0x21
  | .parseReadRsp _ _ => 0x22
  | .parseWriteRsp _ => 0x23
  | .readBlocks _ _ => 0x24
  | .writeBlocks _ _ _ => 0x25
  | .attrParse _ => 0x30
  | .attrSerialize _ => 0x31
  | .attrCheck _ => 0x32
  | .loadIdentity _ _ _ => 0x40
  | .registerService _ _ _ => 0x41
  | .dispatch _ => 0x42
  | .getAttr => 0x80
  | .readChunked _ _ => 0x81
  | .writeChunked _ _ _ => 0x82
  | .ndefGet => 0x83
  | .ndefSet _ => 0x84
  | .pollingCmd _ _ => 0x00
  | .pollingRsp _ _ => 0x01
  | .requestResponseCmd _ _ => 0x04
  | .requestResponseRsp _ _ => 0x05
  | .readWoEncCmd _ _ => 0x06
  | .readWoEncRsp _ _ => 0x07
  | .writeWoEncCmd _ _ => 0x08
  | .writeWoEncRsp _ _ => 0x09
  | .requestSystemCodeCmd _ _ => 0x0C
  | .requestSystemCodeRsp _ _ => 0x0D

/-- The operand bytes of an instruction. -/
def encOperands : Instr → List Byte
  | .loadTag idm pmm => idm.val ++ pmm.val
  | .timeoutRd n => encNat n
  | .timeoutWr n => encNat n
  | .serRead svc blocks => le16 svc ++ encNatList blocks
  | .serWrite svc blocks data => le16 svc ++ (encNatList blocks ++ encByteList data)
  | .parseReadRsp frame n => encByteList frame ++ encNat n
  | .parseWriteRsp frame => encByteList frame
  | .readBlocks svc blocks => le16 svc ++ encNatList blocks
  | .writeBlocks svc blocks data => le16 svc ++ (encNatList blocks ++ encByteList data)
  | .attrParse b => b
  | .attrSerialize ab => encAttr ab
  | .attrCheck b => b
  | .loadIdentity idm pmm sys => idm.val ++ (pmm.val ++ sys.val)
  | .registerService code rd wr => le16 code ++ (encReadCb rd ++ encWriteCb wr)
  | .dispatch frame => encByteList frame
  | .getAttr => []
  | .readChunked blocks limit => encNatList blocks ++ encNat limit
  | .writeChunked blocks data limit => encNatList blocks ++ (encByteList data ++ encNat limit)
  | .ndefGet => []
  | .ndefSet data => encByteList data
  | .pollingCmd len rest => encFrame len rest
  | .pollingRsp len rest => encFrame len rest
  | .requestResponseCmd len rest => encFrame len rest
  | .requestResponseRsp len rest => encFrame len rest
  | .readWoEncCmd len rest => encFrame len rest
  | .readWoEncRsp len rest => encFrame len rest
  | .writeWoEncCmd len rest => encFrame len rest
  | .writeWoEncRsp len rest => encFrame len rest
  | .requestSystemCodeCmd len rest => encFrame len rest
  | .requestSystemCodeRsp len rest => encFrame len rest

/-- The bytes of a program item that stands for an instruction. -/
def encode (i : Instr) : List Byte := i.selector :: encOperands i

/-! ## Words of spec/opcode_table.json -/

/-- The low `k` bytes of `w`, the lowest first. -/
def lowBytes : Nat → Nat → List Byte
  | 0, _ => []
  | k + 1, w => byteOf (w % 256) :: lowBytes k (w / 256)

/-- The shortest item that `item` and up to `fuel` zero bytes after it make. -/
def zeroExtend : Nat → List Byte → List Byte
  | 0, item => item
  | fuel + 1, item =>
    match decode item with
    | .ok _ => item
    | .error _ => zeroExtend fuel (item ++ [0])

/-- The item of an instruction whose bits are `w` in `nbits` bits (bit 0 the least of the first byte), with zeros above
them up to its end: an item whose operand bytes are all zeros has at most 19 bytes, LOAD_IDENTITY's. -/
def wordItem (nbits w : Nat) : List Byte := zeroExtend 19 (lowBytes ((nbits + 7) / 8) w)

/-- The instruction the decoder reads from `w` (`wordItem`), or none where it refuses. -/
def decodeTableWord (nbits w : Nat) : Option Instr :=
  match decode (wordItem nbits w) with
  | .ok i => some i
  | .error _ => none

end Sys2Proof
end

