-- ==== Sys2Proof/Config.lean ====
section
/-! DEFINITION. What an implementation fixes (the parameters of R9) and the free values (constants with no body). -/

namespace Sys2Proof

/-- PMM_RD_OFF, the offset of the read timing byte in PMm (R9, R23, D11; log 17). -/
def Config.pmmRdOff : Nat := 5

/-- PMM_WR_OFF, the offset of the write timing byte in PMm (R9, R23, D11; log 17). -/
def Config.pmmWrOff : Nat := 6

/-- T_UNIT_NUM (R9, R130; log 17). -/
def Config.tUnitNum : Nat := 302

/-- T_UNIT_DEN (R9, R130; log 17). -/
def Config.tUnitDen : Nat := 1000

/-- T_MARGIN, in milliseconds (R9, R130; log 17). -/
def Config.tMargin : Nat := 5

/-- RD_MAX_BLOCKS (R9, R143). -/
def Config.rdMaxBlocks : Nat := 15

/-- MAX_FRAME (R9, R52). -/
def Config.maxFrame : Nat := 255

/-- SVC_RD_DEFAULT (R9, R170). -/
def Config.svcRdDefault : Svc := 0x000B

/-- SVC_WR_DEFAULT (R9, R170). -/
def Config.svcWrDefault : Svc := 0x0009

/-- What an application's read callback does when ED calls it: the data it returns (R26: 16 bytes or `none`), and
how many host operations it tries to issue to ED before it returns (R27, R244). -/
structure ReadReply where
  data : Option Block
  attempts : Nat
deriving DecidableEq, Repr, Inhabited

/-- What an application's write callback does when ED calls it (R26: a Boolean), and how many host operations it
tries to issue to ED before it returns (R27, R244). -/
structure WriteReply where
  ok : Bool
  attempts : Nat
deriving DecidableEq, Repr, Inhabited

/-- FREE VALUE: whether the `k`-th unscripted Send succeeds (I4 "any value"; log 6). -/
opaque Config.freeSend : Nat → Bool

/-- FREE VALUE: what the `k`-th unscripted Receive returns (I3 "any value"; R61, R137; log 6). -/
opaque Config.freeReceive : Nat → Option (List Byte)

/-- FREE VALUE: t_wait of the emulation host's `k`-th wait_command, "the host's own choice" (R203; log 5). -/
opaque Config.freeWait : Nat → Nat

/-- FREE VALUE: what `P[a ..< b]` yields where it runs past the end of `P` (R11 gives such a slice no value; R175; log
24). -/
opaque Config.freeSlice : List Byte → Nat → Nat → List Byte

/-- FREE VALUE: what the `k`-th unscripted read callback does (I5 "any value"; log 9). -/
opaque Config.freeRead : Nat → ReadReply

/-- FREE VALUE: what the `k`-th unscripted write callback does (I5 "any value"; log 9). -/
opaque Config.freeWrite : Nat → WriteReply

end Sys2Proof
end

