-- ==== Sys2Proof/Machine/State.lean ====
section
/-! DEFINITION. The state of T3CF and of the agents around it (R4, R20), as plain data, and its value after reset. -/

namespace Sys2Proof.Machine

/-! ## Results, errors and statuses (60_exceptions.md) -/

/-- Sub-codes of TransportError (R230, R232). -/
inductive TransportSub where
  | sendFail | noResponse
deriving DecidableEq, Repr

/-- Sub-codes of FramingError (R230, R233). -/
inductive FramingSub where
  | lenByte | short | code | idm | count | payloadLen
deriving DecidableEq, Repr

/-- Sub-codes of PolicyError (R230, R237). -/
inductive PolicySub where
  | notWriteable | capacity
deriving DecidableEq, Repr

/-- Sub-codes of ArgumentError (R230, R238). -/
inductive ArgumentSub where
  | dataLen | nblkRange | blockRange | frameLen | chunkZero
deriving DecidableEq, Repr

/-- Sub-codes of Unconfigured (R230, R231). -/
inductive UnconfiguredSub where
  | reTag | edIdentity
deriving DecidableEq, Repr

/-- The recorded information of an error: a number, or identifier bytes (R230, R233). -/
inductive Info where
  | num (n : Nat)
  | bytes (l : List Byte)
deriving DecidableEq, Repr

/-- `Err(class, sub, info)`, one constructor per class of R230. -/
inductive Err where
  | transport (sub : TransportSub)
  | framing (sub : FramingSub) (info : Info)
  | command (sf1 sf2 : Byte)
  | checksum (stored computed : Nat)
  | policy (sub : PolicySub) (info : Nat)
  | argument (sub : ArgumentSub) (info : Nat)
  | unconfigured (sub : UnconfiguredSub)
  | refused
deriving DecidableEq, Repr

/-- The reasons of a dropped frame (R239). -/
inductive DropReason where
  | tooShort | lengthMismatch | unknownCode | idMismatch | scMismatch | truncated
deriving DecidableEq, Repr

/-- The value of an `Ok` result (R80, column "result"). -/
inductive Value where
  /-- `Ok()` -/
  | unit
  /-- `Ok(t ms)` -/
  | ms (t : Nat)
  /-- `Ok(frame)`, `Ok(payload)`, `Ok(16 bytes)` -/
  | bytes (l : List Byte)
  /-- `Ok(ab, valid, nonstd)` of ATTR_PARSE -/
  | parsed (ab : AttributeBlock) (valid nonstd : Bool)
  /-- `Ok(valid)` of ATTR_CHECK -/
  | valid (b : Bool)
  /-- `Ok(ab)` of GET_ATTR -/
  | record (ab : AttributeBlock)
deriving DecidableEq, Repr

/-- One callback call of a DISPATCH, as it reports it (R37): the service, the callback, its operands, its answer,
and what each operation got that the callback tried to issue to ED meanwhile (`none`: accepted; R244). -/
inductive CallbackCall where
  | read (svc : Svc) (cb : ReadCb) (blk : BitVec 16) (first last : Bool) (answer : Option Block)
      (reentries : List (Option Err))
  | write (svc : Svc) (cb : WriteCb) (blk : BitVec 16) (data : List Byte) (first last : Bool) (answer : Bool)
      (reentries : List (Option Err))
deriving DecidableEq, Repr

/-- The result record of one host operation (R37). -/
inductive HostResult where
  | ok (v : Value)
  | err (e : Err)
  | respond (frame : List Byte) (calls : List CallbackCall)
  | drop (reason : DropReason) (calls : List CallbackCall)
deriving DecidableEq, Repr

/-! ## The reader engine (R22 to R24) -/

/-- RE.PHASE (R24). -/
inductive RePhase where
  | idle | await
deriving DecidableEq, Repr

/-- RE.PEND, the exchange in flight: expected response code, block count, timeout (R24). -/
structure Pending where
  code : Byte
  n : Byte
  t : BitVec 16
deriving DecidableEq, Repr

/-- The registers of RE. `none` is UNLOADED (R12, R40). -/
structure Re where
  idm : Option (Bytes 8)
  pmm : Option (Bytes 8)
  phase : RePhase
  pend : Pending
deriving DecidableEq, Repr

/-! ## The emulation dispatcher (R25 to R28) -/

/-- ED.PHASE (R27). -/
inductive EdPhase where
  | idle | busy
deriving DecidableEq, Repr

/-- The callback pair of a service (R26). -/
structure Callbacks where
  rd : ReadCb
  wr : WriteCb
deriving DecidableEq, Repr

/-- ED.SVC (R26): pairs of a code and its callbacks, the codes strictly rising, so that equal maps are equal lists. -/
abbrev SvcTable := List (Svc × Callbacks)

/-- A map from service codes to counts (TOT and REM of R28); a code not listed counts 0 (R210). -/
abbrev SvcCount := List (Svc × Nat)

/-- The working registers of ED (R28). -/
structure Work where
  /-- CUR -/
  cur : Nat
  /-- NS -/
  ns : Byte
  /-- SL -/
  sl : List Svc
  /-- NB -/
  nb : Byte
  /-- BL -/
  bl : List (Svc × BitVec 16)
  /-- TOT -/
  tot : SvcCount
  /-- REM -/
  rem : SvcCount
  /-- I -/
  i : Nat
  /-- DATA -/
  data : List Byte
deriving DecidableEq, Repr

/-- Cleared working registers (R28: DISPATCH clears all of them on entry). -/
def Work.cleared : Work :=
  { cur := 0, ns := 0, sl := [], nb := 0, bl := [], tot := [], rem := [], i := 0, data := [] }

/-- The registers of ED. `none` is UNLOADED (R12, R40). -/
structure Ed where
  idm : Option (Bytes 8)
  pmm : Option (Bytes 8)
  /-- the system code, two bytes in wire order (R25) -/
  sys : Option (Bytes 2)
  svc : SvcTable
  phase : EdPhase
  work : Work
deriving DecidableEq, Repr

/-! ## The hosts (R4.1, R4.4, R38, R170) -/

/-- The reader-side host: CACHE, SVC_RD, SVC_WR (R170), and the results returned to it, oldest first (R264). -/
structure ReaderHost where
  cache : Option AttributeBlock
  svcRd : Svc
  svcWr : Svc
  results : List HostResult
deriving DecidableEq, Repr

/-- The emulation-side host: the results returned to it, oldest first (R264). -/
structure EmulatorHost where
  results : List HostResult
deriving DecidableEq, Repr

/-! ## The transport (R61) -/

/-- What the transport connects RE to: something outside (another tag), or this block's own ED (R246; bench L of
95_test_vectors.md). DESIGN CHOICE: log 7. -/
inductive Link where
  | external | loopback
deriving DecidableEq, Repr

/-- One call of the transport port (R61, R264). -/
inductive WireEvent where
  /-- Send(frame) returned `ok` -/
  | sent (frame : List Byte) (ok : Bool)
  /-- Receive(timeout) returned `answer` -/
  | received (timeout : Nat) (answer : Option (List Byte))
  /-- wait_command(timeout) returned `answer` to the emulation host -/
  | waited (timeout : Nat) (answer : Option (List Byte))
  /-- send_response(frame) -/
  | response (frame : List Byte)
deriving DecidableEq, Repr

/-- The transport: its coming answers to Send and to Receive (draws, R61; once a script is used up its answers are
free values, counted by `draws`: log 6), its answers to the wait_commands that come before the next command frame
arrives (log 5), the response in flight on a loopback, the number of wait_commands made, and the calls made of it,
oldest first. -/
structure Transport where
  link : Link
  sendScript : List Bool
  recvScript : List (Option (List Byte))
  waitScript : List (Option (List Byte))
  held : Option (List Byte)
  draws : Nat
  waits : Nat
  log : List WireEvent
deriving DecidableEq, Repr

/-! ## The application behind the callbacks (R4.6, R53) -/

/-- A block store: (address, byte) pairs with addresses strictly rising and no byte equal to what an unlisted
address reads as (log 10). -/
abbrev Memory := List Host.Cell

/-- The application: its block store, the coming replies of its drawn callbacks (draws, I5; once a script is used up
its replies are free values, counted by `draws`: log 9), and the calls of the DISPATCH in progress (R37, R247). -/
structure App where
  mem : Memory
  readScript : List ReadReply
  writeScript : List WriteReply
  draws : Nat
  calls : List CallbackCall
deriving DecidableEq, Repr

/-! ## The whole machine -/

/-- The state: the two units (R20), their hosts, the transport and the application (R4), and the program of host
operations with its index (R29). A program item is the bytes of one operation (`Sys2Proof.encode`). -/
structure State where
  re : Re
  ed : Ed
  reader : ReaderHost
  emulator : EmulatorHost
  transport : Transport
  app : App
  program : List (List Byte)
  index : Nat
deriving DecidableEq, Repr

/-- The machine right after reset (R39, R250). RE.PEND, the working registers and the environment have no value in
the spec: logs 2, 11, 12 and 13 name theirs. -/
def State.reset : State :=
  { re := { idm := none, pmm := none, phase := .idle, pend := { code := 0, n := 0, t := 0 } }
    ed := { idm := none, pmm := none, sys := none, svc := [], phase := .idle, work := Work.cleared }
    reader := { cache := none, svcRd := Config.svcRdDefault, svcWr := Config.svcWrDefault, results := [] }
    emulator := { results := [] }
    transport := { link := .external, sendScript := [], recvScript := [], waitScript := [], held := none, draws := 0,
                   waits := 0, log := [] }
    app := { mem := [], readScript := [], writeScript := [], draws := 0, calls := [] }
    program := []
    index := 0 }

/-! ## How a step can stop -/

/-- Faults of a step. T3CF itself has none (R240, R243): every failure of an operation is a result record. -/
inductive Fault where
  /-- Raised by `step` when the program has ended and RE is AWAIT or ED is BUSY: "A run that stops with RE.PHASE =
  AWAIT has no defined final state" (R264, R41, I16 "stuck"). Safe: no claim is made of a state the spec does not
  define. No run from reset reaches it. -/
  | endedInExchange
deriving DecidableEq, Repr

/-- Refusals of a step. -/
inductive Refusal where
  /-- Raised by `exec` for an instruction that has no meaning yet. Safe. No arm uses it. -/
  | notModelled (mnemonic : String)
  /-- Raised by `step` for a program item whose selector names no operation: "Any other operation
  number is no operation, and a decoder refuses it by name" (R80). Safe. -/
  | noSuchOperation (selector : Byte)
  /-- Raised by `step` for a program item that is empty or ends inside an operand (log 3). Safe: such bytes stand for
  no operation. -/
  | truncatedItem
  /-- Raised by `step` for a program item with an operand that is not well formed: ATTR_PARSE or ATTR_CHECK of another
  length than 16 (R112 "the decoder refuses it"), or a byte that no Boolean and no callback begins with (log 3). Safe:
  such bytes stand for no operation. -/
  | illFormedItem
  /-- Raised by `step` for a program item that goes on after the last operand of its operation. Safe: such bytes stand
  for no operation (log 3). -/
  | trailingBytes
  /-- Raised by `step` when both units are idle and the host has no further operation (R29: the block fetches
  nothing by itself; R264: a run ends between operations). Safe. -/
  | programEnd
deriving DecidableEq, Repr

end Sys2Proof.Machine
end

