-- ==== Sys2Proof/Machine/Flags.lean ====
section
/-! DEFINITION. The flags of R31: valid, nonstd, wip, writeable of an attribute block, and the begin and end
markers of a block-list entry. -/

namespace Sys2Proof.Machine

/-! ## Attribute block flags (R31, R34, R110, R112) -/

/-- `csum(B)` (R110): the sum of the first 14 bytes. -/
def csum (B : List Byte) : Nat := ((B.take 14).map BitVec.toNat).sum

/-- The stored checksum `(B[14] << 8) | B[15]` (R92). -/
def storedSum (B : List Byte) : Nat := (pair16 (byteAt B 14) (byteAt B 15)).toNat

/-- valid (R110, R112, R113). -/
def attrValid (B : List Byte) : Bool := storedSum B == csum B

/-- wip of byte 9 (R34): any non-zero byte is true. -/
def wipOf (b : Byte) : Bool := b != 0x00

/-- writeable of byte 10 (R34): 0x01 only. -/
def writeableOf (b : Byte) : Bool := b == 0x01

/-- nonstd (R34): byte 9 or byte 10 holds a value no serializer writes. -/
def attrNonstd (B : List Byte) : Bool :=
  !(byteAt B 9 == 0x00 || byteAt B 9 == 0x0F) || !(byteAt B 10 == 0x00 || byteAt B 10 == 0x01)

/-- The byte that carries wip (R33, R111): 0x0F for true, never 0x01. -/
def wipByte (b : Bool) : Byte := if b then 0x0F else 0x00

/-- The byte that carries writeable (R33, R111). -/
def writeableByte (b : Bool) : Byte := if b then 0x01 else 0x00

/-! ## Begin and end markers (R214, R215) -/

/-- The count a code has (R210: a count starts at 0). -/
def countOf : SvcCount → Svc → Nat
  | [], _ => 0
  | (c, n) :: m, s => if c = s then n else countOf m s

/-- Sets the count of a code. -/
def setCount : SvcCount → Svc → Nat → SvcCount
  | [], s, v => [(s, v)]
  | (c, n) :: m, s, v => if c = s then (s, v) :: m else (c, n) :: setCount m s v

/-- TOT of a block list (R214): the number of entries per service. -/
def totals : List (Svc × BitVec 16) → SvcCount → SvcCount
  | [], m => m
  | (s, _) :: bl, m => totals bl (setCount m s (countOf m s + 1))

/-- `begin <- (REM[s] == TOT[s])` (R215). -/
def beginMark (w : Work) (s : Svc) : Bool := countOf w.rem s == countOf w.tot s

/-- `REM[s] <- REM[s] - 1` (R215). -/
def takeOne (w : Work) (s : Svc) : Work := { w with rem := setCount w.rem s (countOf w.rem s - 1) }

/-- `end <- (REM[s] == 0)`, of the registers after `takeOne` (R215). -/
def endMark (w : Work) (s : Svc) : Bool := countOf w.rem s == 0

end Sys2Proof.Machine
end

