-- ==== Sys2Proof/Machine/Ops.lean ====
section
/-! DEFINITION. The named operations over registers, memory, hosts and transport that the meanings share. -/

namespace Sys2Proof.Machine

/-! ## The application's block store (R53; log 10) -/

/-- What an address that the store does not list reads as (DESIGN CHOICE: log 10). -/
def Memory.blank : Byte := 0x00

/-- The canonical form: addresses strictly rising, no listed byte blank. -/
abbrev Memory.wf (m : Memory) : Prop :=
  m.Pairwise (fun c d => c.1 < d.1) ∧ ∀ c ∈ m, c.2 ≠ Memory.blank

/-- The byte at an address. -/
def Memory.readByte : Memory → Nat → Byte
  | [], _ => Memory.blank
  | (k, v) :: m, a => if k = a then v else Memory.readByte m a

/-- Puts a cell in front, unless its byte is blank. -/
def Memory.cell (a : Nat) (v : Byte) (m : Memory) : Memory := if v = Memory.blank then m else (a, v) :: m

/-- Stores a byte, keeping the canonical form. -/
def Memory.writeByte : Memory → Nat → Byte → Memory
  | [], a, v => Memory.cell a v []
  | (k, w) :: m, a, v =>
    if a < k then Memory.cell a v ((k, w) :: m)
    else if a = k then Memory.cell a v m
    else (k, w) :: Memory.writeByte m a v

/-- The address of a block's first byte (log 10). -/
def blockAddr (bank blk : BitVec 16) : Nat := (bank.toNat * 65536 + blk.toNat) * 16

/-- Reads `n` bytes in offset order. -/
def Memory.readBytes (m : Memory) (a : Nat) : Nat → List Byte
  | 0 => []
  | n + 1 => Memory.readByte m a :: Memory.readBytes m (a + 1) n

/-- Stores bytes in offset order. -/
def Memory.writeBytes : Memory → Nat → List Byte → Memory
  | m, _, [] => m
  | m, a, b :: bs => Memory.writeBytes (Memory.writeByte m a b) (a + 1) bs

/-- One block of the store. -/
def Memory.readBlock (m : Memory) (bank blk : BitVec 16) : Block :=
  ⟨Memory.readBytes m (blockAddr bank blk) 16, rfl⟩

/-- Stores one block. -/
def Memory.writeBlock (m : Memory) (bank blk : BitVec 16) (data : List Byte) : Memory :=
  Memory.writeBytes m (blockAddr bank blk) data

/-! ## Updates of one part of the state -/

/-- Delivers a result to the reader-side host (R37). -/
def State.reply (s : State) (r : HostResult) : State :=
  { s with reader := { s.reader with results := s.reader.results ++ [r] } }

/-- Delivers a result to the emulation-side host (R37). -/
def State.replyEmulator (s : State) (r : HostResult) : State :=
  { s with emulator := { results := s.emulator.results ++ [r] } }

/-- RE.IDM and RE.PMM, loaded together (R40). -/
def State.setTag (s : State) (idm pmm : Bytes 8) : State :=
  { s with re := { s.re with idm := some idm, pmm := some pmm } }

/-- `RE.PHASE <- AWAIT; RE.PEND <- p` (R150). -/
def State.awaitReply (s : State) (p : Pending) : State := { s with re := { s.re with phase := .await, pend := p } }

/-- `RE.PHASE <- IDLE` (R150). -/
def State.endAwait (s : State) : State := { s with re := { s.re with phase := .idle } }

/-- ED.IDM, ED.PMM and ED.SYS, loaded together (R40). -/
def State.setIdentity (s : State) (idm pmm : Bytes 8) (sys : Bytes 2) : State :=
  { s with ed := { s.ed with idm := some idm, pmm := some pmm, sys := some sys } }

/-- ED.SVC (R26). -/
def State.setServices (s : State) (t : SvcTable) : State := { s with ed := { s.ed with svc := t } }

/-- `ED.PHASE <- BUSY` with the working registers cleared (R193), and the call trace with them (R37). -/
def State.enterDispatch (s : State) : State :=
  { s with ed := { s.ed with phase := .busy, work := Work.cleared }, app := { s.app with calls := [] } }

/-- `ED.PHASE <- IDLE` (R193). -/
def State.leaveDispatch (s : State) : State := { s with ed := { s.ed with phase := .idle } }

/-- The working registers of ED. -/
def State.setWork (s : State) (w : Work) : State := { s with ed := { s.ed with work := w } }

/-- CACHE (R170). -/
def State.setCache (s : State) (c : Option AttributeBlock) : State :=
  { s with reader := { s.reader with cache := c } }

/-- The transport. -/
def State.setTransport (s : State) (t : Transport) : State := { s with transport := t }

/-- The application. -/
def State.setApp (s : State) (a : App) : State := { s with app := a }

/-- Records a call of the transport port (R264). -/
def State.logWire (s : State) (e : WireEvent) : State :=
  s.setTransport { s.transport with log := s.transport.log ++ [e] }

/-- wait_command returned `answer` to the emulation host (R61, R203): t_wait is the host's own choice, a free value
(log 5). -/
def State.waited (s : State) (answer : Option (List Byte)) : State :=
  s.setTransport { s.transport with
    waits := s.transport.waits + 1
    log := s.transport.log ++ [.waited (Config.freeWait s.transport.waits) answer] }

/-! ## Results and errors (R230, R243) -/

/-- The class number of an error (R230). -/
def Err.code : Err → Nat
  | .transport _ => 1
  | .framing _ _ => 2
  | .command _ _ => 3
  | .checksum _ _ => 4
  | .policy _ _ => 5
  | .argument _ _ => 6
  | .unconfigured _ => 7
  | .refused => 8

/-- The sub-code number of an error (R230): SF1 for CommandError, the stored checksum for ChecksumError. -/
def Err.sub : Err → Nat
  | .transport .sendFail => 0
  | .transport .noResponse => 1
  | .framing .lenByte _ => 0
  | .framing .short _ => 1
  | .framing .code _ => 2
  | .framing .idm _ => 3
  | .framing .count _ => 4
  | .framing .payloadLen _ => 5
  | .command sf1 _ => sf1.toNat
  | .checksum stored _ => stored
  | .policy .notWriteable _ => 0
  | .policy .capacity _ => 1
  | .argument .dataLen _ => 0
  | .argument .nblkRange _ => 1
  | .argument .blockRange _ => 2
  | .argument .frameLen _ => 3
  | .argument .chunkZero _ => 4
  | .unconfigured .reTag => 0
  | .unconfigured .edIdentity => 1
  | .refused => 0

/-- The recorded information of an error (R230). -/
def Err.info : Err → Info
  | .transport _ => .num 0
  | .framing _ i => i
  | .command _ sf2 => .num sf2.toNat
  | .checksum _ computed => .num computed
  | .policy _ n => .num n
  | .argument _ n => .num n
  | .unconfigured _ => .num 0
  | .refused => .num 0

/-- The result record of an operation that ends with a value or an error (R37). -/
def resultOf {α : Type} (f : α → Value) : Except Err α → HostResult
  | .ok a => .ok (f a)
  | .error e => .err e

/-- Error delivery, in place of trap entry (R243): the operation ends at once and its record goes to the host port;
nothing is saved and the state is what the operation had written before. `raise` of R12 on the reader side. -/
def State.raise (s : State) (e : Err) : State := s.reply (.err e)

/-- `raise` of R12 on the emulation side (R243). -/
def State.raiseEmulator (s : State) (e : Err) : State := s.replyEmulator (.err e)

/-- Delivers what a reader-side operation ends with: `return` of R12, or the error delivery of R243. -/
def State.finish {α : Type} (s : State) (f : α → Value) : Except Err α → State
  | .ok a => s.reply (.ok (f a))
  | .error e => s.raise e

/-- What a host operation that touches the state yields: its value or error, and the state it leaves. -/
abbrev Run (α : Type) := Except Err α × State

/-- Goes on with the value; the first error ends the operation (R12). -/
def Run.next {α β : Type} (r : Run α) (k : α → State → Run β) : Run β :=
  match r with
  | (.ok a, s) => k a s
  | (.error e, s) => (.error e, s)

/-! ## Reading the unloadable registers (R40, R231) -/

/-- RE.IDM, or Unconfigured(RE_TAG) (R231). -/
def reIdm (s : State) : Except Err (Bytes 8) :=
  match s.re.idm with
  | some v => .ok v
  | none => .error (.unconfigured .reTag)

/-- RE.PMM, or Unconfigured(RE_TAG) (R231). -/
def rePmm (s : State) : Except Err (Bytes 8) :=
  match s.re.pmm with
  | some v => .ok v
  | none => .error (.unconfigured .reTag)

/-! ## The service table (R26) -/

/-- The callbacks of a code. -/
def lookupService : SvcTable → Svc → Option Callbacks
  | [], _ => none
  | (c, p) :: t, s => if c = s then some p else lookupService t s

/-- Adds or replaces the entry of a code (R192), keeping the codes rising. -/
def insertService : SvcTable → Svc → Callbacks → SvcTable
  | [], s, p => [(s, p)]
  | (c, q) :: t, s, p =>
    if s.toNat < c.toNat then (s, p) :: (c, q) :: t
    else if s = c then (s, p) :: t
    else (c, q) :: insertService t s p

/-- The codes of a table strictly rise. -/
abbrev SvcTable.sorted (t : SvcTable) : Prop := t.Pairwise (fun a b => a.1.toNat < b.1.toNat)

/-! ## Phases (R190, R239) -/

/-- What an operation of ED gets first (R190): Refused(BUSY) while a DISPATCH runs. -/
def edGate (s : State) : Option Err :=
  match s.ed.phase with
  | .idle => none
  | .busy => some .refused

/-- What LOAD_TAG and an exchange get first (R140, R152): Refused(BUSY) while an exchange is in flight. -/
def reGate (s : State) : Option Err :=
  match s.re.phase with
  | .idle => none
  | .await => some .refused

/-! ## The transport's draws (R61, R137; log 6) -/

/-- The external transport's answer to Send: the next of the script, or a free value. -/
def drawSend (t : Transport) : Bool × Transport :=
  match t.sendScript with
  | b :: q => (b, { t with sendScript := q })
  | [] => (Config.freeSend t.draws, { t with draws := t.draws + 1 })

/-- The external transport's answer to Receive: the next of the script, or a free value. -/
def drawReceive (t : Transport) : Option (List Byte) × Transport :=
  match t.recvScript with
  | a :: q => (a, { t with recvScript := q })
  | [] => (Config.freeReceive t.draws, { t with draws := t.draws + 1 })

/-! ## The application's callbacks (R26, R58; log 8, log 9) -/

/-- A drawn read callback's reply: the next of the script, or a free value. -/
def drawRead (a : App) : ReadReply × App :=
  match a.readScript with
  | r :: q => (r, { a with readScript := q })
  | [] => (Config.freeRead a.draws, { a with draws := a.draws + 1 })

/-- A drawn write callback's reply: the next of the script, or a free value. -/
def drawWrite (a : App) : WriteReply × App :=
  match a.writeScript with
  | r :: q => (r, { a with writeScript := q })
  | [] => (Config.freeWrite a.draws, { a with draws := a.draws + 1 })

/-- The read callback itself: its reply and the application after it. A block-store callback answers `none` from
block `size` on, and issues no operation. -/
def runReadCb (cb : ReadCb) (blk : BitVec 16) (a : App) : ReadReply × App :=
  match cb with
  | .drawn _ => drawRead a
  | .store bank size =>
    ({ data := if blk.toNat < size then some (Memory.readBlock a.mem bank blk) else none, attempts := 0 }, a)

/-- The write callback itself. A block-store callback stores the data and answers true below block `size`; the
callback of a read-only service answers false (R192). -/
def runWriteCb (cb : WriteCb) (blk : BitVec 16) (data : List Byte) (a : App) : WriteReply × App :=
  match cb with
  | .drawn _ => drawWrite a
  | .store bank size =>
    if blk.toNat < size then
      ({ ok := true, attempts := 0 }, { a with mem := Memory.writeBlock a.mem bank blk data })
    else ({ ok := false, attempts := 0 }, a)
  | .readOnly => ({ ok := false, attempts := 0 }, a)

/-- `BlockRead(svc, blk, begin, end)` (R12): calls the read callback that ED.SVC maps `svc` to and records the call
(R37). Each operation it tries to issue to ED meets ED's gate (R27, R244). PARSE_LISTS lets no unregistered code
through (R212); for such a code there is no callback, and no data. -/
def blockRead (s : State) (svc : Svc) (blk : BitVec 16) (first last : Bool) : Option Block × State :=
  match lookupService s.ed.svc svc with
  | none => (none, s)
  | some p =>
    let (r, a) := runReadCb p.rd blk s.app
    (r.data, s.setApp { a with calls := a.calls ++
      [.read svc p.rd blk first last r.data (List.replicate r.attempts (edGate s))] })

/-- `BlockWrite(svc, blk, d, begin, end)` (R12), as `blockRead`. -/
def blockWrite (s : State) (svc : Svc) (blk : BitVec 16) (data : List Byte) (first last : Bool) : Bool × State :=
  match lookupService s.ed.svc svc with
  | none => (false, s)
  | some p =>
    let (r, a) := runWriteCb p.wr blk data s.app
    (r.ok, s.setApp { a with calls := a.calls ++
      [.write svc p.wr blk data first last r.ok (List.replicate r.attempts (edGate s))] })

/-! ## The host's program (R29; log 2) -/

/-- The item at the program index. -/
def fetchItem (s : State) : Option (List Byte) := s.program[s.index]?

/-- The program index advances by one for each operation that returns (R29). -/
def State.advance (s : State) : State := { s with index := s.index + 1 }

/-- A program with `item` at position `k` (the positions before it that it lacked are empty items). -/
def putItem (program : List (List Byte)) (k : Nat) (item : List Byte) : List (List Byte) :=
  program.take k ++ List.replicate (k - program.length) [] ++ item :: program.drop (k + 1)

/-- Replaces the program. -/
def State.setProgram (s : State) (p : List (List Byte)) : State := { s with program := p }

end Sys2Proof.Machine
end

