-- ==== Sys2Proof/Machine/Attr.lean ====
section
/-! DEFINITION. The attribute codec AC (40_attribute_codec.md): ATTR_SERIALIZE, ATTR_PARSE, ATTR_CHECK, and the
capacity rules. AC reads no register and writes none. -/

namespace Sys2Proof.Machine

/-- Bytes 0 to 13 of a serialized block (R33, R111). -/
def attrBody (ab : AttributeBlock) : List Byte :=
  [ab.verMajor ++ ab.verMinor, ab.nbr, ab.nbw] ++ be16 ab.nmaxb ++ ab.rsv.val ++
    [wipByte ab.wip, writeableByte ab.writeable] ++ be24 ab.ln

/-- ATTR_SERIALIZE (R111): the 14 bytes and their checksum, high byte first. -/
def attrSerialize (ab : AttributeBlock) : List Byte :=
  attrBody ab ++ be16 (BitVec.ofNat 16 (csum (attrBody ab)))

/-- Bytes 5 to 8 (R33, R112). -/
def attrRsv (B : List Byte) : Bytes 4 := ⟨[byteAt B 5, byteAt B 6, byteAt B 7, byteAt B 8], rfl⟩

/-- The record that ATTR_PARSE decodes (R112). -/
def attrRecord (B : List Byte) : AttributeBlock :=
  { verMajor := (byteAt B 0).extractLsb' 4 4
    verMinor := (byteAt B 0).extractLsb' 0 4
    nbr := byteAt B 1
    nbw := byteAt B 2
    nmaxb := pair16 (byteAt B 3) (byteAt B 4)
    rsv := attrRsv B
    wip := wipOf (byteAt B 9)
    writeable := writeableOf (byteAt B 10)
    ln := triple24 (byteAt B 11) (byteAt B 12) (byteAt B 13) }

/-- `capacity(ab)` in bytes (R35). -/
def capacity (ab : AttributeBlock) : Nat := 16 * ab.nmaxb.toNat

/-- The block count for a capacity of `C` bytes, refused when it would not fit 16 bits (R117). -/
def blocksForCapacity (C : Nat) : Option (BitVec 16) :=
  if C > 1048560 then none else some (BitVec.ofNat 16 ((C + 15) / 16))

/-- ATTR_PARSE (R112). A checksum mismatch is reported in `valid`, and the record is still returned. -/
def execAttrParse (b : List Byte) (s : State) : Host.Outcome State Fault Refusal :=
  .next (s.reply (.ok (.parsed (attrRecord b) (attrValid b) (attrNonstd b))))

/-- ATTR_SERIALIZE (R111). -/
def execAttrSerialize (ab : AttributeBlock) (s : State) : Host.Outcome State Fault Refusal :=
  .next (s.reply (.ok (.bytes (attrSerialize ab))))

/-- ATTR_CHECK (R113). -/
def execAttrCheck (b : List Byte) (s : State) : Host.Outcome State Fault Refusal :=
  .next (s.reply (.ok (.valid (attrValid b))))

end Sys2Proof.Machine
end

