-- ==== Sys2Proof/Machine/Emulation.lean ====
section
/-! DEFINITION. The emulation dispatcher ED (44_emulation_dispatch.md, 45_emulation_block_access.md):
LOAD_IDENTITY, REGISTER_SERVICE, DISPATCH and its five handlers. -/

namespace Sys2Proof.Machine

/-! ## Configuration -/

/-- LOAD_IDENTITY (R191): it replaces the three registers and keeps ED.SVC. -/
def execLoadIdentity (idm pmm : Bytes 8) (sys : Bytes 2) (s : State) : Host.Outcome State Fault Refusal :=
  match edGate s with
  | some e => .next (s.raiseEmulator e)
  | none => .next ((s.setIdentity idm pmm sys).replyEmulator (.ok .unit))

/-- REGISTER_SERVICE (R192): it adds the entry of a code, or replaces both its callbacks. -/
def execRegisterService (code : Svc) (rd : ReadCb) (wr : WriteCb) (s : State) : Host.Outcome State Fault Refusal :=
  match edGate s with
  | some e => .next (s.raiseEmulator e)
  | none =>
    .next ((s.setServices (insertService s.ed.svc code { rd := rd, wr := wr })).replyEmulator (.ok .unit))

/-! ## How a DISPATCH ends (R12, R201) -/

/-- `respond(frame)`, `drop(reason)` or `raise`. -/
inductive DispatchEnd where
  | respond (frame : List Byte)
  | drop (reason : DropReason)
  | raise (e : Err)
deriving DecidableEq, Repr

/-- The result record of an end (R37), with the callback calls made. -/
def endResult (e : DispatchEnd) (calls : List CallbackCall) : HostResult :=
  match e with
  | .respond frame => .respond frame calls
  | .drop reason => .drop reason calls
  | .raise err => .err err

/-- `err(rc, st)` (R210): an error response of status `st`. -/
def errorResponse (idm : Bytes 8) (rc : Byte) (st : List Byte) : List Byte := framed (rc :: (idm.val ++ st))

/-! ## The commands that touch no block (R196 to R198) -/

/-- POLLING (R196). ED.PMM and ED.SYS are loaded with ED.IDM (R40); reading either UNLOADED raises Unconfigured
(R40; log 16). -/
def polling (ed : Ed) (idm : Bytes 8) (F : List Byte) : DispatchEnd :=
  if F.length < 6 then .drop .tooShort
  else match ed.sys, ed.pmm with
    | some sys, some pmm =>
      if slice F 2 4 ≠ sys.val ∧ slice F 2 4 ≠ [0xFF, 0xFF] then .drop .scMismatch
      else .respond (framed ([0x01] ++ idm.val ++ pmm.val ++ (if byteAt F 4 = 0x01 then sys.val else [])))
    | _, _ => .raise (.unconfigured .edIdentity)

/-- REQUEST_RESPONSE (R197). -/
def requestResponse (idm : Bytes 8) : DispatchEnd := .respond (framed ([0x05] ++ idm.val ++ [0x00]))

/-- REQUEST_SYSTEM_CODE (R198). -/
def requestSystemCode (ed : Ed) (idm : Bytes 8) : DispatchEnd :=
  match ed.sys with
  | some sys => .respond (framed ([0x0D] ++ idm.val ++ [0x01] ++ sys.val))
  | none => .raise (.unconfigured .edIdentity)

/-! ## PARSE_LISTS (R210) -/

/-- Why the parse of the lists stops: a drop, or an error status. -/
inductive Stop where
  | drop (reason : DropReason)
  | status (st : List Byte)
deriving DecidableEq, Repr

/-- What a parse leaves: the working registers, and why it stopped, if it did. -/
abbrev Parse := Work × Option Stop

/-- Goes on unless the parse has stopped. -/
def Parse.next (p : Parse) (k : Work → Parse) : Parse :=
  match p with
  | (w, none) => k w
  | (w, some st) => (w, some st)

/-- `need(k)` (R210, R211). -/
def missing (F : List Byte) (w : Work) (k : Nat) : Bool := decide (w.cur + k > F.length)

/-- The service list (R212): `k` codes from CUR on. The first code not in ED.SVC stops the parse. -/
def parseServices (svc : SvcTable) (F : List Byte) : Nat → Work → Parse
  | 0, w => (w, none)
  | k + 1, w =>
    if missing F w 2 then (w, some (.drop .truncated))
    else if (lookupService svc (le16At F w.cur)).isNone then
      ({ w with cur := w.cur + 2 }, some (.status [0xFF, 0xA1]))
    else parseServices svc F k { w with cur := w.cur + 2, sl := w.sl ++ [le16At F w.cur] }

/-- The block list (R213): `k` entries from CUR on, the first of them at position `i`. The service index is checked
before the block-number bytes; bit 7 of the header selects the form; bits 6:4 are not read. -/
def parseEntries (F : List Byte) : Nat → Nat → Work → Parse
  | 0, _, w => (w, none)
  | k + 1, i, w =>
    if missing F w 1 then ({ w with i := i }, some (.drop .truncated))
    else if entryIndex (byteAt F w.cur) ≥ w.ns.toNat then
      ({ w with i := i }, some (.status [positionBit i, 0xA3]))
    else if entryShort (byteAt F w.cur) then
      if missing F w 2 then ({ w with i := i }, some (.drop .truncated))
      else parseEntries F k (i + 1)
        { w with i := i, cur := w.cur + 2,
                 bl := w.bl ++ [(w.sl.getD (entryIndex (byteAt F w.cur)) 0, (byteAt F (w.cur + 1)).setWidth 16)] }
    else
      if missing F w 3 then ({ w with i := i }, some (.drop .truncated))
      else parseEntries F k (i + 1)
        { w with i := i, cur := w.cur + 3,
                 bl := w.bl ++ [(w.sl.getD (entryIndex (byteAt F w.cur)) 0, le16At F (w.cur + 1))] }

/-- The count byte NS and the service list (R212). -/
def parseServiceList (svc : SvcTable) (F : List Byte) (w : Work) : Parse :=
  if missing F w 1 then (w, some (.drop .truncated))
  else parseServices svc F (byteAt F w.cur).toNat { w with ns := byteAt F w.cur, cur := w.cur + 1 }

/-- The count byte NB and the block list (R213). -/
def parseBlockList (F : List Byte) (w : Work) : Parse :=
  if missing F w 1 then (w, some (.drop .truncated))
  else parseEntries F (byteAt F w.cur).toNat 0 { w with nb := byteAt F w.cur, cur := w.cur + 1 }

/-- TOT and REM of the parsed block list (R214). -/
def countEntries (w : Work) : Work := { w with tot := totals w.bl [], rem := totals w.bl [] }

/-- PARSE_LISTS (R210): CUR starts at 10. -/
def parseLists (svc : SvcTable) (F : List Byte) (w : Work) : Parse :=
  Parse.next (parseServiceList svc F { w with cur := 10 }) fun w1 =>
  Parse.next (parseBlockList F w1) fun w2 => (countEntries w2, none)

/-- The end of a DISPATCH whose parse stopped. -/
def stopEnd (idm : Bytes 8) (rc : Byte) : Stop → DispatchEnd
  | .drop reason => .drop reason
  | .status st => .respond (errorResponse idm rc st)

/-! ## Read Without Encryption (R217, R218) -/

/-- The working registers when entry `i` of service `svc` is taken (R215). -/
def takeEntry (w : Work) (svc : Svc) (i : Nat) : Work := takeOne { w with i := i } svc

/-- The read callbacks in list order, from position `i` on (R217): `none` when all answered, or the status of the
one that gave no data. DATA gathers the blocks. -/
def readEntries : List (Svc × BitVec 16) → Nat → State → Option (List Byte) × State
  | [], _, s => (none, s)
  | (svc, blk) :: rest, i, s =>
    match blockRead (s.setWork (takeEntry s.ed.work svc i)) svc blk (beginMark s.ed.work svc)
        (endMark (takeEntry s.ed.work svc i) svc) with
    | (none, s1) => (some [positionBit i, 0xA2, 0x00], s1)
    | (some d, s1) => readEntries rest (i + 1) (s1.setWork { s1.ed.work with data := s1.ed.work.data ++ d.val })

/-- READ_WO_ENC (R217), with the overflow check of R218 before any callback. -/
def readWoEnc (idm : Bytes 8) (F : List Byte) (s : State) : DispatchEnd × State :=
  match parseLists s.ed.svc F s.ed.work with
  | (w, some stop) => (stopEnd idm 0x07 stop, s.setWork w)
  | (w, none) =>
    if 13 + 16 * w.nb.toNat > Config.maxFrame then
      (.respond (errorResponse idm 0x07 [0xFF, 0xA2]), s.setWork w)
    else match readEntries w.bl 0 (s.setWork w) with
      | (some st, s1) => (.respond (errorResponse idm 0x07 st), s1)
      | (none, s1) => (.respond (framed ([0x07] ++ idm.val ++ [0x00, 0x00, w.nb] ++ s1.ed.work.data)), s1)

/-! ## Write Without Encryption (R219, R220) -/

/-- The write callbacks in list order, from position `i` on (R219). Nothing is undone (R222). -/
def writeEntries (data : List Byte) : List (Svc × BitVec 16) → Nat → State → Option (List Byte) × State
  | [], _, s => (none, s)
  | (svc, blk) :: rest, i, s =>
    match blockWrite (s.setWork (takeEntry s.ed.work svc i)) svc blk (blockSlice data i) (beginMark s.ed.work svc)
        (endMark (takeEntry s.ed.work svc i) svc) with
    | (false, s1) => (some [positionBit i, 0xA2, 0x00], s1)
    | (true, s1) => writeEntries data rest (i + 1) s1

/-- WRITE_WO_ENC (R219), with the data length check of R220 before any callback. -/
def writeWoEnc (idm : Bytes 8) (F : List Byte) (s : State) : DispatchEnd × State :=
  match parseLists s.ed.svc F s.ed.work with
  | (w, some stop) => (stopEnd idm 0x09 stop, s.setWork w)
  | (w, none) =>
    if (F.drop w.cur).length % 16 ≠ 0 ∨ (F.drop w.cur).length ≠ 16 * w.nb.toNat then
      (.respond (errorResponse idm 0x09 [0xFF, 0xA2]), s.setWork w)
    else match writeEntries (F.drop w.cur) w.bl 0 (s.setWork w) with
      | (some st, s1) => (.respond (errorResponse idm 0x09 st), s1)
      | (none, s1) => (.respond (framed ([0x09] ++ idm.val ++ [0x00, 0x00])), s1)

/-! ## DISPATCH (R193 to R195, R199) -/

/-- The commands that carry an identifier (R193, R195), once it has matched. -/
def routeIdentified (idm : Bytes 8) (F : List Byte) (s : State) : DispatchEnd × State :=
  if byteAt F 1 = 0x04 then (requestResponse idm, s)
  else if byteAt F 1 = 0x06 then readWoEnc idm F s
  else if byteAt F 1 = 0x08 then writeWoEnc idm F s
  else (requestSystemCode s.ed idm, s)

/-- The codes of the commands that carry an identifier (R193). -/
def identifiedCode (c : Byte) : Bool := c == 0x04 || c == 0x06 || c == 0x08 || c == 0x0C

/-- The framing checks and the routing of R193, once ED is BUSY with its working registers cleared. -/
def handleFrame (idm : Bytes 8) (F : List Byte) (s : State) : DispatchEnd × State :=
  if F.length < 2 then (.drop .tooShort, s)
  else if (byteAt F 0).toNat ≠ F.length then (.drop .lengthMismatch, s)
  else if byteAt F 1 = 0x00 then (polling s.ed idm F, s)
  else if identifiedCode (byteAt F 1) then
    if F.length < 10 then (.drop .tooShort, s)
    else if slice F 2 10 ≠ idm.val then (.drop .idMismatch, s)
    else routeIdentified idm F s
  else (.drop .unknownCode, s)

/-- DISPATCH (R193): its result record and the state it leaves. Refused, then Unconfigured (R242), then the frame. -/
def dispatchFrame (F : List Byte) (s : State) : HostResult × State :=
  match edGate s with
  | some e => (.err e, s)
  | none =>
    match s.ed.idm with
    | none => (.err (.unconfigured .edIdentity), s)
    | some idm =>
      match handleFrame idm F s.enterDispatch with
      | (e, s1) => (endResult e s1.app.calls, s1.leaveDispatch)

/-- The response frame of a DISPATCH result. -/
def responseOf : HostResult → Option (List Byte)
  | .respond frame _ => some frame
  | _ => none

/-- What the emulation host does with the result of a DISPATCH (R37, R203): it takes the record, and hands the frame of
a Respond to the transport's send_response (what becomes of it there: log 28). On Drop it sends nothing (R203), nor on
Err (D33). -/
def deliverResult (r : HostResult) (s : State) : State :=
  match responseOf r with
  | some g => (s.replyEmulator r).logWire (.response g)
  | none => s.replyEmulator r

/-- DISPATCH (R193), and what the host does with its result (R37): the call of send_response is the host's, after the
operation, which itself makes no call (R202). -/
def execDispatch (frame : List Byte) (s : State) : Host.Outcome State Fault Refusal :=
  match dispatchFrame frame s with
  | (r, s1) => .next (deliverResult r s1)

/-! ## The emulation host's loop (R203) -/

/-- One turn of the loop of R203: wait_command returned `F`; DISPATCH; send_response when there is a response. The
result is the response sent. R203 lists Respond and Drop only: after an Err the turn ends with its record and nothing
sent, as after a Drop (DESIGN CHOICE: log 5). -/
def serveFrame (F : List Byte) (s : State) : Option (List Byte) × State :=
  match dispatchFrame F (s.waited (some F)) with
  | (r, s1) => (responseOf r, deliverResult r s1)

/-- The loop of R203 when wait_command returns these answers and then `F`: each answer is taken off the transport's
script as it is returned; on `none`, and after a DISPATCH that ends with Err, the host waits again (DESIGN CHOICE: log
5). -/
def serveTurns (F : List Byte) : List (Option (List Byte)) → State → State
  | [], s => (serveFrame F s).2
  | none :: answers, s =>
    serveTurns F answers ((s.setTransport { s.transport with waitScript := answers }).waited none)
  | some G :: answers, s =>
    serveTurns F answers (serveFrame G (s.setTransport { s.transport with waitScript := answers })).2

end Sys2Proof.Machine
end

