-- ==== Sys2Proof/Machine/Timing.lean ====
section
/-! DEFINITION. The timing model TM (41_timing.md): the timeout function, TIMEOUT_RD and TIMEOUT_WR. -/

namespace Sys2Proof.Machine

/-- `a = p[2:0] + 1` (R130). -/
def timeoutA (p : Byte) : Nat := (p.extractLsb' 0 3).toNat + 1

/-- `b = p[5:3] + 1` (R130). -/
def timeoutB (p : Byte) : Nat := (p.extractLsb' 3 3).toNat + 1

/-- `e = p[7:6]` (R130). -/
def timeoutE (p : Byte) : Nat := (p.extractLsb' 6 2).toNat

/-- `T(p, n)` in milliseconds (R130), by exact arithmetic (D10). -/
def timeout (p : Byte) (n : Nat) : Nat :=
  (timeoutA p + timeoutB p * n) * Config.tUnitNum * 4 ^ timeoutE p / Config.tUnitDen + Config.tMargin

/-- TRD, a view of RE.PMM (R23). -/
def readTiming (pmm : Bytes 8) : Byte := byteAt pmm.val Config.pmmRdOff

/-- TWR, a view of RE.PMM (R23). -/
def writeTiming (pmm : Bytes 8) : Byte := byteAt pmm.val Config.pmmWrOff

/-- The timeout of a read of `n` blocks (R131, R134), or Unconfigured(RE_TAG). -/
def readTimeout (s : State) (n : Nat) : Except Err Nat :=
  match rePmm s with
  | .ok pmm => .ok (timeout (readTiming pmm) n)
  | .error e => .error e

/-- The timeout of a write of `n` blocks (R132, R134), or Unconfigured(RE_TAG). -/
def writeTimeout (s : State) (n : Nat) : Except Err Nat :=
  match rePmm s with
  | .ok pmm => .ok (timeout (writeTiming pmm) n)
  | .error e => .error e

/-- The timeout of a presence check: the read channel with one block (R133). The exchange itself is out of scope
(R7). -/
def presenceTimeout (s : State) : Except Err Nat := readTimeout s 1

/-- TIMEOUT_RD (R131). -/
def execTimeoutRd (n : Nat) (s : State) : Host.Outcome State Fault Refusal :=
  .next (s.finish .ms (readTimeout s n))

/-- TIMEOUT_WR (R132). -/
def execTimeoutWr (n : Nat) (s : State) : Host.Outcome State Fault Refusal :=
  .next (s.finish .ms (writeTimeout s n))

end Sys2Proof.Machine
end

