-- ==== Sys2Proof/Machine/Reader.lean ====
section
/-! DEFINITION. The reader engine RE (42_block_io.md): LOAD_TAG, the request serializers, the response parsers, the
exchange through the transport, READ_BLOCKS and WRITE_BLOCKS. -/

namespace Sys2Proof.Machine

/-! ## Configuration -/

/-- LOAD_TAG (R140). -/
def execLoadTag (idm pmm : Bytes 8) (s : State) : Host.Outcome State Fault Refusal :=
  match reGate s with
  | some e => .next (s.raise e)
  | none => .next ((s.setTag idm pmm).reply (.ok .unit))

/-! ## Request serializers (R141 to R145) -/

/-- `hdr(code, svc, n)` (R142): the service count is always 1. -/
def requestHeader (code : Byte) (idm : Bytes 8) (svc : Svc) (n : Nat) : List Byte :=
  [code] ++ idm.val ++ [0x01] ++ le16 svc ++ [byteOf n]

/-- The first block number over 0xFFFF (R143, R144). -/
def tooBig (blocks : List Nat) : Option Nat := blocks.find? (fun b => decide (b > 0xFFFF))

/-- The checks that follow the argument counts, and the frame (R143, R144): BLOCK_RANGE, FRAME_LEN. -/
def finishRequest (body : List Byte) (blocks : List Nat) : Except Err (List Byte) :=
  match tooBig blocks with
  | some b => .error (.argument .blockRange b)
  | none =>
    if body.length + 1 > Config.maxFrame then .error (.argument .frameLen (body.length + 1)) else .ok (framed body)

/-- The bytes of a read request after the length byte (R143). -/
def readBody (idm : Bytes 8) (svc : Svc) (blocks : List Nat) : List Byte :=
  requestHeader 0x06 idm svc blocks.length ++ blocks.flatMap encEntry

/-- The bytes of a write request after the length byte (R144). -/
def writeBody (idm : Bytes 8) (svc : Svc) (blocks : List Nat) (data : List Byte) : List Byte :=
  requestHeader 0x08 idm svc blocks.length ++ blocks.flatMap encEntry ++ data

/-- SER_READ (R143). -/
def serRead (s : State) (svc : Svc) (blocks : List Nat) : Except Err (List Byte) :=
  match reIdm s with
  | .error e => .error e
  | .ok idm =>
    if blocks.length < 1 ∨ blocks.length > Config.rdMaxBlocks then .error (.argument .nblkRange blocks.length)
    else finishRequest (readBody idm svc blocks) blocks

/-- SER_WRITE (R144). -/
def serWrite (s : State) (svc : Svc) (blocks : List Nat) (data : List Byte) : Except Err (List Byte) :=
  match reIdm s with
  | .error e => .error e
  | .ok idm =>
    if data.length ≠ 16 * blocks.length then .error (.argument .dataLen data.length)
    else if blocks.length < 1 then .error (.argument .nblkRange blocks.length)
    else finishRequest (writeBody idm svc blocks data) blocks

/-- SER_READ (R143). -/
def execSerRead (svc : Svc) (blocks : List Nat) (s : State) : Host.Outcome State Fault Refusal :=
  .next (s.finish .bytes (serRead s svc blocks))

/-- SER_WRITE (R144). -/
def execSerWrite (svc : Svc) (blocks : List Nat) (data : List Byte) (s : State) :
    Host.Outcome State Fault Refusal :=
  .next (s.finish .bytes (serWrite s svc blocks data))

/-! ## Response parsers (R146 to R149) -/

/-- `chk(F, rc)` (R146): the common response check, in its order. -/
def checkResponse (s : State) (F : List Byte) (rc : Byte) : Except Err Unit :=
  match reIdm s with
  | .error e => .error e
  | .ok idm =>
    if F.length = 0 ∨ (byteAt F 0).toNat ≠ F.length then .error (.framing .lenByte (.num F.length))
    else if F.length < 12 then .error (.framing .short (.num F.length))
    else if byteAt F 1 ≠ rc then .error (.framing .code (.num (byteAt F 1).toNat))
    else if slice F 2 10 ≠ idm.val then .error (.framing .idm (.bytes (slice F 2 10)))
    else if byteAt F 10 ≠ 0x00 ∨ byteAt F 11 ≠ 0x00 then .error (.command (byteAt F 10) (byteAt F 11))
    else .ok ()

/-- PARSE_READ_RSP (R147). -/
def parseReadRsp (s : State) (F : List Byte) (n : Nat) : Except Err (List Byte) :=
  match checkResponse s F 0x07 with
  | .error e => .error e
  | .ok () =>
    if F.length < 13 then .error (.framing .short (.num F.length))
    else if (byteAt F 12).toNat ≠ n then .error (.framing .count (.num (byteAt F 12).toNat))
    else if F.length ≠ 13 + 16 * n then .error (.framing .payloadLen (.num F.length))
    else .ok (F.drop 13)

/-- PARSE_WRITE_RSP (R148). -/
def parseWriteRsp (s : State) (F : List Byte) : Except Err Unit :=
  match checkResponse s F 0x09 with
  | .error e => .error e
  | .ok () => if F.length ≠ 12 then .error (.framing .payloadLen (.num F.length)) else .ok ()

/-- PARSE_READ_RSP (R147). -/
def execParseReadRsp (frame : List Byte) (n : Nat) (s : State) : Host.Outcome State Fault Refusal :=
  .next (s.finish .bytes (parseReadRsp s frame n))

/-- PARSE_WRITE_RSP (R148). -/
def execParseWriteRsp (frame : List Byte) (s : State) : Host.Outcome State Fault Refusal :=
  .next (s.finish (fun _ => .unit) (parseWriteRsp s frame))

/-! ## The exchange (R61, R150) -/

/-- Send (R61): the external transport's answer is a draw; a loopback hands the frame to this block's own emulation
host, keeps its response, and returns true (bench L; log 7). -/
def sendFrame (frame : List Byte) (s : State) : Bool × State :=
  match s.transport.link with
  | .external =>
    match drawSend s.transport with
    | (ok, t) => (ok, (s.setTransport t).logWire (.sent frame ok))
  | .loopback =>
    match serveFrame frame (s.logWire (.sent frame true)) with
    | (g, s1) => (true, s1.setTransport { s1.transport with held := g })

/-- Receive(t) (R61, R137): the external transport's answer is a draw; a loopback returns the response it kept, or
`none`. -/
def receiveFrame (t : Nat) (s : State) : Option (List Byte) × State :=
  match s.transport.link with
  | .external =>
    match drawReceive s.transport with
    | (a, tr) => (a, (s.setTransport tr).logWire (.received t a))
  | .loopback =>
    (s.transport.held, (s.setTransport { s.transport with held := none }).logWire (.received t s.transport.held))

/-- One exchange (R150, R151): Send; then RE is AWAIT until Receive returns. Nothing is retried (R59). -/
def exchange (code : Byte) (n t : Nat) (frame : List Byte) (s : State) : Run (List Byte) :=
  match sendFrame frame s with
  | (false, s1) => (.error (.transport .sendFail), s1)
  | (true, s1) =>
    match receiveFrame t (s1.awaitReply { code := code, n := byteOf n, t := BitVec.ofNat 16 t }) with
    | (none, s2) => (.error (.transport .noResponse), s2.endAwait)
    | (some r, s2) => (.ok r, s2.endAwait)

/-- READ_BLOCKS (R150). An exchange begun while one is in flight is refused (R152; log 14). -/
def readBlocks (svc : Svc) (blocks : List Nat) (s : State) : Run (List Byte) :=
  match reGate s with
  | some e => (.error e, s)
  | none =>
    match serRead s svc blocks with
    | .error e => (.error e, s)
    | .ok frame =>
      match readTimeout s blocks.length with
      | .error e => (.error e, s)
      | .ok t =>
        Run.next (exchange 0x07 blocks.length t frame s) fun r s1 => (parseReadRsp s1 r blocks.length, s1)

/-- WRITE_BLOCKS (R151). -/
def writeBlocks (svc : Svc) (blocks : List Nat) (data : List Byte) (s : State) : Run Unit :=
  match reGate s with
  | some e => (.error e, s)
  | none =>
    match serWrite s svc blocks data with
    | .error e => (.error e, s)
    | .ok frame =>
      match writeTimeout s blocks.length with
      | .error e => (.error e, s)
      | .ok t =>
        Run.next (exchange 0x09 blocks.length t frame s) fun r s1 => (parseWriteRsp s1 r, s1)

/-- READ_BLOCKS (R150). -/
def execReadBlocks (svc : Svc) (blocks : List Nat) (s : State) : Host.Outcome State Fault Refusal :=
  match readBlocks svc blocks s with
  | (r, s1) => .next (s1.finish .bytes r)

/-- WRITE_BLOCKS (R151). -/
def execWriteBlocks (svc : Svc) (blocks : List Nat) (data : List Byte) (s : State) :
    Host.Outcome State Fault Refusal :=
  match writeBlocks svc blocks data s with
  | (r, s1) => .next (s1.finish (fun _ => .unit) r)

end Sys2Proof.Machine
end

