-- ==== Sys2Proof/Machine/Accessor.lean ====
section
/-! DEFINITION. The host sequences of the NDEF message accessor (43_message_accessor.md): GET_ATTR, READ_CHUNKED,
WRITE_CHUNKED, NDEF_GET, NDEF_SET. -/

namespace Sys2Proof.Machine

/-! ## The attribute cache (R171, R178) -/

/-- GET_ATTR (R171). CACHE is filled only with a block whose checksum holds. -/
def getAttr (s : State) : Run AttributeBlock :=
  match s.reader.cache with
  | some ab => (.ok ab, s)
  | none =>
    Run.next (readBlocks s.reader.svcRd [0] s) fun B s1 =>
      if attrValid B then (.ok (attrRecord B), s1.setCache (some (attrRecord B)))
      else (.error (.checksum (storedSum B) (csum B)), s1)

/-- CACHE is emptied however NDEF_GET or NDEF_SET ends (R178). -/
def Run.invalidate {α : Type} (r : Run α) : Run α := (r.1, r.2.setCache none)

/-! ## Chunks (R172 to R175) -/

/-- The chunks of `X` when at most `fuel` are left and `lim` is at least 1. -/
def chunksFuel (lim : Nat) : Nat → List Nat → List (List Nat)
  | 0, _ => []
  | _ + 1, [] => []
  | fuel + 1, x :: X => (x :: X).take lim :: chunksFuel lim fuel ((x :: X).drop lim)

/-- `chunks(X, Lim)` (R172). -/
def chunks (X : List Nat) (lim : Nat) : List (List Nat) := chunksFuel lim X.length X

/-- The read loop of R174. -/
def readChunks : List (List Nat) → List Byte → State → Run (List Byte)
  | [], D, s => (.ok D, s)
  | C :: Cs, D, s => Run.next (readBlocks s.reader.svcRd C s) fun p s1 => readChunks Cs (D ++ p) s1

/-- `P[16*k ..< 16*(k + n)]` (R175): a free value where it runs past the end of `P` (DESIGN CHOICE: log 24). -/
def chunkData (P : List Byte) (k n : Nat) : List Byte :=
  if 16 * (k + n) ≤ P.length then slice P (16 * k) (16 * (k + n)) else Config.freeSlice P (16 * k) (16 * (k + n))

/-- The write loop of R175, from `k` blocks of `P` on. -/
def writeChunks (P : List Byte) : List (List Nat) → Nat → State → Run Unit
  | [], _, s => (.ok (), s)
  | C :: Cs, k, s =>
    Run.next (writeBlocks s.reader.svcWr C (chunkData P k C.length) s) fun _ s1 =>
      writeChunks P Cs (k + C.length) s1

/-- READ_CHUNKED (R174). -/
def readChunked (X : List Nat) (lim : Nat) (s : State) : Run (List Byte) :=
  if X.length > 0 ∧ lim = 0 then (.error (.argument .chunkZero 0), s) else readChunks (chunks X lim) [] s

/-- WRITE_CHUNKED (R175). -/
def writeChunked (X : List Nat) (P : List Byte) (lim : Nat) (s : State) : Run Unit :=
  if X.length > 0 ∧ lim = 0 then (.error (.argument .chunkZero 0), s) else writeChunks P (chunks X lim) 0 s

/-! ## NDEF get and set (R177, R179) -/

/-- The number of blocks of a message of `ln` bytes (R173). -/
def messageBlocks (ln : Nat) : Nat := (ln + 15) / 16

/-- The blocks of a message: 1 to `ceil(ln / 16)` (R173). -/
def messageRange (ln : Nat) : List Nat := List.range' 1 (messageBlocks ln)

/-- The zero-padded message of R179. -/
def padded (data : List Byte) : List Byte := data ++ zeros ((16 - data.length % 16) % 16)

/-- NDEF_GET (R177) up to the invalidation. -/
def ndefGetSteps (s : State) : Run (List Byte) :=
  Run.next (getAttr s) fun ab s1 =>
    if messageBlocks ab.ln.toNat > 0 ∧ ab.nbr = 0 then (.error (.argument .chunkZero 0), s1)
    else Run.next (readChunked (messageRange ab.ln.toNat) ab.nbr.toNat s1) fun D s2 =>
      (.ok (D.take ab.ln.toNat), s2)

/-- NDEF_GET (R177, R178). -/
def ndefGet (s : State) : Run (List Byte) := Run.invalidate (ndefGetSteps s)

/-- The writes of NDEF_SET (R179), once block 0 has been read again as `ab`: block 0 with wip true, the data blocks,
block 0 with wip false. -/
def ndefSetWrites (data : List Byte) (ab : AttributeBlock) (s : State) : Run Unit :=
  if data.length > 0 ∧ ab.nbw = 0 then (.error (.argument .chunkZero 0), s)
  else
    Run.next (writeBlocks s.reader.svcWr [0]
      (attrSerialize { ab with wip := true, ln := BitVec.ofNat 24 data.length }) s) fun _ s1 =>
    Run.next (writeChunked (messageRange data.length) (padded data) ab.nbw.toNat s1) fun _ s2 =>
      writeBlocks s2.reader.svcWr [0]
        (attrSerialize { ab with wip := false, ln := BitVec.ofNat 24 data.length }) s2

/-- NDEF_SET (R179) up to the invalidation. The block read again is not checked again. -/
def ndefSetSteps (data : List Byte) (s : State) : Run Unit :=
  Run.next (getAttr s) fun ab s1 =>
    if ab.writeable = false then (.error (.policy .notWriteable 0), s1)
    else if data.length > capacity ab then (.error (.policy .capacity data.length), s1)
    else Run.next (getAttr (s1.setCache none)) fun ab2 s2 => ndefSetWrites data ab2 s2

/-- NDEF_SET (R179, R178). -/
def ndefSet (data : List Byte) (s : State) : Run Unit := Run.invalidate (ndefSetSteps data s)

/-! ## The meanings

A sequence delivers one result record, its own: the records of the host operations that it expands into (R98) are values
that the host uses inside the sequence, and are not among the results that the model lists (DESIGN CHOICE: log 29). -/

/-- GET_ATTR (R171); one record, that of the sequence (log 29). -/
def execGetAttr (s : State) : Host.Outcome State Fault Refusal :=
  match getAttr s with
  | (r, s1) => .next (s1.finish .record r)

/-- READ_CHUNKED (R174); one record, that of the sequence (log 29). -/
def execReadChunked (blocks : List Nat) (limit : Nat) (s : State) : Host.Outcome State Fault Refusal :=
  match readChunked blocks limit s with
  | (r, s1) => .next (s1.finish .bytes r)

/-- WRITE_CHUNKED (R175); one record, that of the sequence (log 29). -/
def execWriteChunked (blocks : List Nat) (data : List Byte) (limit : Nat) (s : State) :
    Host.Outcome State Fault Refusal :=
  match writeChunked blocks data limit s with
  | (r, s1) => .next (s1.finish (fun _ => .unit) r)

/-- NDEF_GET (R177); one record, that of the sequence (log 29). -/
def execNdefGet (s : State) : Host.Outcome State Fault Refusal :=
  match ndefGet s with
  | (r, s1) => .next (s1.finish .bytes r)

/-- NDEF_SET (R179); one record, that of the sequence (log 29). -/
def execNdefSet (data : List Byte) (s : State) : Host.Outcome State Fault Refusal :=
  match ndefSet data s with
  | (r, s1) => .next (s1.finish (fun _ => .unit) r)

end Sys2Proof.Machine
end

