-- ==== Sys2Proof/Machine/Frames.lean ====
section
/-! DEFINITION. The frame kinds (R81, R93) as instructions: the arrival of a frame over the transport.

A command frame travels from reader to tag (R93): wait_command returns it to the emulation host, after the answers that
come before it, and the host takes the turns of its loop (R203). A response frame travels from tag to reader: it is what
Receive returns (R61), now if RE is AWAIT, else later. DESIGN CHOICE: log 5. -/

namespace Sys2Proof.Machine

/-- A frame from its length byte, its code byte and the bytes from offset 2 on (R81). -/
def frameOf (len code : Byte) (rest : List Byte) : List Byte := len :: code :: rest

/-- A command frame arrives at the emulation host (R203): wait_command returns the answers that come before the frame,
each any byte list or `none` (R61), and then the frame. -/
def commandArrives (F : List Byte) (s : State) : State := serveTurns F s.transport.waitScript s

/-- Receive returns `F` to the exchange in flight (R150, R151): the parser that RE.PEND names checks it, against the
block count that RE.PEND holds. -/
def completeExchange (F : List Byte) (s : State) : State :=
  if s.re.pend.code = 0x07 then
    ((s.endAwait).logWire (.received s.re.pend.t.toNat (some F))).finish .bytes (parseReadRsp s F s.re.pend.n.toNat)
  else
    ((s.endAwait).logWire (.received s.re.pend.t.toNat (some F))).finish (fun _ => .unit) (parseWriteRsp s F)

/-- A response frame arrives at the reader. With no exchange in flight it waits behind the answers that are waiting:
over an external transport the Receives to come return them in order; over a loopback no Receive reads them, since
Receive returns ED's response there (DESIGN CHOICE: logs 5 and 7). -/
def responseArrives (F : List Byte) (s : State) : State :=
  match s.re.phase with
  | .await => completeExchange F s
  | .idle => s.setTransport { s.transport with recvScript := s.transport.recvScript ++ [some F] }

/-- The Polling command (R82), handled by R196. -/
def execPollingCmd (len : Byte) (rest : List Byte) (s : State) : Host.Outcome State Fault Refusal :=
  .next (commandArrives (frameOf len 0x00 rest) s)

/-- The Request Response command (R84), handled by R197. -/
def execRequestResponseCmd (len : Byte) (rest : List Byte) (s : State) : Host.Outcome State Fault Refusal :=
  .next (commandArrives (frameOf len 0x04 rest) s)

/-- The Read Without Encryption command (R85), handled by R217. -/
def execReadWoEncCmd (len : Byte) (rest : List Byte) (s : State) : Host.Outcome State Fault Refusal :=
  .next (commandArrives (frameOf len 0x06 rest) s)

/-- The Write Without Encryption command (R88), handled by R219. -/
def execWriteWoEncCmd (len : Byte) (rest : List Byte) (s : State) : Host.Outcome State Fault Refusal :=
  .next (commandArrives (frameOf len 0x08 rest) s)

/-- The Request System Code command (R90), handled by R198. -/
def execRequestSystemCodeCmd (len : Byte) (rest : List Byte) (s : State) : Host.Outcome State Fault Refusal :=
  .next (commandArrives (frameOf len 0x0C rest) s)

/-- The Polling response (R83). -/
def execPollingRsp (len : Byte) (rest : List Byte) (s : State) : Host.Outcome State Fault Refusal :=
  .next (responseArrives (frameOf len 0x01 rest) s)

/-- The Request Response response (R84). -/
def execRequestResponseRsp (len : Byte) (rest : List Byte) (s : State) : Host.Outcome State Fault Refusal :=
  .next (responseArrives (frameOf len 0x05 rest) s)

/-- The Read Without Encryption response (R87), parsed by R147. -/
def execReadWoEncRsp (len : Byte) (rest : List Byte) (s : State) : Host.Outcome State Fault Refusal :=
  .next (responseArrives (frameOf len 0x07 rest) s)

/-- The Write Without Encryption response (R89), parsed by R148. -/
def execWriteWoEncRsp (len : Byte) (rest : List Byte) (s : State) : Host.Outcome State Fault Refusal :=
  .next (responseArrives (frameOf len 0x09 rest) s)

/-- The Request System Code response (R90). -/
def execRequestSystemCodeRsp (len : Byte) (rest : List Byte) (s : State) : Host.Outcome State Fault Refusal :=
  .next (responseArrives (frameOf len 0x0D rest) s)

end Sys2Proof.Machine
end

