-- ==== Sys2Proof/Machine/Dispatch.lean ====
section
/-! DEFINITION. The meaning of each instruction: one arm per constructor. -/

namespace Sys2Proof.Machine

/-- What an instruction does. -/
def exec (i : Instr) (s : State) : Host.Outcome State Fault Refusal :=
  match i with
  | .loadTag idm pmm => Sys2Proof.Machine.execLoadTag idm pmm s
  | .timeoutRd n => Sys2Proof.Machine.execTimeoutRd n s
  | .timeoutWr n => Sys2Proof.Machine.execTimeoutWr n s
  | .serRead svc blocks => Sys2Proof.Machine.execSerRead svc blocks s
  | .serWrite svc blocks data => Sys2Proof.Machine.execSerWrite svc blocks data s
  | .parseReadRsp frame n => Sys2Proof.Machine.execParseReadRsp frame n s
  | .parseWriteRsp frame => Sys2Proof.Machine.execParseWriteRsp frame s
  | .readBlocks svc blocks => Sys2Proof.Machine.execReadBlocks svc blocks s
  | .writeBlocks svc blocks data => Sys2Proof.Machine.execWriteBlocks svc blocks data s
  | .attrParse b => Sys2Proof.Machine.execAttrParse b s
  | .attrSerialize ab => Sys2Proof.Machine.execAttrSerialize ab s
  | .attrCheck b => Sys2Proof.Machine.execAttrCheck b s
  | .loadIdentity idm pmm sys => Sys2Proof.Machine.execLoadIdentity idm pmm sys s
  | .registerService code rd wr => Sys2Proof.Machine.execRegisterService code rd wr s
  | .dispatch frame => Sys2Proof.Machine.execDispatch frame s
  | .getAttr => Sys2Proof.Machine.execGetAttr s
  | .readChunked blocks limit => Sys2Proof.Machine.execReadChunked blocks limit s
  | .writeChunked blocks data limit => Sys2Proof.Machine.execWriteChunked blocks data limit s
  | .ndefGet => Sys2Proof.Machine.execNdefGet s
  | .ndefSet data => Sys2Proof.Machine.execNdefSet data s
  | .pollingCmd len rest => Sys2Proof.Machine.execPollingCmd len rest s
  | .pollingRsp len rest => Sys2Proof.Machine.execPollingRsp len rest s
  | .requestResponseCmd len rest => Sys2Proof.Machine.execRequestResponseCmd len rest s
  | .requestResponseRsp len rest => Sys2Proof.Machine.execRequestResponseRsp len rest s
  | .readWoEncCmd len rest => Sys2Proof.Machine.execReadWoEncCmd len rest s
  | .readWoEncRsp len rest => Sys2Proof.Machine.execReadWoEncRsp len rest s
  | .writeWoEncCmd len rest => Sys2Proof.Machine.execWriteWoEncCmd len rest s
  | .writeWoEncRsp len rest => Sys2Proof.Machine.execWriteWoEncRsp len rest s
  | .requestSystemCodeCmd len rest => Sys2Proof.Machine.execRequestSystemCodeCmd len rest s
  | .requestSystemCodeRsp len rest => Sys2Proof.Machine.execRequestSystemCodeRsp len rest s

end Sys2Proof.Machine
end

