-- ==== Sys2Proof/Machine/Step.lean ====
section
/-! DEFINITION. One step of the machine: the next operation of the host's program (R8, R29). -/

namespace Sys2Proof.Machine

/-- How a step refuses an item that decodes to no instruction. -/
def refusalOf : DecodeError → Refusal
  | .noSuchOperation selector => .noSuchOperation selector
  | .truncated => .truncatedItem
  | .illFormed => .illFormedItem
  | .trailing => .trailingBytes

/-- What a step answers when the host has no further operation (R29, R264). -/
def atProgramEnd (s : State) : Host.Outcome State Fault Refusal :=
  match s.re.phase, s.ed.phase with
  | .idle, .idle => .refused .programEnd
  | _, _ => .fault .endedInExchange

/-- One step: the operation at the program index runs, and the index advances by one (R29). -/
def step (s : State) : Host.Outcome State Fault Refusal :=
  match fetchItem s with
  | none => atProgramEnd s
  | some item =>
    match decode item with
    | .error e => .refused (refusalOf e)
    | .ok i =>
      match exec i s with
      | .next t => .next t.advance
      | .fault r => .fault r
      | .refused r => .refused r

/-- `s` with the instruction whose bits are `w` (`wordItem`) as the operation at its program index. -/
def State.withFetchWord (s : State) (nbits w : Nat) : State :=
  s.setProgram (putItem s.program s.index (wordItem nbits w))

end Sys2Proof.Machine
end

