-- ==== Sys2Proof/Safety.lean ====
section
/-! DEFINITION. What counts as a good state between two host operations, in the terms the statements use. -/

namespace Sys2Proof.Machine

/-- Both units are IDLE: where a run may end (R264). -/
abbrev State.unitsIdle (s : State) : Prop := s.re.phase = .idle ∧ s.ed.phase = .idle

/-- RE.IDM and RE.PMM are both loaded or both UNLOADED (R40). -/
abbrev State.tagPaired (s : State) : Prop := s.re.idm.isSome = s.re.pmm.isSome

/-- ED.IDM, ED.PMM and ED.SYS are all loaded or all UNLOADED (R40). -/
abbrev State.identityPaired (s : State) : Prop :=
  s.ed.idm.isSome = s.ed.pmm.isSome ∧ s.ed.idm.isSome = s.ed.sys.isSome

/-- The working registers keep within their widths (R28, R30). -/
abbrev Work.fits (w : Work) : Prop :=
  w.cur ≤ 255 ∧ w.sl.length ≤ 255 ∧ w.bl.length ≤ 255 ∧ (∀ c ∈ w.tot, c.2 ≤ 255) ∧ (∀ c ∈ w.rem, c.2 ≤ 255) ∧
    w.i ≤ 254 ∧ w.data.length ≤ 240

/-- A good state: both units idle, each identity wholly loaded or wholly UNLOADED, ED.SVC and the block store in
their canonical forms, the working registers within their widths. -/
structure State.Good (s : State) : Prop where
  idle : s.unitsIdle
  tag : s.tagPaired
  identity : s.identityPaired
  services : SvcTable.sorted s.ed.svc
  store : Memory.wf s.app.mem
  work : s.ed.work.fits

end Sys2Proof.Machine
end

