-- ==== Sys2Proof/Certificates/Slice0/Obligations.lean ====
section
/-! DEFINITION. The statements for the provers, and the terms they use. A term is written from the spec's rule and,
where it can be, not by the model's own function. -/

namespace Sys2Proof.Claims

open Machine

/-! ## Terms: bytes and frames -/

/-- Byte `k` of a byte list as a number. -/
def num (l : List Byte) (k : Nat) : Nat := (byteAt l k).toNat

/-- The byte of a number below 256. -/
def byte (n : Nat) : Byte := BitVec.ofNat 8 n

/-- `le16` (R11) by numbers. -/
def lowHigh (v : BitVec 16) : List Byte := [byte v.toNat, byte (v.toNat / 256)]

/-- The sum of bytes 0 to 13 (R110). -/
def sum14 (B : List Byte) : Nat := ((List.range 14).map (num B)).sum

/-- `T(p, n)` (R130). -/
def timeoutMs (p : Byte) (n : Nat) : Nat :=
  ((p.toNat % 8 + 1) + (p.toNat / 8 % 8 + 1) * n) * 302 * 4 ^ (p.toNat / 64) / 1000 + 5

/-- `enc(b)` (R141). -/
def entryOf (b : Nat) : List Byte := if b < 256 then [0x80, byte b] else [0x00, byte b, byte (b / 256)]

/-- A frame whose bytes after the length byte are `body` (R52). -/
def withLength (body : List Byte) : List Byte := byte (body.length + 1) :: body

/-- The request frame of R143. -/
def readRequest (idm : Bytes 8) (svc : Svc) (blocks : List Nat) : List Byte :=
  withLength ([0x06] ++ idm.val ++ [0x01] ++ lowHigh svc ++ [byte blocks.length] ++ blocks.flatMap entryOf)

/-- The request frame of R144. -/
def writeRequest (idm : Bytes 8) (svc : Svc) (blocks : List Nat) (data : List Byte) : List Byte :=
  withLength ([0x08] ++ idm.val ++ [0x01] ++ lowHigh svc ++ [byte blocks.length] ++ blocks.flatMap entryOf ++ data)

/-- A write of the blocks `C` fits a frame (R144: FRAME_LEN). -/
def WriteFits (C : List Nat) : Prop := 14 + (C.flatMap entryOf).length + 16 * C.length ≤ 255

/-- The success form of R87. -/
def readResponse (idm : Bytes 8) (n : Nat) (payload : List Byte) : List Byte :=
  [byte (13 + 16 * n), 0x07] ++ idm.val ++ [0x00, 0x00, byte n] ++ payload

/-- The success form of R89. -/
def writeResponse (idm : Bytes 8) : List Byte := [12, 0x09] ++ idm.val ++ [0x00, 0x00]

/-- An error response: the response code, the identifier, the status bytes (R87, R89). -/
def statusResponse (idm : Bytes 8) (rc : Byte) (st : List Byte) : List Byte :=
  [byte (10 + st.length), rc] ++ idm.val ++ st

/-- `1 << (I mod 8)` (R216). -/
def positionByte (i : Nat) : Byte := byte (2 ^ (i % 8))

/-! ## Terms: states -/

/-- RE is idle and loaded, and the transport goes outside. -/
structure ReaderReady (s : State) (idm pmm : Bytes 8) : Prop where
  idle : s.re.phase = .idle
  tag : s.re.idm = some idm
  timing : s.re.pmm = some pmm
  link : s.transport.link = .external

/-- `t` differs from `s` at most in RE.PEND, the reader-side host and the transport. -/
structure ReaderOnly (s t : State) : Prop where
  idm : t.re.idm = s.re.idm
  pmm : t.re.pmm = s.re.pmm
  phase : t.re.phase = s.re.phase
  ed : t.ed = s.ed
  emulator : t.emulator = s.emulator
  app : t.app = s.app
  program : t.program = s.program
  index : t.index = s.index

/-- The call of send_response that the host makes after a DISPATCH that ends with `r` (R37): with the frame of a Respond,
none after a Drop or an Err. -/
def sentAfter : HostResult → List WireEvent
  | .respond g _ => [.response g]
  | .drop _ _ => []
  | .ok _ => []
  | .err _ => []

/-- The state after a DISPATCH that leaves the working registers `w` and the application `a` and ends with `r`: the record
is delivered, and the host has made the call of `sentAfter`, which changes nothing else of the transport (log 28). -/
def afterDispatch (s : State) (w : Work) (a : App) (r : HostResult) : State :=
  { s with
    ed := { s.ed with work := w }
    app := a
    emulator := { results := s.emulator.results ++ [r] }
    transport := { s.transport with log := s.transport.log ++ sentAfter r } }

/-- The state after a DISPATCH that reads no list and calls no callback. -/
def afterPlain (s : State) (r : HostResult) : State :=
  afterDispatch s Work.cleared { s.app with calls := [] } r

/-- An address lies in a block of the store. -/
def inBlock (bank blk : BitVec 16) (a : Nat) : Prop := blockAddr bank blk ≤ a ∧ a < blockAddr bank blk + 16

/-! ## Terms: transfers in chunks -/

/-- The answers of a tag that serves a read of each chunk with the next blocks of `D`. -/
def readReplies (idm : Bytes 8) : List (List Nat) → List Byte → List (Option (List Byte))
  | [], _ => []
  | C :: Cs, D =>
    some (readResponse idm C.length (D.take (16 * C.length))) :: readReplies idm Cs (D.drop (16 * C.length))

/-- The transport calls of those reads: one exchange per chunk (R174), each with its own timeout (R134). -/
def readLog (idm pmm : Bytes 8) (svc : Svc) : List (List Nat) → List Byte → List WireEvent
  | [], _ => []
  | C :: Cs, D =>
    .sent (readRequest idm svc C) true ::
      .received (timeoutMs (byteAt pmm.val 5) C.length)
        (some (readResponse idm C.length (D.take (16 * C.length)))) ::
      readLog idm pmm svc Cs (D.drop (16 * C.length))

/-- Each chunk with its part of the data. -/
def splitData : List (List Nat) → List Byte → List (List Nat × List Byte)
  | [], _ => []
  | C :: Cs, P => (C, P.take (16 * C.length)) :: splitData Cs (P.drop (16 * C.length))

/-- Each chunk with its slice of the data, from `k` blocks on (R175); a slice that runs past the end of the data is a free
value (log 24). -/
def chunkWrites (P : List Byte) : List (List Nat) → Nat → List (List Nat × List Byte)
  | [], _ => []
  | C :: Cs, k =>
    (C, if 16 * (k + C.length) ≤ P.length then (P.drop (16 * k)).take (16 * C.length)
        else Config.freeSlice P (16 * k) (16 * (k + C.length))) :: chunkWrites P Cs (k + C.length)

/-- The transport calls of writes that a tag takes, each of some blocks with their data and with its own timeout. -/
def writeLog (idm pmm : Bytes 8) (svc : Svc) : List (List Nat × List Byte) → List WireEvent
  | [] => []
  | w :: ws =>
    .sent (writeRequest idm svc w.1 w.2) true ::
      .received (timeoutMs (byteAt pmm.val 6) w.1.length) (some (writeResponse idm)) :: writeLog idm pmm svc ws

/-- The reads GET_ATTR makes: none when CACHE is full, one of block 0 when it is empty (R171). -/
def attrReads (cache : Option AttributeBlock) : List (List Nat) := if cache.isSome then [] else [[0]]

/-- The blocks of a message of `ln` bytes (R173). -/
def blocksOfMessage (ln : Nat) : List Nat := List.range' 1 ((ln + 15) / 16)

/-- A message padded with zeros to whole blocks (R179). -/
def paddedMessage (data : List Byte) : List Byte :=
  data ++ List.replicate (16 * ((data.length + 15) / 16) - data.length) 0

/-! ## Terms: exchanges that fail, and how a sequence ends -/

/-- SER_READ takes the blocks `C` (R143). -/
structure ReadSound (C : List Nat) : Prop where
  some : 1 ≤ C.length
  most : C.length ≤ 15
  range : ∀ x ∈ C, x ≤ 0xFFFF

/-- SER_WRITE takes the blocks `C` with `data` (R144). -/
structure WriteSound (C : List Nat) (data : List Byte) : Prop where
  some : 1 ≤ C.length
  range : ∀ x ∈ C, x ≤ 0xFFFF
  whole : data.length = 16 * C.length
  fits : WriteFits C

/-- A READ_BLOCKS of `C` ends with an error (R145, R150): with the serializer's, before any call; or Send fails; or
Receive returns none; or PARSE_READ_RSP refuses what Receive returns. Its indices: the error, the answers of Send and of
Receive that it takes, and the transport calls it makes. -/
inductive ReadFails (s : State) (idm pmm : Bytes 8) (svc : Svc) (C : List Nat) :
    Err → List Bool → List (Option (List Byte)) → List WireEvent → Prop
  | serializer (e : Err) : exec (.serRead svc C) s = .next (s.reply (.err e)) → ReadFails s idm pmm svc C e [] [] []
  | sendFail : ReadSound C →
    ReadFails s idm pmm svc C (.transport .sendFail) [false] [] [.sent (readRequest idm svc C) false]
  | noResponse : ReadSound C → ReadFails s idm pmm svc C (.transport .noResponse) [true] [none]
      [.sent (readRequest idm svc C) true, .received (timeoutMs (byteAt pmm.val 5) C.length) none]
  | response (r : List Byte) (e : Err) : ReadSound C →
    exec (.parseReadRsp r C.length) s = .next (s.reply (.err e)) → ReadFails s idm pmm svc C e [true] [some r]
      [.sent (readRequest idm svc C) true, .received (timeoutMs (byteAt pmm.val 5) C.length) (some r)]

/-- A WRITE_BLOCKS ends with an error (R145, R151), as `ReadFails`. -/
inductive WriteFails (s : State) (idm pmm : Bytes 8) (svc : Svc) (C : List Nat) (data : List Byte) :
    Err → List Bool → List (Option (List Byte)) → List WireEvent → Prop
  | serializer (e : Err) : exec (.serWrite svc C data) s = .next (s.reply (.err e)) →
    WriteFails s idm pmm svc C data e [] [] []
  | sendFail : WriteSound C data →
    WriteFails s idm pmm svc C data (.transport .sendFail) [false] [] [.sent (writeRequest idm svc C data) false]
  | noResponse : WriteSound C data → WriteFails s idm pmm svc C data (.transport .noResponse) [true] [none]
      [.sent (writeRequest idm svc C data) true, .received (timeoutMs (byteAt pmm.val 6) C.length) none]
  | response (r : List Byte) (e : Err) : WriteSound C data →
    exec (.parseWriteRsp r) s = .next (s.reply (.err e)) → WriteFails s idm pmm svc C data e [true] [some r]
      [.sent (writeRequest idm svc C data) true, .received (timeoutMs (byteAt pmm.val 6) C.length) (some r)]

/-- A GET_ATTR with CACHE empty ends with an error (R171): that of its read of block 0, or ChecksumError. -/
inductive AttrFails (s : State) (idm pmm : Bytes 8) :
    Err → List Bool → List (Option (List Byte)) → List WireEvent → Prop
  | read (e : Err) (sends : List Bool) (answers : List (Option (List Byte))) (calls : List WireEvent) :
    ReadFails s idm pmm s.reader.svcRd [0] e sends answers calls → AttrFails s idm pmm e sends answers calls
  | checksum (B : Block) : attrValid B.val = false →
    AttrFails s idm pmm (.checksum (num B.val 14 * 256 + num B.val 15) (sum14 B.val)) [true]
      [some (readResponse idm 1 B.val)] (readLog idm pmm s.reader.svcRd [[0]] B.val)

/-- An instruction of the reader side ends with the record `r`: CACHE is then `c`, the transport has answered up to `sq`
and `rq` and has had the calls `calls` and no other, and nothing else has changed but RE.PEND. -/
def Ends (i : Instr) (s : State) (c : Option AttributeBlock) (sq : List Bool) (rq : List (Option (List Byte)))
    (calls : List WireEvent) (r : HostResult) : Prop :=
  ∃ t, exec i s = .next t ∧ ReaderOnly s t ∧
    t.reader = { s.reader with cache := c, results := s.reader.results ++ [r] } ∧
    t.transport = { s.transport with sendScript := sq, recvScript := rq, log := s.transport.log ++ calls }

/-- What the first GET_ATTR of a sequence answers: CACHE, or the record of block 0, `B`. -/
def firstAttr (s : State) (B : Block) : AttributeBlock := s.reader.cache.getD (attrRecord B.val)

/-- The first GET_ATTR of a sequence succeeds when the tag's block 0 is `B`. -/
structure AttrReady (s : State) (idm pmm : Bytes 8) (B : Block) : Prop where
  ready : ReaderReady s idm pmm
  valid : s.reader.cache = none → attrValid B.val = true

/-- NDEF_SET of `data` passes its checks (R179). -/
structure SetAllowed (data : List Byte) (s : State) (idm pmm : Bytes 8) (B : Block) : Prop where
  attr : AttrReady s idm pmm B
  writeable : (firstAttr s B).writeable = true
  capacity : data.length ≤ 16 * (firstAttr s B).nmaxb.toNat

/-- The writes of NDEF_SET (R179), when block 0 is read again as `ab`: block 0 with wip true, the padded message in chunks
of nbw from block 1 on, block 0 with wip false. -/
def setWrites (data : List Byte) (ab : AttributeBlock) : List (List Nat × List Byte) :=
  ([0], attrSerialize { ab with wip := true, ln := BitVec.ofNat 24 data.length }) ::
    (splitData (chunks (blocksOfMessage data.length) ab.nbw.toNat) (paddedMessage data) ++
      [([0], attrSerialize { ab with wip := false, ln := BitVec.ofNat 24 data.length })])

/-! ## Terms: inbound Read and Write Without Encryption commands -/

/-- A block-list entry on the wire (R86): the header `e.1`, then the block number `e.2` in the form its bit 7 says. -/
def entryWire (e : Byte × BitVec 16) : List Byte :=
  if e.1.toNat / 128 = 1 then [e.1, byte e.2.toNat] else e.1 :: lowHigh e.2

/-- The service list and the block list on the wire (R85). -/
def listsWire (svcs : List Svc) (entries : List (Byte × BitVec 16)) : List Byte :=
  [byte svcs.length] ++ svcs.flatMap lowHigh ++ [byte entries.length] ++ entries.flatMap entryWire

/-- A command frame that carries an identifier (R81). -/
def commandFrame (code : Byte) (idm : Bytes 8) (body : List Byte) : List Byte :=
  withLength (code :: (idm.val ++ body))

/-- An entry that a list of `ns` services can hold: its service index lies in the list (R213), and a short form has a
number below 256 (R86). -/
def EntryOk (ns : Nat) (e : Byte × BitVec 16) : Prop :=
  e.1.toNat % 16 < ns ∧ (e.1.toNat / 128 = 1 → e.2.toNat < 256)

/-- Every service is registered and every entry is sound. -/
structure ListsOk (table : SvcTable) (svcs : List Svc) (entries : List (Byte × BitVec 16)) : Prop where
  services : ∀ c ∈ svcs, (lookupService table c).isSome
  entries : ∀ e ∈ entries, EntryOk svcs.length e

/-- The bytes after the identifier end before a field that the lists need (R211): before NS; inside the service list, the
codes before registered (R212); before NB; or inside the block list, the entries before sound, in front of a header or
after a header whose index is sound, before the last of its block-number bytes (R213). -/
inductive CutShort (table : SvcTable) : List Byte → Prop
  | serviceCount : CutShort table []
  | service (ns : Nat) (svcs : List Svc) (tail : List Byte) : svcs.length < ns → ns ≤ 255 →
    (∀ c ∈ svcs, (lookupService table c).isSome) → tail.length < 2 →
    CutShort table (byte ns :: (svcs.flatMap lowHigh ++ tail))
  | blockCount (svcs : List Svc) : svcs.length ≤ 255 → (∀ c ∈ svcs, (lookupService table c).isSome) →
    CutShort table (byte svcs.length :: svcs.flatMap lowHigh)
  | header (svcs : List Svc) (nb : Nat) (entries : List (Byte × BitVec 16)) : svcs.length ≤ 255 →
    entries.length < nb → nb ≤ 255 → ListsOk table svcs entries →
    CutShort table (byte svcs.length :: (svcs.flatMap lowHigh ++ byte nb :: entries.flatMap entryWire))
  | number (svcs : List Svc) (nb : Nat) (entries : List (Byte × BitVec 16)) (h : Byte) (tail : List Byte) :
    svcs.length ≤ 255 → entries.length < nb → nb ≤ 255 → ListsOk table svcs entries →
    h.toNat % 16 < svcs.length → tail.length < (if h.toNat / 128 = 1 then 1 else 2) →
    CutShort table (byte svcs.length :: (svcs.flatMap lowHigh ++ byte nb :: (entries.flatMap entryWire ++ h :: tail)))

/-- The block list with each entry resolved to its service code (R28 BL, R213). -/
def resolved (svcs : List Svc) (entries : List (Byte × BitVec 16)) : List (Svc × BitVec 16) :=
  entries.map fun e => (svcs.getD (e.1.toNat % 16) 0, e.2)

/-- The entries with their markers (R215): begin on the first entry of its service, end on the last. -/
def marked (bl : List (Svc × BitVec 16)) : List (Svc × BitVec 16 × Bool × Bool) :=
  bl.zipIdx.map fun x =>
    (x.1.1, x.1.2, !(bl.take x.2).any (fun f => f.1 == x.1.1), !(bl.drop (x.2 + 1)).any (fun f => f.1 == x.1.1))

/-- Service, block number and markers of a callback call. -/
def callKey : CallbackCall → Svc × BitVec 16 × Bool × Bool
  | .read svc _ blk first last _ _ => (svc, blk, first, last)
  | .write svc _ blk _ first last _ _ => (svc, blk, first, last)

/-- What the operations got that the callback of a call tried to issue to ED (R244). -/
def callReentries : CallbackCall → List (Option Err)
  | .read _ _ _ _ _ _ re => re
  | .write _ _ _ _ _ _ _ re => re

/-- The data a callback call was given. -/
def callData : CallbackCall → List Byte
  | .read _ _ _ _ _ _ _ => []
  | .write _ _ _ data _ _ _ _ => data

/-- ED is idle with an identity. -/
structure EdReady (s : State) (idm : Bytes 8) : Prop where
  idle : s.ed.phase = .idle
  identity : s.ed.idm = some idm

/-- The store an entry's read callback reads, when it reads the store and holds the block. -/
def readBank (s : State) (e : Svc × BitVec 16) : Option (BitVec 16) :=
  match lookupService s.ed.svc e.1 with
  | some { rd := .store bank size, .. } => if e.2.toNat < size then some bank else none
  | _ => none

/-- The store an entry's write callback writes, when it writes the store and holds the block. -/
def writeBank (s : State) (e : Svc × BitVec 16) : Option (BitVec 16) :=
  match lookupService s.ed.svc e.1 with
  | some { wr := .store bank size, .. } => if e.2.toNat < size then some bank else none
  | _ => none

/-- An entry's callback answers from the store, and does not hold the block. -/
def readMisses (s : State) (e : Svc × BitVec 16) : Prop :=
  ∃ bank size wr, lookupService s.ed.svc e.1 = some { rd := .store bank size, wr := wr } ∧ size ≤ e.2.toNat

/-- An entry's write callback fails: a store without the block, or a read-only service (R192). -/
def writeFails (s : State) (e : Svc × BitVec 16) : Prop :=
  (∃ bank size rd, lookupService s.ed.svc e.1 = some { rd := rd, wr := .store bank size } ∧ size ≤ e.2.toNat) ∨
    ∃ rd, lookupService s.ed.svc e.1 = some { rd := rd, wr := .readOnly }

/-- The block an entry reads. -/
def blockOf (s : State) (e : Svc × BitVec 16) : List Byte :=
  match readBank s e with
  | some bank => (Memory.readBlock s.app.mem bank e.2).val
  | none => []

/-- The store after the entries of `bl` have been written with the successive blocks of `data`. -/
def storeAfter (s : State) : List (Svc × BitVec 16) → List Byte → Memory → Memory
  | [], _, m => m
  | e :: bl, data, m =>
    storeAfter s bl (data.drop 16)
      (match writeBank s e with
       | some bank => Memory.writeBlock m bank e.2 (data.take 16)
       | none => m)

/-! ## Terms: instructions by side -/

/-- The instructions of the emulation side. -/
def emulationSide : Instr → Bool
  | .loadIdentity _ _ _ => true
  | .registerService _ _ _ => true
  | .dispatch _ => true
  | .pollingCmd _ _ => true
  | .requestResponseCmd _ _ => true
  | .readWoEncCmd _ _ => true
  | .writeWoEncCmd _ _ => true
  | .requestSystemCodeCmd _ _ => true
  | _ => false

/-- The instructions that make exchanges: READ_BLOCKS, WRITE_BLOCKS and the host sequences, which expand into them (R98). -/
def exchanging : Instr → Bool
  | .readBlocks _ _ => true
  | .writeBlocks _ _ _ => true
  | .getAttr => true
  | .readChunked _ _ => true
  | .writeChunked _ _ _ => true
  | .ndefGet => true
  | .ndefSet _ => true
  | _ => false

/-- The response frames, which end an exchange in flight (log 5). -/
def responseFrame : Instr → Bool
  | .pollingRsp _ _ => true
  | .requestResponseRsp _ _ => true
  | .readWoEncRsp _ _ => true
  | .writeWoEncRsp _ _ => true
  | .requestSystemCodeRsp _ _ => true
  | _ => false

/-- DISPATCH, and the command frames, which are handed to it (R203; log 5). -/
def dispatching : Instr → Bool
  | .dispatch _ => true
  | .pollingCmd _ _ => true
  | .requestResponseCmd _ _ => true
  | .readWoEncCmd _ _ => true
  | .writeWoEncCmd _ _ => true
  | .requestSystemCodeCmd _ _ => true
  | _ => false

end Sys2Proof.Claims

open Sys2Proof Sys2Proof.Machine Sys2Proof.Claims

/-! # The statements -/

/-! ## Attribute codec -/

/-- R111: ATTR_SERIALIZE answers the 16 bytes of the layout, with their checksum, and changes nothing else. -/
def Obligations.AttrSerializeWritesTheLayout : Prop :=
  ∀ (ab : AttributeBlock) (s : State), ∃ B : List Byte,
    exec (.attrSerialize ab) s = .next (s.reply (.ok (.bytes B))) ∧ B.length = 16 ∧
    num B 0 = ab.verMajor.toNat * 16 + ab.verMinor.toNat ∧ byteAt B 1 = ab.nbr ∧ byteAt B 2 = ab.nbw ∧
    num B 3 * 256 + num B 4 = ab.nmaxb.toNat ∧ slice B 5 9 = ab.rsv.val ∧
    byteAt B 9 = (if ab.wip then 0x0F else 0x00) ∧ byteAt B 10 = (if ab.writeable then 0x01 else 0x00) ∧
    num B 11 * 65536 + num B 12 * 256 + num B 13 = ab.ln.toNat ∧ num B 14 * 256 + num B 15 = sum14 B

/-- R112: ATTR_PARSE decodes every field by its offset and reports valid and nonstd; it changes nothing else; the
decoder accepts an operand of 16 bytes and refuses one of any other length. (That the operand bytes of an item are all the
bytes after its selector is the model's choice: log 3.) -/
def Obligations.AttrParseDecodesTheLayout : Prop :=
  (∀ (b : Bytes 16) (s : State), ∃ (ab : AttributeBlock) (valid nonstd : Bool),
    exec (.attrParse b.val) s = .next (s.reply (.ok (.parsed ab valid nonstd))) ∧
    ab.verMajor.toNat = num b.val 0 / 16 ∧ ab.verMinor.toNat = num b.val 0 % 16 ∧
    ab.nbr = byteAt b.val 1 ∧ ab.nbw = byteAt b.val 2 ∧
    ab.nmaxb.toNat = num b.val 3 * 256 + num b.val 4 ∧ ab.rsv.val = slice b.val 5 9 ∧
    (ab.wip = true ↔ byteAt b.val 9 ≠ 0x00) ∧ (ab.writeable = true ↔ byteAt b.val 10 = 0x01) ∧
    ab.ln.toNat = num b.val 11 * 65536 + num b.val 12 * 256 + num b.val 13 ∧
    (valid = true ↔ num b.val 14 * 256 + num b.val 15 = sum14 b.val) ∧
    (nonstd = true ↔ byteAt b.val 9 ∉ [0x00, 0x0F] ∨ byteAt b.val 10 ∉ [0x00, 0x01])) ∧
  (∀ b : Bytes 16, decode (0x30 :: b.val) = .ok (.attrParse b.val)) ∧
  ∀ l : List Byte, l.length ≠ 16 → decode (0x30 :: l) = .error .illFormed ∧
    ∀ s : State, s.program[s.index]? = some (0x30 :: l) → step s = .refused .illFormedItem

/-- R114: parsing what was serialized gives the record back, valid and standard; serializing what a valid and
standard block parses to gives the block back. -/
def Obligations.AttrRoundTrip : Prop :=
  (∀ (ab : AttributeBlock) (s : State), ∃ B : Bytes 16,
    exec (.attrSerialize ab) s = .next (s.reply (.ok (.bytes B.val))) ∧
    exec (.attrParse B.val) s = .next (s.reply (.ok (.parsed ab true false)))) ∧
  ∀ (B : Bytes 16) (ab : AttributeBlock) (s : State),
    exec (.attrParse B.val) s = .next (s.reply (.ok (.parsed ab true false))) →
    exec (.attrSerialize ab) s = .next (s.reply (.ok (.bytes B.val)))

/-- R115: a change of one of bytes 0 to 13 makes a valid block invalid; a change of bytes 0 to 13 that leaves their
sum, so any reordering of them, is not detected. -/
def Obligations.ChecksumSensitivity : Prop :=
  (∀ (B : Bytes 16) (k : Nat) (v : Byte) (s : State), attrValid B.val = true → k < 14 → byteAt B.val k ≠ v →
    ∃ (B' : Bytes 16) (ab : AttributeBlock) (nonstd : Bool), B'.val = B.val.set k v ∧
      exec (.attrParse B'.val) s = .next (s.reply (.ok (.parsed ab false nonstd)))) ∧
  (∀ B B' : Bytes 16, attrValid B.val = true → sum14 B'.val = sum14 B.val → B'.val.drop 14 = B.val.drop 14 →
    attrValid B'.val = true) ∧
  ∀ B B' : Bytes 16, attrValid B.val = true → (B'.val.take 14).Perm (B.val.take 14) →
    B'.val.drop 14 = B.val.drop 14 → attrValid B'.val = true

/-- R110, R113: ATTR_CHECK answers whether the stored checksum is the sum of bytes 0 to 13, and changes nothing else;
that sum is at most 3570, and at most 3076 for a serialized block. -/
def Obligations.AttrCheckComparesTheSum : Prop :=
  (∀ (b : Bytes 16) (s : State), ∃ valid : Bool,
    exec (.attrCheck b.val) s = .next (s.reply (.ok (.valid valid))) ∧
    (valid = true ↔ num b.val 14 * 256 + num b.val 15 = sum14 b.val)) ∧
  (∀ b : Bytes 16, sum14 b.val ≤ 3570) ∧
  ∀ (ab : AttributeBlock) (s : State), ∃ B : List Byte,
    exec (.attrSerialize ab) s = .next (s.reply (.ok (.bytes B))) ∧ sum14 B ≤ 3076

/-- R117, R35: the block count for a capacity of C bytes is ceil(C / 16), exact for a multiple of 16, refused above
1048560; every capacity is a multiple of 16 up to 1048560. -/
def Obligations.CapacityInBlocks : Prop :=
  (∀ C : Nat, C ≤ 1048560 → ∃ v : BitVec 16, blocksForCapacity C = some v ∧ v.toNat = (C + 15) / 16 ∧
    C ≤ 16 * v.toNat ∧ (16 * v.toNat = C ↔ C % 16 = 0)) ∧
  (∀ C : Nat, 1048560 < C → blocksForCapacity C = none) ∧
  ∀ ab : AttributeBlock, capacity ab = 16 * ab.nmaxb.toNat ∧ capacity ab ≤ 1048560

/-! ## Timing -/

/-- R130, R131, R132: TIMEOUT_RD and TIMEOUT_WR answer T of the timing byte at offset 5 or 6 of RE.PMM, or
Unconfigured when RE.PMM is UNLOADED; they change nothing else. -/
def Obligations.TimeoutResults : Prop :=
  ∀ (n : Nat) (s : State),
    (s.re.pmm = none →
      exec (.timeoutRd n) s = .next (s.reply (.err (.unconfigured .reTag))) ∧
      exec (.timeoutWr n) s = .next (s.reply (.err (.unconfigured .reTag)))) ∧
    ∀ pmm : Bytes 8, s.re.pmm = some pmm →
      exec (.timeoutRd n) s = .next (s.reply (.ok (.ms (timeoutMs (byteAt pmm.val 5) n)))) ∧
      exec (.timeoutWr n) s = .next (s.reply (.ok (.ms (timeoutMs (byteAt pmm.val 6) n))))

/-- R135, R136: the timeout does not decrease with the block count; its range. -/
def Obligations.TimeoutMonotoneAndBounded : Prop :=
  (∀ (p : Byte) (n : Nat), timeout p n ≤ timeout p (n + 1)) ∧ timeout 0x00 0 = 5 ∧ timeout 0x00 1 = 5 ∧
  (∀ (p : Byte) (n : Nat), n ≤ 255 → 5 ≤ timeout p n ∧ timeout p n ≤ 39588) ∧ timeout 0xFF 255 = 39588 ∧
  (∀ (p : Byte) (n : Nat), n ≤ 15 → timeout p n ≤ 2478) ∧ timeout 0xFF 15 = 2478 ∧
  ∀ (p : Byte) (n : Nat), n ≤ 255 → (BitVec.ofNat 16 (timeout p n)).toNat = timeout p n

/-! ## Reader engine -/

/-- R140: LOAD_TAG loads both registers at once, and is refused while an exchange is in flight. -/
def Obligations.LoadTagLoadsBothRegisters : Prop :=
  ∀ (idm pmm : Bytes 8) (s : State),
    (s.re.phase = .idle → exec (.loadTag idm pmm) s =
      .next { s with re := { s.re with idm := some idm, pmm := some pmm },
                     reader := { s.reader with results := s.reader.results ++ [.ok .unit] } }) ∧
    (s.re.phase = .await → exec (.loadTag idm pmm) s = .next (s.reply (.err .refused)))

/-- R141, R142, R143: SER_READ answers the request frame, or the first of its errors; it changes nothing else. -/
def Obligations.SerReadBuildsTheFrame : Prop :=
  ∀ (svc : Svc) (blocks : List Nat) (s : State),
    (s.re.idm = none → exec (.serRead svc blocks) s = .next (s.reply (.err (.unconfigured .reTag)))) ∧
    ∀ idm : Bytes 8, s.re.idm = some idm →
      (blocks.length < 1 ∨ 15 < blocks.length →
        exec (.serRead svc blocks) s = .next (s.reply (.err (.argument .nblkRange blocks.length)))) ∧
      (1 ≤ blocks.length → blocks.length ≤ 15 →
        (∀ (pre : List Nat) (b : Nat) (post : List Nat), blocks = pre ++ b :: post → (∀ x ∈ pre, x ≤ 0xFFFF) →
          0xFFFF < b → exec (.serRead svc blocks) s = .next (s.reply (.err (.argument .blockRange b)))) ∧
        ((∀ x ∈ blocks, x ≤ 0xFFFF) → (readRequest idm svc blocks).length ≤ 59 ∧
          exec (.serRead svc blocks) s = .next (s.reply (.ok (.bytes (readRequest idm svc blocks))))))

/-- R141, R142, R144: SER_WRITE answers the request frame, or the first of its errors; it changes nothing else. -/
def Obligations.SerWriteBuildsTheFrame : Prop :=
  ∀ (svc : Svc) (blocks : List Nat) (data : List Byte) (s : State),
    (s.re.idm = none → exec (.serWrite svc blocks data) s = .next (s.reply (.err (.unconfigured .reTag)))) ∧
    ∀ idm : Bytes 8, s.re.idm = some idm →
      (data.length ≠ 16 * blocks.length →
        exec (.serWrite svc blocks data) s = .next (s.reply (.err (.argument .dataLen data.length)))) ∧
      (data.length = 16 * blocks.length →
        (blocks = [] → exec (.serWrite svc blocks data) s = .next (s.reply (.err (.argument .nblkRange 0)))) ∧
        (∀ (pre : List Nat) (b : Nat) (post : List Nat), blocks = pre ++ b :: post → (∀ x ∈ pre, x ≤ 0xFFFF) →
          0xFFFF < b →
          exec (.serWrite svc blocks data) s = .next (s.reply (.err (.argument .blockRange b)))) ∧
        (blocks ≠ [] → (∀ x ∈ blocks, x ≤ 0xFFFF) →
          (255 < (writeRequest idm svc blocks data).length →
            exec (.serWrite svc blocks data) s =
              .next (s.reply (.err (.argument .frameLen (writeRequest idm svc blocks data).length)))) ∧
          ((writeRequest idm svc blocks data).length ≤ 255 →
            exec (.serWrite svc blocks data) s =
              .next (s.reply (.ok (.bytes (writeRequest idm svc blocks data)))))))

/-- R146, R149: both response parsers check in the order LEN_BYTE, SHORT, CODE, IDM, status, and report the first
failure with its information; a non-zero status is reported as received. They change nothing else. -/
def Obligations.ResponseCheckOrder : Prop :=
  ∀ (F : List Byte) (n : Nat) (s : State) (rc : Byte) (i : Instr),
    (rc = 0x07 ∧ i = .parseReadRsp F n ∨ rc = 0x09 ∧ i = .parseWriteRsp F) →
    (s.re.idm = none → exec i s = .next (s.reply (.err (.unconfigured .reTag)))) ∧
    ∀ idm : Bytes 8, s.re.idm = some idm →
      (F = [] ∨ num F 0 ≠ F.length → exec i s = .next (s.reply (.err (.framing .lenByte (.num F.length))))) ∧
      (F ≠ [] → num F 0 = F.length →
        (F.length < 12 → exec i s = .next (s.reply (.err (.framing .short (.num F.length))))) ∧
        (12 ≤ F.length →
          (byteAt F 1 ≠ rc → exec i s = .next (s.reply (.err (.framing .code (.num (num F 1)))))) ∧
          (byteAt F 1 = rc →
            (slice F 2 10 ≠ idm.val →
              exec i s = .next (s.reply (.err (.framing .idm (.bytes (slice F 2 10)))))) ∧
            (slice F 2 10 = idm.val → (byteAt F 10 ≠ 0x00 ∨ byteAt F 11 ≠ 0x00) →
              exec i s = .next (s.reply (.err (.command (byteAt F 10) (byteAt F 11))))))))

/-- R87, R147: PARSE_READ_RSP accepts exactly the success response of `n` blocks from the loaded tag; after the common
check it reports SHORT, COUNT and PAYLOAD_LEN in that order. -/
def Obligations.ReadResponseAcceptedExactly : Prop :=
  ∀ (F : List Byte) (n : Nat) (s : State) (idm : Bytes 8), s.re.idm = some idm →
    (∀ p : List Byte, exec (.parseReadRsp F n) s = .next (s.reply (.ok (.bytes p))) ↔
      F = readResponse idm n p ∧ p.length = 16 * n ∧ n ≤ 15) ∧
    (num F 0 = F.length → 12 ≤ F.length → byteAt F 1 = 0x07 → slice F 2 10 = idm.val →
      byteAt F 10 = 0x00 → byteAt F 11 = 0x00 →
      (F.length = 12 → exec (.parseReadRsp F n) s = .next (s.reply (.err (.framing .short (.num 12))))) ∧
      (13 ≤ F.length →
        (num F 12 ≠ n →
          exec (.parseReadRsp F n) s = .next (s.reply (.err (.framing .count (.num (num F 12)))))) ∧
        (num F 12 = n → F.length ≠ 13 + 16 * n →
          exec (.parseReadRsp F n) s = .next (s.reply (.err (.framing .payloadLen (.num F.length)))))))

/-- R89, R148: PARSE_WRITE_RSP accepts exactly the 12-byte success response from the loaded tag; a zero-status
response of another length is PAYLOAD_LEN. -/
def Obligations.WriteResponseAcceptedExactly : Prop :=
  ∀ (F : List Byte) (s : State) (idm : Bytes 8), s.re.idm = some idm →
    (exec (.parseWriteRsp F) s = .next (s.reply (.ok .unit)) ↔ F = writeResponse idm) ∧
    (num F 0 = F.length → 12 < F.length → byteAt F 1 = 0x09 → slice F 2 10 = idm.val → byteAt F 10 = 0x00 →
      byteAt F 11 = 0x00 →
      exec (.parseWriteRsp F) s = .next (s.reply (.err (.framing .payloadLen (.num F.length)))))

/-- R134, R150: READ_BLOCKS with sound operands sends the request once, waits T(TRD, n), and ends with SEND_FAIL,
NO_RESPONSE or what PARSE_READ_RSP makes of the answer, RE idle again; for every answer of the transport. (That the
answers come from scripts and then from free values, and that RE.PEND stays after the exchange, are the model's choice:
logs 6 and 11.) -/
def Obligations.ReadBlocksExchange : Prop :=
  ∀ (svc : Svc) (blocks : List Nat) (s : State) (idm pmm : Bytes 8) (ok : Bool) (tr tr' : Transport)
      (a : Option (List Byte)),
    ReaderReady s idm pmm → 1 ≤ blocks.length → blocks.length ≤ 15 → (∀ x ∈ blocks, x ≤ 0xFFFF) →
    drawSend s.transport = (ok, tr) →
    drawReceive { tr with log := tr.log ++ [WireEvent.sent (readRequest idm svc blocks) true] } = (a, tr') →
    (ok = false → exec (.readBlocks svc blocks) s =
      .next ({ s with transport := { tr with log := tr.log ++ [WireEvent.sent (readRequest idm svc blocks) false] } }.reply
        (.err (.transport .sendFail)))) ∧
    (ok = true → ∀ t : State,
      t = { s with
        re := { s.re with pend := { code := 0x07, n := byte blocks.length,
                                    t := BitVec.ofNat 16 (timeoutMs (byteAt pmm.val 5) blocks.length) } }
        transport := { tr' with log := tr'.log ++ [.received (timeoutMs (byteAt pmm.val 5) blocks.length) a] } } →
      (a = none → exec (.readBlocks svc blocks) s = .next (t.reply (.err (.transport .noResponse)))) ∧
      (∀ r, a = some r → ∃ res, exec (.parseReadRsp r blocks.length) s = .next (s.reply res) ∧
        exec (.readBlocks svc blocks) s = .next (t.reply res)) ∧
      ∀ payload, payload.length = 16 * blocks.length → a = some (readResponse idm blocks.length payload) →
        exec (.readBlocks svc blocks) s = .next (t.reply (.ok (.bytes payload))))

/-- R134, R151: as ReadBlocksExchange, for WRITE_BLOCKS. (Logs 6 and 11.) -/
def Obligations.WriteBlocksExchange : Prop :=
  ∀ (svc : Svc) (blocks : List Nat) (data : List Byte) (s : State) (idm pmm : Bytes 8) (ok : Bool)
      (tr tr' : Transport) (a : Option (List Byte)),
    ReaderReady s idm pmm → blocks ≠ [] → (∀ x ∈ blocks, x ≤ 0xFFFF) → data.length = 16 * blocks.length →
    (writeRequest idm svc blocks data).length ≤ 255 →
    drawSend s.transport = (ok, tr) →
    drawReceive { tr with log := tr.log ++ [WireEvent.sent (writeRequest idm svc blocks data) true] } = (a, tr') →
    (ok = false → exec (.writeBlocks svc blocks data) s =
      .next ({ s with
        transport := { tr with log := tr.log ++ [WireEvent.sent (writeRequest idm svc blocks data) false] } }.reply
        (.err (.transport .sendFail)))) ∧
    (ok = true → ∀ t : State,
      t = { s with
        re := { s.re with pend := { code := 0x09, n := byte blocks.length,
                                    t := BitVec.ofNat 16 (timeoutMs (byteAt pmm.val 6) blocks.length) } }
        transport := { tr' with log := tr'.log ++ [.received (timeoutMs (byteAt pmm.val 6) blocks.length) a] } } →
      (a = none → exec (.writeBlocks svc blocks data) s = .next (t.reply (.err (.transport .noResponse)))) ∧
      (∀ r, a = some r → ∃ res, exec (.parseWriteRsp r) s = .next (s.reply res) ∧
        exec (.writeBlocks svc blocks data) s = .next (t.reply res)) ∧
      (a = some (writeResponse idm) → exec (.writeBlocks svc blocks data) s = .next (t.reply (.ok .unit))))

/-- R145: an exchange that fails with ArgumentError or Unconfigured has made no call to the transport and changed
nothing; and what its serializer raises, it raises. In every state, whatever the transport is wired to. -/
def Obligations.ArgumentErrorsSendNothing : Prop :=
  ∀ (svc : Svc) (blocks : List Nat) (data : List Byte) (s : State) (e : Err),
    ((∃ sub n, e = .argument sub n) ∨ ∃ sub, e = .unconfigured sub) →
    (∀ t, exec (.readBlocks svc blocks) s = .next t → t.reader.results = s.reader.results ++ [.err e] →
      t = s.reply (.err e)) ∧
    (∀ t, exec (.writeBlocks svc blocks data) s = .next t → t.reader.results = s.reader.results ++ [.err e] →
      t = s.reply (.err e)) ∧
    (s.re.phase = .idle →
      (exec (.serRead svc blocks) s = .next (s.reply (.err e)) →
        exec (.readBlocks svc blocks) s = .next (s.reply (.err e))) ∧
      (exec (.serWrite svc blocks data) s = .next (s.reply (.err e)) →
        exec (.writeBlocks svc blocks data) s = .next (s.reply (.err e))))

/-- R152, R239: while RE is AWAIT, LOAD_TAG, READ_BLOCKS and WRITE_BLOCKS are refused; while ED is BUSY, LOAD_IDENTITY,
REGISTER_SERVICE and DISPATCH are; a refused operation changes no register and calls nothing. (That Refused comes before
Unconfigured for an exchange is the model's choice: log 14.) -/
def Obligations.BusyUnitsRefuse : Prop :=
  ∀ (s : State) (i : Instr),
    (s.re.phase = .await →
      ((∃ idm pmm, i = .loadTag idm pmm) ∨ (∃ svc blocks, i = .readBlocks svc blocks) ∨
        ∃ svc blocks data, i = .writeBlocks svc blocks data) →
      exec i s = .next (s.reply (.err .refused))) ∧
    (s.ed.phase = .busy →
      ((∃ idm pmm sys, i = .loadIdentity idm pmm sys) ∨ (∃ code rd wr, i = .registerService code rd wr) ∨
        ∃ F, i = .dispatch F) →
      exec i s = .next (s.replyEmulator (.err .refused)))

/-! ## Host sequences -/

/-- R171: GET_ATTR answers CACHE and sends nothing when it is full; when it is empty it reads block 0 once, fills
CACHE with a block whose checksum holds, and raises ChecksumError otherwise; an error of that read ends it, with CACHE
empty and no later call (R243). (The transport's script is log 6.) -/
def Obligations.GetAttrCachesValidBlocks : Prop :=
  (∀ (s : State) (ab : AttributeBlock), s.reader.cache = some ab →
    exec .getAttr s = .next (s.reply (.ok (.record ab)))) ∧
  ∀ (s : State) (idm pmm : Bytes 8) (sq : List Bool) (rq : List (Option (List Byte))),
    ReaderReady s idm pmm → s.reader.cache = none →
    (∀ B : Block, s.transport.sendScript = true :: sq →
      s.transport.recvScript = some (readResponse idm 1 B.val) :: rq →
      (attrValid B.val = true → Ends .getAttr s (some (attrRecord B.val)) sq rq
        (readLog idm pmm s.reader.svcRd [[0]] B.val) (.ok (.record (attrRecord B.val)))) ∧
      (attrValid B.val = false → Ends .getAttr s none sq rq (readLog idm pmm s.reader.svcRd [[0]] B.val)
        (.err (.checksum (num B.val 14 * 256 + num B.val 15) (sum14 B.val))))) ∧
    ∀ (e : Err) (sends : List Bool) (answers : List (Option (List Byte))) (calls : List WireEvent),
      ReadFails s idm pmm s.reader.svcRd [0] e sends answers calls →
      s.transport.sendScript = sends ++ sq → s.transport.recvScript = answers ++ rq →
      Ends .getAttr s none sq rq calls (.err e)

/-- R172: the chunks of a list put together are the list; each has 1 to Lim elements, every chunk but the last exactly
Lim; there are ceil(len / Lim) of them. -/
def Obligations.ChunksSplitTheList : Prop :=
  ∀ (X : List Nat) (lim : Nat), 1 ≤ lim →
    (chunks X lim).flatten = X ∧ (∀ C ∈ chunks X lim, 1 ≤ C.length ∧ C.length ≤ lim) ∧
    (∀ C ∈ (chunks X lim).dropLast, C.length = lim) ∧ (chunks X lim).length = (X.length + lim - 1) / lim

/-- R174, R175: a chunk limit of 0 with a list that is not empty is CHUNK_ZERO, before any exchange; an empty list
needs no exchange. -/
def Obligations.ChunkLimitZero : Prop :=
  (∀ (X : List Nat) (P : List Byte) (s : State), X ≠ [] →
    exec (.readChunked X 0) s = .next (s.reply (.err (.argument .chunkZero 0))) ∧
    exec (.writeChunked X P 0) s = .next (s.reply (.err (.argument .chunkZero 0)))) ∧
  ∀ (P : List Byte) (lim : Nat) (s : State),
    exec (.readChunked [] lim) s = .next (s.reply (.ok (.bytes []))) ∧
    exec (.writeChunked [] P lim) s = .next (s.reply (.ok .unit))

/-- R174: READ_CHUNKED reads one chunk per exchange, in order, each with its own timeout, and answers the data put
together; ED, the application and the tag registers are untouched. The first chunk whose READ_BLOCKS raises ends it with
that error and no later call (R243). (The transport's script is log 6.) -/
def Obligations.ReadChunkedConcatenates : Prop :=
  ∀ (X : List Nat) (lim : Nat) (D : List Byte) (s : State) (idm pmm : Bytes 8) (sq : List Bool)
      (rq : List (Option (List Byte))),
    ReaderReady s idm pmm → 1 ≤ lim →
    ((∀ C ∈ chunks X lim, C.length ≤ 15) → (∀ x ∈ X, x ≤ 0xFFFF) → D.length = 16 * X.length →
      s.transport.sendScript = List.replicate (chunks X lim).length true ++ sq →
      s.transport.recvScript = readReplies idm (chunks X lim) D ++ rq →
      Ends (.readChunked X lim) s s.reader.cache sq rq (readLog idm pmm s.reader.svcRd (chunks X lim) D)
        (.ok (.bytes D))) ∧
    ∀ (pre post : List (List Nat)) (C : List Nat) (e : Err) (sends : List Bool)
        (answers : List (Option (List Byte))) (calls : List WireEvent),
      chunks X lim = pre ++ C :: post → (∀ c ∈ pre, ReadSound c) → D.length = 16 * pre.flatten.length →
      ReadFails s idm pmm s.reader.svcRd C e sends answers calls →
      s.transport.sendScript = List.replicate pre.length true ++ (sends ++ sq) →
      s.transport.recvScript = readReplies idm pre D ++ (answers ++ rq) →
      Ends (.readChunked X lim) s s.reader.cache sq rq (readLog idm pmm s.reader.svcRd pre D ++ calls) (.err e)

/-- R175: WRITE_CHUNKED writes one chunk per exchange, in order, with the chunk's own slice of the data. The first chunk
whose WRITE_BLOCKS raises ends it with that error and no later call (R243). It runs for data of every length: a slice
inside the data is the data there, and one that runs past its end is a free value, of which nothing is said. (The free
value is log 24, the transport's script log 6.) -/
def Obligations.WriteChunkedWritesInOrder : Prop :=
  ∀ (X : List Nat) (lim : Nat) (P : List Byte) (s : State) (idm pmm : Bytes 8) (sq : List Bool)
      (rq : List (Option (List Byte))),
    ReaderReady s idm pmm → 1 ≤ lim →
    (16 * X.length ≤ P.length → chunkWrites P (chunks X lim) 0 = splitData (chunks X lim) P) ∧
    ((∀ w ∈ chunkWrites P (chunks X lim) 0, WriteSound w.1 w.2) →
      s.transport.sendScript = List.replicate (chunks X lim).length true ++ sq →
      s.transport.recvScript = List.replicate (chunks X lim).length (some (writeResponse idm)) ++ rq →
      Ends (.writeChunked X P lim) s s.reader.cache sq rq
        (writeLog idm pmm s.reader.svcWr (chunkWrites P (chunks X lim) 0)) (.ok .unit)) ∧
    ∀ (pre post : List (List Nat × List Byte)) (w : List Nat × List Byte) (e : Err) (sends : List Bool)
        (answers : List (Option (List Byte))) (calls : List WireEvent),
      chunkWrites P (chunks X lim) 0 = pre ++ w :: post → (∀ v ∈ pre, WriteSound v.1 v.2) →
      WriteFails s idm pmm s.reader.svcWr w.1 w.2 e sends answers calls →
      s.transport.sendScript = List.replicate pre.length true ++ (sends ++ sq) →
      s.transport.recvScript = List.replicate pre.length (some (writeResponse idm)) ++ (answers ++ rq) →
      Ends (.writeChunked X P lim) s s.reader.cache sq rq (writeLog idm pmm s.reader.svcWr pre ++ calls) (.err e)

/-- R173, R177, R178: NDEF_GET reads block 0 when CACHE is empty, then the blocks of the message in chunks of nbr, and
answers the first ln bytes. It ends with the first error of GET_ATTR or of a chunk's READ_BLOCKS and no later call (R243),
and with CHUNK_ZERO before any message block is read when nbr is 0 and the message is not empty. CACHE is empty however
it ends. (Log 6.) -/
def Obligations.NdefGetReturnsTheMessage : Prop :=
  ∀ (s : State) (idm pmm : Bytes 8) (sq : List Bool) (rq : List (Option (List Byte))),
    (ReaderReady s idm pmm → s.reader.cache = none →
      ∀ (e : Err) (sends : List Bool) (answers : List (Option (List Byte))) (calls : List WireEvent),
        AttrFails s idm pmm e sends answers calls → s.transport.sendScript = sends ++ sq →
        s.transport.recvScript = answers ++ rq → Ends .ndefGet s none sq rq calls (.err e)) ∧
    ∀ (B : Block) (ab : AttributeBlock) (first : List (List Nat)) (Cs : List (List Nat)) (D : List Byte),
      AttrReady s idm pmm B → ab = firstAttr s B → first = attrReads s.reader.cache →
      Cs = chunks (blocksOfMessage ab.ln.toNat) ab.nbr.toNat →
      (ab.ln.toNat ≠ 0 → ab.nbr = 0 →
        s.transport.sendScript = List.replicate first.length true ++ sq →
        s.transport.recvScript = readReplies idm first B.val ++ rq →
        Ends .ndefGet s none sq rq (readLog idm pmm s.reader.svcRd first B.val) (.err (.argument .chunkZero 0))) ∧
      ((ab.ln.toNat = 0 ∨ 1 ≤ ab.nbr.toNat) →
        ((∀ C ∈ Cs, ReadSound C) → D.length = 16 * ((ab.ln.toNat + 15) / 16) →
          s.transport.sendScript = List.replicate (first.length + Cs.length) true ++ sq →
          s.transport.recvScript = readReplies idm first B.val ++ (readReplies idm Cs D ++ rq) →
          Ends .ndefGet s none sq rq
            (readLog idm pmm s.reader.svcRd first B.val ++ readLog idm pmm s.reader.svcRd Cs D)
            (.ok (.bytes (D.take ab.ln.toNat)))) ∧
        ∀ (pre post : List (List Nat)) (C : List Nat) (e : Err) (sends : List Bool)
            (answers : List (Option (List Byte))) (calls : List WireEvent),
          Cs = pre ++ C :: post → (∀ c ∈ pre, ReadSound c) → D.length = 16 * pre.flatten.length →
          ReadFails s idm pmm s.reader.svcRd C e sends answers calls →
          s.transport.sendScript = List.replicate (first.length + pre.length) true ++ (sends ++ sq) →
          s.transport.recvScript = readReplies idm first B.val ++ (readReplies idm pre D ++ (answers ++ rq)) →
          Ends .ndefGet s none sq rq
            (readLog idm pmm s.reader.svcRd first B.val ++ (readLog idm pmm s.reader.svcRd pre D ++ calls)) (.err e))

/-- R176, R179, R180, R181, R258: NDEF_SET checks the cached or read block, reads block 0 again, writes it with wip =
true, then the padded message in chunks of nbw from block 1 on, then block 0 with wip = false, in that order and with
nothing else. It ends with the first error of either GET_ATTR or of a write and no later call (R243), and with CHUNK_ZERO
before any write when nbw is 0 and the data is not empty. CACHE is empty however it ends. (Log 6.) -/
def Obligations.NdefSetWritesInOrder : Prop :=
  ∀ (data : List Byte) (s : State) (idm pmm : Bytes 8) (sq : List Bool) (rq : List (Option (List Byte))),
    (ReaderReady s idm pmm → s.reader.cache = none →
      ∀ (e : Err) (sends : List Bool) (answers : List (Option (List Byte))) (calls : List WireEvent),
        AttrFails s idm pmm e sends answers calls → s.transport.sendScript = sends ++ sq →
        s.transport.recvScript = answers ++ rq → Ends (.ndefSet data) s none sq rq calls (.err e)) ∧
    ∀ (B1 : Block) (first : List (List Nat)), SetAllowed data s idm pmm B1 → first = attrReads s.reader.cache →
      (∀ (e : Err) (sends : List Bool) (answers : List (Option (List Byte))) (calls : List WireEvent),
        AttrFails s idm pmm e sends answers calls →
        s.transport.sendScript = List.replicate first.length true ++ (sends ++ sq) →
        s.transport.recvScript = readReplies idm first B1.val ++ (answers ++ rq) →
        Ends (.ndefSet data) s none sq rq (readLog idm pmm s.reader.svcRd first B1.val ++ calls) (.err e)) ∧
      ∀ (B2 : Block) (ab : AttributeBlock) (reads : List WireEvent), attrValid B2.val = true →
        ab = attrRecord B2.val →
        reads = readLog idm pmm s.reader.svcRd first B1.val ++ readLog idm pmm s.reader.svcRd [[0]] B2.val →
        (data ≠ [] → ab.nbw = 0 →
          s.transport.sendScript = List.replicate (first.length + 1) true ++ sq →
          s.transport.recvScript = readReplies idm first B1.val ++ (readReplies idm [[0]] B2.val ++ rq) →
          Ends (.ndefSet data) s none sq rq reads (.err (.argument .chunkZero 0))) ∧
        ((data = [] ∨ 1 ≤ ab.nbw.toNat) →
          ((∀ w ∈ setWrites data ab, WriteFits w.1) →
            s.transport.sendScript = List.replicate (first.length + 1 + (setWrites data ab).length) true ++ sq →
            s.transport.recvScript = readReplies idm first B1.val ++ (readReplies idm [[0]] B2.val ++
              (List.replicate (setWrites data ab).length (some (writeResponse idm)) ++ rq)) →
            Ends (.ndefSet data) s none sq rq (reads ++ writeLog idm pmm s.reader.svcWr (setWrites data ab))
              (.ok .unit)) ∧
          ∀ (pre post : List (List Nat × List Byte)) (w : List Nat × List Byte) (e : Err) (sends : List Bool)
              (answers : List (Option (List Byte))) (calls : List WireEvent),
            setWrites data ab = pre ++ w :: post → (∀ v ∈ pre, WriteFits v.1) →
            WriteFails s idm pmm s.reader.svcWr w.1 w.2 e sends answers calls →
            s.transport.sendScript = List.replicate (first.length + 1 + pre.length) true ++ (sends ++ sq) →
            s.transport.recvScript = readReplies idm first B1.val ++ (readReplies idm [[0]] B2.val ++
              (List.replicate pre.length (some (writeResponse idm)) ++ (answers ++ rq))) →
            Ends (.ndefSet data) s none sq rq (reads ++ (writeLog idm pmm s.reader.svcWr pre ++ calls)) (.err e))

/-- R183, R237: an NDEF_SET that raises PolicyError makes no exchange when CACHE is full, and otherwise only the one
read of block 0; NOT_WRITEABLE comes before CAPACITY. CACHE is empty after it. The first clause says so of every state
and every transport; the second and third say when it raises, in every state with CACHE full, and with CACHE empty over a
transport with a script (log 6). -/
def Obligations.PolicyErrorsWriteNothing : Prop :=
  (∀ (data : List Byte) (s t : State) (sub : PolicySub) (n : Nat), exec (.ndefSet data) s = .next t →
    t.reader.results = s.reader.results ++ [.err (.policy sub n)] →
    (s.reader.cache.isSome → t = (s.setCache none).reply (.err (.policy sub n))) ∧
    (s.reader.cache = none → ∃ u, exec (.readBlocks s.reader.svcRd [0]) s = .next u ∧
      t = { u with reader := { s.reader with results := s.reader.results ++ [.err (.policy sub n)] } })) ∧
  ∀ (data : List Byte) (s : State) (ab : AttributeBlock) (e : Err),
    (ab.writeable = false ∧ e = .policy .notWriteable 0 ∨
      ab.writeable = true ∧ 16 * ab.nmaxb.toNat < data.length ∧ e = .policy .capacity data.length) →
    (s.reader.cache = some ab → exec (.ndefSet data) s = .next ((s.setCache none).reply (.err e))) ∧
    ∀ (idm pmm : Bytes 8) (B : Block) (sq : List Bool) (rq : List (Option (List Byte))),
      ReaderReady s idm pmm → s.reader.cache = none → attrValid B.val = true → ab = attrRecord B.val →
      s.transport.sendScript = true :: sq → s.transport.recvScript = readReplies idm [[0]] B.val ++ rq →
      Ends (.ndefSet data) s none sq rq (readLog idm pmm s.reader.svcRd [[0]] B.val) (.err e)

/-- R178: CACHE is empty after every NDEF_GET and NDEF_SET, however it ends, in every state. -/
def Obligations.CacheEmptyAfterGetAndSet : Prop :=
  ∀ (s : State) (data : List Byte),
    (∃ t, exec .ndefGet s = .next t ∧ t.reader.cache = none) ∧
    ∃ t, exec (.ndefSet data) s = .next t ∧ t.reader.cache = none

/-! ## Emulation dispatcher -/

/-- R191: LOAD_IDENTITY replaces the three registers and keeps ED.SVC; it is refused while ED is BUSY. -/
def Obligations.LoadIdentityLoadsThreeRegisters : Prop :=
  ∀ (idm pmm : Bytes 8) (sys : Bytes 2) (s : State),
    (s.ed.phase = .idle → exec (.loadIdentity idm pmm sys) s =
      .next { s with ed := { s.ed with idm := some idm, pmm := some pmm, sys := some sys },
                     emulator := { results := s.emulator.results ++ [.ok .unit] } }) ∧
    (s.ed.phase = .busy → exec (.loadIdentity idm pmm sys) s = .next (s.replyEmulator (.err .refused)))

/-- R192: REGISTER_SERVICE maps the code to the pair and leaves every other code as it was; it is refused while ED is
BUSY. -/
def Obligations.RegisterServiceMapsTheCode : Prop :=
  ∀ (code : Svc) (rd : ReadCb) (wr : WriteCb) (s : State),
    (s.ed.phase = .idle → ∃ table : SvcTable,
      exec (.registerService code rd wr) s =
        .next { s with ed := { s.ed with svc := table },
                       emulator := { results := s.emulator.results ++ [.ok .unit] } } ∧
      lookupService table code = some { rd := rd, wr := wr } ∧
      ∀ c, c ≠ code → lookupService table c = lookupService s.ed.svc c) ∧
    (s.ed.phase = .busy →
      exec (.registerService code rd wr) s = .next (s.replyEmulator (.err .refused)))

/-- R193, R195, R196, R199: DISPATCH before an identity is Unconfigured, and the drops of the framing checks, the
routing, the identifier match and the polling match, each with its reason; nothing is sent, and a dropped frame has no
other effect. (That the
working registers are cleared after it is the model's choice: log 12.) -/
def Obligations.DispatchDropsMalformedFrames : Prop :=
  ∀ (F : List Byte) (s : State), s.ed.phase = .idle →
    (s.ed.idm = none → exec (.dispatch F) s = .next (s.replyEmulator (.err (.unconfigured .edIdentity)))) ∧
    ∀ (idm pmm : Bytes 8) (sys : Bytes 2), s.ed.idm = some idm → s.ed.pmm = some pmm → s.ed.sys = some sys →
      (F.length < 2 → exec (.dispatch F) s = .next (afterPlain s (.drop .tooShort []))) ∧
      (2 ≤ F.length → num F 0 ≠ F.length →
        exec (.dispatch F) s = .next (afterPlain s (.drop .lengthMismatch []))) ∧
      (2 ≤ F.length → num F 0 = F.length →
        (byteAt F 1 ∉ [0x00, 0x04, 0x06, 0x08, 0x0C] →
          exec (.dispatch F) s = .next (afterPlain s (.drop .unknownCode []))) ∧
        (byteAt F 1 ∈ [0x04, 0x06, 0x08, 0x0C] → F.length < 10 →
          exec (.dispatch F) s = .next (afterPlain s (.drop .tooShort []))) ∧
        (byteAt F 1 ∈ [0x04, 0x06, 0x08, 0x0C] → 10 ≤ F.length → slice F 2 10 ≠ idm.val →
          exec (.dispatch F) s = .next (afterPlain s (.drop .idMismatch []))) ∧
        (byteAt F 1 = 0x00 → F.length < 6 →
          exec (.dispatch F) s = .next (afterPlain s (.drop .tooShort []))) ∧
        (byteAt F 1 = 0x00 → 6 ≤ F.length → slice F 2 4 ≠ sys.val → slice F 2 4 ≠ [0xFF, 0xFF] →
          exec (.dispatch F) s = .next (afterPlain s (.drop .scMismatch []))))

/-- R83, R84, R90, R196, R197, R198: a Polling command whose system code matches ED.SYS or is FF FF is answered with
the identity, and with the system code when RC = 0x01; Request Response and Request System Code with a matching
identifier are answered with their fixed responses. Nothing else changes. (That the working registers are cleared after
it is the model's choice: log 12.)
The host then sends the response (R37); that no Receive over a loopback gets it is the model's choice: log 28. -/
def Obligations.PlainCommandsAnswered : Prop :=
  ∀ (F : List Byte) (s : State) (idm pmm : Bytes 8) (sys : Bytes 2), EdReady s idm → s.ed.pmm = some pmm →
    s.ed.sys = some sys → num F 0 = F.length →
    (6 ≤ F.length → byteAt F 1 = 0x00 → (slice F 2 4 = sys.val ∨ slice F 2 4 = [0xFF, 0xFF]) →
      (byteAt F 4 = 0x01 → exec (.dispatch F) s =
        .next (afterPlain s (.respond ([20, 0x01] ++ idm.val ++ pmm.val ++ sys.val) []))) ∧
      (byteAt F 4 ≠ 0x01 → exec (.dispatch F) s =
        .next (afterPlain s (.respond ([18, 0x01] ++ idm.val ++ pmm.val) [])))) ∧
    (10 ≤ F.length → slice F 2 10 = idm.val →
      (byteAt F 1 = 0x04 → exec (.dispatch F) s =
        .next (afterPlain s (.respond ([11, 0x05] ++ idm.val ++ [0x00]) []))) ∧
      (byteAt F 1 = 0x0C → exec (.dispatch F) s =
        .next (afterPlain s (.respond ([13, 0x0D] ++ idm.val ++ [0x01] ++ sys.val) []))))

/-- R37, R61, R203: a command frame that arrives is handed to DISPATCH, and after DISPATCH has returned its response, if
any, is sent and nothing else. The answers of wait_command that come before it are each taken in turn: none is waited
over, and a byte list is dispatched in the same way, whatever its DISPATCH ends with. (That a command frame as an
instruction is such an arrival, that the host waits again after a none and after an Err, and the free value of t_wait are
the model's choice: log 5.) -/
def Obligations.CommandFramesAreDispatched : Prop :=
  ∀ (len : Byte) (rest : List Byte) (s : State) (code : Byte) (i : Instr),
    (code = 0x00 ∧ i = .pollingCmd len rest ∨ code = 0x04 ∧ i = .requestResponseCmd len rest ∨
      code = 0x06 ∧ i = .readWoEncCmd len rest ∨ code = 0x08 ∧ i = .writeWoEncCmd len rest ∨
      code = 0x0C ∧ i = .requestSystemCodeCmd len rest) →
    (s.transport.waitScript = [] → ∃ t r, exec i s = .next t ∧
      exec (.dispatch (len :: code :: rest)) (s.waited (some (len :: code :: rest))) = .next t ∧
      t.emulator.results = s.emulator.results ++ [r] ∧
      t.transport.log = (s.waited (some (len :: code :: rest))).transport.log ++ sentAfter r) ∧
    ∀ (q : List (Option (List Byte))) (u : State), u = s.setTransport { s.transport with waitScript := q } →
      (s.transport.waitScript = none :: q → exec i s = exec i (u.waited none)) ∧
      ∀ F, s.transport.waitScript = some F :: q → ∃ t r, exec (.dispatch F) (u.waited (some F)) = .next t ∧
        t.emulator.results = s.emulator.results ++ [r] ∧
        t.transport.log = (s.waited (some F)).transport.log ++ sentAfter r ∧ exec i s = exec i t

/-- R61, R93: a response frame that arrives goes to the reader: with an exchange in flight it ends the exchange with
what the parser that RE.PEND names makes of it, and RE is idle; with none it waits behind the answers that are waiting,
and when none is, the next Receive over an external transport returns it. (A response frame as an instruction, where it
waits, and that over a loopback no Receive returns it, are the model's choice: logs 5 and 7; that the parser, the block
count and the timeout are those in RE.PEND is DEDUCED: log 21.) -/
def Obligations.ResponseFramesReachTheReader : Prop :=
  ∀ (len : Byte) (rest : List Byte) (s : State) (code : Byte) (i : Instr),
    (code = 0x01 ∧ i = .pollingRsp len rest ∨ code = 0x05 ∧ i = .requestResponseRsp len rest ∨
      code = 0x07 ∧ i = .readWoEncRsp len rest ∨ code = 0x09 ∧ i = .writeWoEncRsp len rest ∨
      code = 0x0D ∧ i = .requestSystemCodeRsp len rest) →
    (s.re.phase = .idle → exec i s = .next { s with transport := { s.transport with
      recvScript := s.transport.recvScript ++ [some (len :: code :: rest)] } }) ∧
    (s.re.phase = .idle → s.transport.recvScript = [] → s.transport.link = .external →
      ∀ (n : Nat), ∃ t, exec i s = .next t ∧
        receiveFrame n t = (some (len :: code :: rest), s.logWire (.received n (some (len :: code :: rest))))) ∧
    (s.re.phase = .await → ∀ t : State,
      t = { s with
        re := { s.re with phase := .idle }
        transport := { s.transport with
          log := s.transport.log ++ [.received s.re.pend.t.toNat (some (len :: code :: rest))] } } →
      (s.re.pend.code = 0x07 → ∃ res,
        exec (.parseReadRsp (len :: code :: rest) s.re.pend.n.toNat) s = .next (s.reply res) ∧
        exec i s = .next (t.reply res)) ∧
      (s.re.pend.code = 0x09 → ∃ res,
        exec (.parseWriteRsp (len :: code :: rest)) s = .next (s.reply res) ∧
        exec i s = .next (t.reply res)))

/-- R85, R86, R210 to R214: PARSE_LISTS reads back the service list and the block list that the layout lays out, in
either entry form and with any access mode bits, and stops just after the last entry. -/
def Obligations.ParseListsInvertsTheLayout : Prop :=
  ∀ (table : SvcTable) (svcs : List Svc) (entries : List (Byte × BitVec 16)) (code : Byte) (idm : Bytes 8)
      (tail : List Byte),
    (commandFrame code idm (listsWire svcs entries ++ tail)).length ≤ 255 → ListsOk table svcs entries →
    ∃ w : Work, parseLists table (commandFrame code idm (listsWire svcs entries ++ tail)) Work.cleared = (w, none) ∧
      w.ns.toNat = svcs.length ∧ w.sl = svcs ∧ w.nb.toNat = entries.length ∧ w.bl = resolved svcs entries ∧
      (∀ c, countOf w.tot c = (resolved svcs entries).countP (fun e => e.1 == c)) ∧ w.rem = w.tot ∧
      (commandFrame code idm (listsWire svcs entries ++ tail)).drop w.cur = tail

/-- R217, R224, R225: a Read Without Encryption of up to 15 blocks whose callbacks read the store is answered with the
blocks in list order; the callbacks are called once per entry, in order, with the markers of R215; the store and every
register stay. (A callback that reads the store is the model's choice: logs 8 and 10.)
The host then sends the response (R37); that no Receive over a loopback gets it is the model's choice: log 28. -/
def Obligations.ReadServedFromTheStore : Prop :=
  ∀ (s : State) (idm : Bytes 8) (svcs : List Svc) (entries : List (Byte × BitVec 16)) (tail : List Byte),
    EdReady s idm → (commandFrame 0x06 idm (listsWire svcs entries ++ tail)).length ≤ 255 →
    ListsOk s.ed.svc svcs entries → entries.length ≤ 15 →
    (∀ e ∈ resolved svcs entries, (readBank s e).isSome) →
    ∃ (w : Work) (calls : List CallbackCall),
      exec (.dispatch (commandFrame 0x06 idm (listsWire svcs entries ++ tail))) s =
        .next (afterDispatch s w { s.app with calls := calls }
          (.respond (readResponse idm entries.length ((resolved svcs entries).flatMap (blockOf s))) calls)) ∧
      calls.map callKey = marked (resolved svcs entries)

/-- R217, R222, I5: a Read Without Encryption whose callbacks' answers are draws: if all give data, the response holds
it in list order; at the first that gives none it stops with that entry's position. An operation that a callback tries
to issue to ED meanwhile is refused (R244). (That a drawn callback's answer comes from a script of replies is the
model's choice: log 9.)
The host then sends the response (R37); that no Receive over a loopback gets it is the model's choice: log 28. -/
def Obligations.ReadServedFromDraws : Prop :=
  ∀ (s : State) (idm : Bytes 8) (svcs : List Svc) (entries : List (Byte × BitVec 16)) (tail : List Byte)
      (answers : List (Block × Nat)) (q : List ReadReply),
    EdReady s idm → (commandFrame 0x06 idm (listsWire svcs entries ++ tail)).length ≤ 255 →
    ListsOk s.ed.svc svcs entries → entries.length ≤ 15 →
    (∀ e ∈ resolved svcs entries, ∃ h wr, lookupService s.ed.svc e.1 = some { rd := .drawn h, wr := wr }) →
    (answers.length = entries.length →
      s.app.readScript = answers.map (fun a => { data := some a.1, attempts := a.2 }) ++ q →
      ∃ (w : Work) (calls : List CallbackCall),
        exec (.dispatch (commandFrame 0x06 idm (listsWire svcs entries ++ tail))) s =
          .next (afterDispatch s w { s.app with readScript := q, calls := calls }
            (.respond (readResponse idm entries.length (answers.flatMap (fun a => a.1.val))) calls)) ∧
        calls.map callKey = marked (resolved svcs entries) ∧ calls.flatMap callReentries =
          (answers.map (·.2)).flatMap (fun k => List.replicate k (some .refused))) ∧
    ∀ k : Nat, answers.length < entries.length →
      s.app.readScript = answers.map (fun a => { data := some a.1, attempts := a.2 }) ++
        { data := none, attempts := k } :: q →
      ∃ (w : Work) (calls : List CallbackCall),
        exec (.dispatch (commandFrame 0x06 idm (listsWire svcs entries ++ tail))) s =
          .next (afterDispatch s w { s.app with readScript := q, calls := calls }
            (.respond (statusResponse idm 0x07 [positionByte answers.length, 0xA2, 0x00]) calls)) ∧
        calls.map callKey = (marked (resolved svcs entries)).take (answers.length + 1) ∧
        calls.flatMap callReentries =
          (answers.map (·.2) ++ [k]).flatMap (fun k => List.replicate k (some .refused))

/-- R219: a Write Without Encryption with 16 bytes per entry whose callbacks write the store stores each entry's block
in list order and is answered with success; every byte outside the written blocks, and every register, stays. (A
callback that writes the store is the model's choice: logs 8 and 10.)
The host then sends the response (R37); that no Receive over a loopback gets it is the model's choice: log 28. -/
def Obligations.WriteServedToTheStore : Prop :=
  ∀ (s : State) (idm : Bytes 8) (svcs : List Svc) (entries : List (Byte × BitVec 16)) (data : List Byte),
    EdReady s idm → (commandFrame 0x08 idm (listsWire svcs entries ++ data)).length ≤ 255 →
    ListsOk s.ed.svc svcs entries → data.length = 16 * entries.length →
    (∀ e ∈ resolved svcs entries, (writeBank s e).isSome) →
    ∃ (w : Work) (calls : List CallbackCall),
      exec (.dispatch (commandFrame 0x08 idm (listsWire svcs entries ++ data))) s =
        .next (afterDispatch s w
          { s.app with mem := storeAfter s (resolved svcs entries) data s.app.mem, calls := calls }
          (.respond (writeResponse idm) calls)) ∧
      calls.map callKey = marked (resolved svcs entries) ∧
      ∀ a, (∀ e ∈ resolved svcs entries, ∀ bank, writeBank s e = some bank → ¬ inBlock bank e.2 a) →
        Memory.readByte (storeAfter s (resolved svcs entries) data s.app.mem) a = Memory.readByte s.app.mem a

/-- R216, R217, R219, R222: a read or a write stops at the first entry whose callback gives no data, or fails, with
that entry's position in the status; the blocks written before it stay written, the later callbacks are not called.
(When a callback backed by the store fails is the model's choice: logs 8 and 10.)
The host then sends the response (R37); that no Receive over a loopback gets it is the model's choice: log 28. -/
def Obligations.FailingCallbackStops : Prop :=
  ∀ (s : State) (idm : Bytes 8) (svcs : List Svc) (entries : List (Byte × BitVec 16)) (tail : List Byte)
      (pre post : List (Svc × BitVec 16)) (bad : Svc × BitVec 16),
    EdReady s idm → ListsOk s.ed.svc svcs entries → resolved svcs entries = pre ++ bad :: post →
    ((commandFrame 0x06 idm (listsWire svcs entries ++ tail)).length ≤ 255 → entries.length ≤ 15 →
      (∀ e ∈ pre, (readBank s e).isSome) → readMisses s bad →
      ∃ (w : Work) (calls : List CallbackCall),
        exec (.dispatch (commandFrame 0x06 idm (listsWire svcs entries ++ tail))) s =
          .next (afterDispatch s w { s.app with calls := calls }
            (.respond (statusResponse idm 0x07 [positionByte pre.length, 0xA2, 0x00]) calls)) ∧
        calls.map callKey = (marked (resolved svcs entries)).take (pre.length + 1)) ∧
    ((commandFrame 0x08 idm (listsWire svcs entries ++ tail)).length ≤ 255 → tail.length = 16 * entries.length →
      (∀ e ∈ pre, (writeBank s e).isSome) → writeFails s bad →
      ∃ (w : Work) (calls : List CallbackCall),
        exec (.dispatch (commandFrame 0x08 idm (listsWire svcs entries ++ tail))) s =
          .next (afterDispatch s w { s.app with mem := storeAfter s pre tail s.app.mem, calls := calls }
            (.respond (statusResponse idm 0x09 [positionByte pre.length, 0xA2, 0x00]) calls)) ∧
        calls.map callKey = (marked (resolved svcs entries)).take (pre.length + 1))

/-- R219, R222, I5: the same for a Write Without Encryption: `oks` says how often a callback returned true before the
first false. (The script of replies is the model's choice: log 9.)
The host then sends the response (R37); that no Receive over a loopback gets it is the model's choice: log 28. -/
def Obligations.WriteServedFromDraws : Prop :=
  ∀ (s : State) (idm : Bytes 8) (svcs : List Svc) (entries : List (Byte × BitVec 16)) (data : List Byte)
      (oks : List Nat) (q : List WriteReply),
    EdReady s idm → (commandFrame 0x08 idm (listsWire svcs entries ++ data)).length ≤ 255 →
    ListsOk s.ed.svc svcs entries → data.length = 16 * entries.length →
    (∀ e ∈ resolved svcs entries, ∃ h rd, lookupService s.ed.svc e.1 = some { rd := rd, wr := .drawn h }) →
    (oks.length = entries.length →
      s.app.writeScript = oks.map (fun k => { ok := true, attempts := k }) ++ q →
      ∃ (w : Work) (calls : List CallbackCall),
        exec (.dispatch (commandFrame 0x08 idm (listsWire svcs entries ++ data))) s =
          .next (afterDispatch s w { s.app with writeScript := q, calls := calls }
            (.respond (writeResponse idm) calls)) ∧
        calls.map callKey = marked (resolved svcs entries) ∧ calls.flatMap callData = data ∧
        calls.flatMap callReentries = oks.flatMap (fun k => List.replicate k (some .refused))) ∧
    ∀ k : Nat, oks.length < entries.length →
      s.app.writeScript = oks.map (fun k => { ok := true, attempts := k }) ++ { ok := false, attempts := k } :: q →
      ∃ (w : Work) (calls : List CallbackCall),
        exec (.dispatch (commandFrame 0x08 idm (listsWire svcs entries ++ data))) s =
          .next (afterDispatch s w { s.app with writeScript := q, calls := calls }
            (.respond (statusResponse idm 0x09 [positionByte oks.length, 0xA2, 0x00]) calls)) ∧
        calls.map callKey = (marked (resolved svcs entries)).take (oks.length + 1) ∧
        calls.flatMap callData = data.take (16 * (oks.length + 1)) ∧
        calls.flatMap callReentries = (oks ++ [k]).flatMap (fun k => List.replicate k (some .refused))

/-- R212, R223: the first service code that is not registered ends a 0x06 or 0x08 command with status (0xFF, 0xA1),
whatever follows it in the frame; no callback is called.
The host then sends the response (R37); that no Receive over a loopback gets it is the model's choice: log 28. -/
def Obligations.UnknownServiceStatus : Prop :=
  ∀ (s : State) (idm : Bytes 8) (code : Byte) (ns : Nat) (pre : List Svc) (bad : Svc) (rest : List Byte),
    EdReady s idm → (code = 0x06 ∨ code = 0x08) → pre.length < ns → ns ≤ 255 →
    (commandFrame code idm ([byte ns] ++ pre.flatMap lowHigh ++ lowHigh bad ++ rest)).length ≤ 255 →
    (∀ c ∈ pre, (lookupService s.ed.svc c).isSome) → lookupService s.ed.svc bad = none →
    ∃ w, exec (.dispatch (commandFrame code idm ([byte ns] ++ pre.flatMap lowHigh ++ lowHigh bad ++ rest))) s =
      .next (afterDispatch s w { s.app with calls := [] }
        (.respond (statusResponse idm (code + 1) [0xFF, 0xA1]) []))

/-- R213, R216: the first entry whose service index lies outside the service list ends a 0x06 or 0x08 command with
status (1 << (I mod 8), 0xA3), whatever follows its header; no callback is called.
The host then sends the response (R37); that no Receive over a loopback gets it is the model's choice: log 28. -/
def Obligations.ServiceIndexStatus : Prop :=
  ∀ (s : State) (idm : Bytes 8) (code : Byte) (svcs : List Svc) (nb : Nat) (pre : List (Byte × BitVec 16))
      (h : Byte) (rest : List Byte),
    EdReady s idm → (code = 0x06 ∨ code = 0x08) → pre.length < nb → nb ≤ 255 →
    (commandFrame code idm ([byte svcs.length] ++ svcs.flatMap lowHigh ++ [byte nb] ++ pre.flatMap entryWire ++
      [h] ++ rest)).length ≤ 255 →
    ListsOk s.ed.svc svcs pre → svcs.length ≤ h.toNat % 16 →
    ∃ w, exec (.dispatch (commandFrame code idm ([byte svcs.length] ++ svcs.flatMap lowHigh ++ [byte nb] ++
        pre.flatMap entryWire ++ [h] ++ rest))) s =
      .next (afterDispatch s w { s.app with calls := [] }
        (.respond (statusResponse idm (code + 1) [positionByte pre.length, 0xA3]) []))

/-- R211: a 0x06 or 0x08 frame that ends before a field that its lists need, wherever that is, is dropped TRUNCATED; no
callback is called. In particular a frame with sound lists that is cut anywhere inside them. -/
def Obligations.TruncatedListsDropped : Prop :=
  ∀ (s : State) (idm : Bytes 8) (code : Byte), EdReady s idm → (code = 0x06 ∨ code = 0x08) →
    (∀ body : List Byte, CutShort s.ed.svc body → body.length ≤ 245 →
      ∃ w, exec (.dispatch (commandFrame code idm body)) s =
        .next (afterDispatch s w { s.app with calls := [] } (.drop .truncated []))) ∧
    ∀ (svcs : List Svc) (entries : List (Byte × BitVec 16)) (k : Nat),
      ListsOk s.ed.svc svcs entries → svcs.length ≤ 255 → entries.length ≤ 255 →
      k < (listsWire svcs entries).length → k ≤ 245 →
      ∃ w, exec (.dispatch (commandFrame code idm ((listsWire svcs entries).take k))) s =
        .next (afterDispatch s w { s.app with calls := [] } (.drop .truncated []))

/-- R218, R220, R226: a read of 16 blocks or more, and write data that is not 16 bytes per entry, are answered with
status (0xFF, 0xA2) before any callback is called.
The host then sends the response (R37); that no Receive over a loopback gets it is the model's choice: log 28. -/
def Obligations.LengthStatuses : Prop :=
  ∀ (s : State) (idm : Bytes 8) (svcs : List Svc) (entries : List (Byte × BitVec 16)) (tail : List Byte),
    EdReady s idm → ListsOk s.ed.svc svcs entries →
    ((commandFrame 0x06 idm (listsWire svcs entries ++ tail)).length ≤ 255 → 16 ≤ entries.length →
      ∃ w, exec (.dispatch (commandFrame 0x06 idm (listsWire svcs entries ++ tail))) s =
        .next (afterDispatch s w { s.app with calls := [] }
          (.respond (statusResponse idm 0x07 [0xFF, 0xA2]) []))) ∧
    ((commandFrame 0x08 idm (listsWire svcs entries ++ tail)).length ≤ 255 → tail.length ≠ 16 * entries.length →
      ∃ w, exec (.dispatch (commandFrame 0x08 idm (listsWire svcs entries ++ tail))) s =
        .next (afterDispatch s w { s.app with calls := [] }
          (.respond (statusResponse idm 0x09 [0xFF, 0xA2]) [])))

/-- R37, R202: DISPATCH writes no ED register apart from ED.PHASE and the working registers, ED.PHASE is IDLE after it,
and it touches neither the reader side nor, by itself, the transport: it delivers one record, and when that is a Respond
the host then hands its frame, and nothing else, to send_response. In every state in which it is accepted, and for every
frame.
(That no Receive over a loopback gets the response is the model's choice: log 28.) -/
def Obligations.DispatchKeepsRegisters : Prop :=
  ∀ (F : List Byte) (s : State), s.ed.phase = .idle → ∃ t r, exec (.dispatch F) s = .next t ∧
    t.ed = { s.ed with work := t.ed.work } ∧ t.emulator = { results := s.emulator.results ++ [r] } ∧
    t.transport = { s.transport with log := s.transport.log ++ sentAfter r } ∧
    t.re = s.re ∧ t.reader = s.reader ∧ t.program = s.program ∧ t.index = s.index

/-- R52, R96, R200: every response DISPATCH builds begins with its own length, at most 253, carries the command's code
plus one, and then ED.IDM. -/
def Obligations.ResponsesAreFramed : Prop :=
  ∀ (F : List Byte) (s t : State) (idm : Bytes 8) (g : List Byte) (calls : List CallbackCall),
    s.ed.idm = some idm → exec (.dispatch F) s = .next t →
    t.emulator.results = s.emulator.results ++ [.respond g calls] →
    num g 0 = g.length ∧ g.length ≤ 253 ∧ byteAt g 1 = byteAt F 1 + 1 ∧ slice g 2 10 = idm.val

/-- R63, R215, R222: whatever the callbacks are and answer, the calls of a DISPATCH follow the parsed block list from
its first entry on, each entry at most once, and carry begin on the first entry of their service and end on the last. (The
parsed block list is the working register BL, which the model keeps after a DISPATCH: log 12.) -/
def Obligations.CallsFollowTheBlockList : Prop :=
  ∀ (F : List Byte) (s t : State) (r : HostResult) (calls : List CallbackCall),
    s.ed.phase = .idle → exec (.dispatch F) s = .next t → t.emulator.results = s.emulator.results ++ [r] →
    ((∃ g, r = .respond g calls) ∨ ∃ d, r = .drop d calls) →
    calls.map callKey <+: marked t.ed.work.bl

/-! ## Both units together -/

/-- R246: the two units share no register: an emulation-side operation changes neither RE nor the reader-side host,
and, over an external transport, a reader-side operation changes neither ED, nor its host, nor the application. (That
the transport has two kinds of link is log 7; the side of a frame is log 5.) -/
def Obligations.UnitsShareNoRegister : Prop :=
  ∀ (i : Instr) (s t : State), exec i s = .next t →
    (emulationSide i = true → t.re = s.re ∧ t.reader = s.reader ∧ t.transport.link = s.transport.link ∧
      t.transport.recvScript = s.transport.recvScript ∧ t.transport.sendScript = s.transport.sendScript ∧
      t.program = s.program ∧ t.index = s.index) ∧
    (emulationSide i = false → s.transport.link = .external → t.ed = s.ed ∧ t.emulator = s.emulator ∧
      t.app = s.app ∧ t.program = s.program ∧ t.index = s.index)

/-- R21, R42: each register is written only by the operations named for it: RE.IDM and RE.PMM by LOAD_TAG; RE.PHASE and
RE.PEND by READ_BLOCKS and WRITE_BLOCKS, hence by the sequences that issue them (R98), and RE.PHASE also by a response
frame that ends an exchange (log 5); ED.IDM, ED.PMM and ED.SYS by LOAD_IDENTITY; ED.SVC by REGISTER_SERVICE; ED.PHASE and
the working registers by DISPATCH, hence by the command frames handed to it and, over a loopback (log 7), by an exchange;
CACHE by the host sequences; SVC_RD and SVC_WR by no instruction. -/
def Obligations.RegistersHaveTheirWriters : Prop :=
  ∀ (i : Instr) (s t : State), exec i s = .next t →
    ((∀ idm pmm, i ≠ .loadTag idm pmm) → t.re.idm = s.re.idm ∧ t.re.pmm = s.re.pmm) ∧
    (exchanging i = false → t.re.pend = s.re.pend ∧ (responseFrame i = false → t.re.phase = s.re.phase)) ∧
    ((∀ idm pmm sys, i ≠ .loadIdentity idm pmm sys) →
      t.ed.idm = s.ed.idm ∧ t.ed.pmm = s.ed.pmm ∧ t.ed.sys = s.ed.sys) ∧
    ((∀ code rd wr, i ≠ .registerService code rd wr) → t.ed.svc = s.ed.svc) ∧
    (dispatching i = false → exchanging i = false ∨ s.transport.link = .external →
      t.ed.phase = s.ed.phase ∧ t.ed.work = s.ed.work) ∧
    (i ≠ .getAttr → i ≠ .ndefGet → (∀ d, i ≠ .ndefSet d) → t.reader.cache = s.reader.cache) ∧
    t.reader.svcRd = s.reader.svcRd ∧ t.reader.svcWr = s.reader.svcWr

/-- R85, R87, R143, R147, R217: over a loopback, READ_BLOCKS of blocks that the addressed service reads from the store
answers exactly those blocks: the request RE builds is the one ED parses, and the response ED builds is the one RE
accepts. (The loopback is the model's wiring of bench L: log 7; the store is log 10.) -/
def Obligations.LoopbackReadReturnsTheBlocks : Prop :=
  ∀ (s : State) (idm pmm : Bytes 8) (svc : Svc) (bank : BitVec 16) (size : Nat) (wr : WriteCb) (blocks : List Nat),
    s.unitsIdle → s.transport.link = .loopback → s.re.idm = some idm → s.re.pmm = some pmm → s.ed.idm = some idm →
    lookupService s.ed.svc svc = some { rd := .store bank size, wr := wr } →
    1 ≤ blocks.length → blocks.length ≤ 15 → (∀ b ∈ blocks, b < size ∧ b ≤ 0xFFFF) →
    ∃ t, exec (.readBlocks svc blocks) s = .next t ∧
      t.reader = { s.reader with results := s.reader.results ++
        [.ok (.bytes (blocks.flatMap fun b => (Memory.readBlock s.app.mem bank (BitVec.ofNat 16 b)).val))] } ∧
      t.app.mem = s.app.mem ∧ t.unitsIdle ∧ t.ed.svc = s.ed.svc

/-- R85, R88, R144, R148, R219: over a loopback, WRITE_BLOCKS stores each block's 16 bytes in list order and succeeds;
every byte of the store outside the blocks written stays. (Logs 7 and 10.) -/
def Obligations.LoopbackWriteStoresTheBlocks : Prop :=
  ∀ (s : State) (idm pmm : Bytes 8) (svc : Svc) (bank : BitVec 16) (size : Nat) (rd : ReadCb) (blocks : List Nat)
      (data : List Byte),
    s.unitsIdle → s.transport.link = .loopback → s.re.idm = some idm → s.re.pmm = some pmm → s.ed.idm = some idm →
    lookupService s.ed.svc svc = some { rd := rd, wr := .store bank size } →
    1 ≤ blocks.length → WriteFits blocks → data.length = 16 * blocks.length →
    (∀ b ∈ blocks, b < size ∧ b ≤ 0xFFFF) →
    ∃ t, exec (.writeBlocks svc blocks data) s = .next t ∧
      t.reader = { s.reader with results := s.reader.results ++ [.ok .unit] } ∧
      t.app.mem = storeAfter s (blocks.map fun b => (svc, BitVec.ofNat 16 b)) data s.app.mem ∧
      (∀ a, (∀ b ∈ blocks, ¬ inBlock bank (BitVec.ofNat 16 b) a) →
        Memory.readByte t.app.mem a = Memory.readByte s.app.mem a) ∧
      t.unitsIdle ∧ t.ed.svc = s.ed.svc

/-- R182: a message that NDEF_SET writes is the message NDEF_GET then returns, on a tag that behaves as a memory and
answers every exchange: this block's own ED over a loopback (log 7) with callbacks that read and write one store (logs
8 and 10); block 0 valid and writeable, the message within the capacity, nbr and nbw within the limits of R143 and R144. -/
def Obligations.SetThenGetReturnsTheMessage : Prop :=
  ∀ (data : List Byte) (s : State) (idm pmm : Bytes 8) (bank : BitVec 16) (size : Nat) (rd : ReadCb) (wr : WriteCb)
      (ab : AttributeBlock),
    s.unitsIdle → s.transport.link = .loopback → s.re.idm = some idm → s.re.pmm = some pmm → s.ed.idm = some idm →
    Memory.wf s.app.mem → lookupService s.ed.svc s.reader.svcRd = some { rd := .store bank size, wr := wr } →
    lookupService s.ed.svc s.reader.svcWr = some { rd := rd, wr := .store bank size } →
    attrValid (Memory.readBlock s.app.mem bank 0).val = true →
    ab = attrRecord (Memory.readBlock s.app.mem bank 0).val →
    (s.reader.cache = none ∨ s.reader.cache = some ab) → ab.writeable = true →
    data.length ≤ 16 * ab.nmaxb.toNat → (data.length + 15) / 16 < size → 1 ≤ ab.nbr.toNat → 1 ≤ ab.nbw.toNat →
    (∀ C ∈ chunks (blocksOfMessage data.length) ab.nbr.toNat, C.length ≤ 15) →
    (∀ C ∈ chunks (blocksOfMessage data.length) ab.nbw.toNat, WriteFits C) →
    ∃ t u, exec (.ndefSet data) s = .next t ∧ t.reader.results = s.reader.results ++ [.ok .unit] ∧
      exec .ndefGet t = .next u ∧ u.reader.results = t.reader.results ++ [.ok (.bytes data)]

/-! ## The machine -/

/-- The decoder reads back every well-formed instruction the encoder writes, and refuses its item with any bytes after it.
(The operand layout is the model's: log 3.) -/
def Obligations.DecodeInvertsEncode : Prop :=
  ∀ i : Instr, i.wf = true → decode (encode i) = .ok i ∧
    ∀ rest : List Byte, rest ≠ [] → ∃ e, decode (encode i ++ rest) = .error e

/-- R80: a program item whose first byte is no operation number of R80, no frame code of R93 and no selector of a
sequence (log 4) is refused by name, by the decoder and by a step. -/
def Obligations.UnknownOperationsRefused : Prop :=
  ∀ (selector : Byte) (operands : List Byte),
    selector ∉ [0x10, 0x11, 0x12, 0x20, 0x21, 0x22, 0x23, 0x24, 0x25, 0x30, 0x31, 0x32, 0x40, 0x41, 0x42,
      0x00, 0x01, 0x04, 0x05, 0x06, 0x07, 0x08, 0x09, 0x0C, 0x0D, 0x80, 0x81, 0x82, 0x83, 0x84] →
    decode (selector :: operands) = .error (.noSuchOperation selector) ∧
    ∀ s : State, s.program[s.index]? = some (selector :: operands) →
      step s = .refused (.noSuchOperation selector)

/-- A few items written out from R80 and R93 decode to the instructions they stand for. (Operand layout and selectors
0x80 to 0x84 are the model's: logs 3 and 4.) -/
def Obligations.SampleItemsDecode : Prop :=
  decode [0x11, 0x04] = .ok (.timeoutRd 4) ∧
  decode [0x24, 0x0B, 0x00, 0x02, 0x01, 0x02] = .ok (.readBlocks 0x000B [1, 2]) ∧
  decode [0x42, 0x02, 0x02, 0x05] = .ok (.dispatch [0x02, 0x05]) ∧
  decode [0x04, 0x0A, 0x02, 0xAA, 0xBB] = .ok (.requestResponseCmd 0x0A [0xAA, 0xBB]) ∧
  decode [0x83] = .ok .ndefGet

/-- R29: when the item at the program index decodes to a well-formed instruction, a step runs it and the index advances
by one. (The program as a list of encoded items is the model's choice: logs 2 and 3.) -/
def Obligations.StepRunsTheDecodedInstruction : Prop :=
  ∀ (s : State) (i : Instr) (item : List Byte), s.program[s.index]? = some item → decode item = .ok i →
    ∀ t, exec i s = .next t → step s = .next { t with index := t.index + 1 }

/-- R37, R230, R243: in every state every instruction ends with a next state: an error is a result record, never a stop;
and each operation of the host port delivers exactly one record to the host that issued it. (That each host sequence, the
selectors 0x80 to 0x84 of log 4, also adds exactly one record is no rule of the spec but the model's choice: log 29.) -/
def Obligations.EveryInstructionReturns : Prop :=
  ∀ (i : Instr) (s : State), ∃ t, exec i s = .next t ∧
    (encode i).head? = some i.selector ∧
    (i.selector.toNat ≥ 0x10 → emulationSide i = false → ∃ r, t.reader.results = s.reader.results ++ [r]) ∧
    (i.selector.toNat ≥ 0x10 → emulationSide i = true → ∃ r, t.emulator.results = s.emulator.results ++ [r])

/-- R39, R250: the registers after reset. -/
def Obligations.ResetValues : Prop :=
  State.reset.re.idm = none ∧ State.reset.re.pmm = none ∧ State.reset.re.phase = .idle ∧
  State.reset.ed.idm = none ∧ State.reset.ed.pmm = none ∧ State.reset.ed.sys = none ∧ State.reset.ed.svc = [] ∧
  State.reset.ed.phase = .idle ∧ State.reset.reader.cache = none ∧ State.reset.reader.svcRd = 0x000B ∧
  State.reset.reader.svcWr = 0x0009

/-- The good-state invariant holds after reset. (It includes values that logs 10 and 12 choose.) -/
def Obligations.ResetIsGood : Prop := State.reset.Good

/-- R24, R27, R28, R40, R264: a step from a good state leaves a good state: both units idle, each identity wholly
loaded or wholly UNLOADED, the working registers within their widths, ED.SVC and the store in canonical form. (That
the working registers keep their values after a DISPATCH, and the store, are the model's choice: logs 12 and 10.) -/
def Obligations.StepKeepsGood : Prop :=
  ∀ s t : State, s.Good → step s = .next t → t.Good

/-- A block written to the store is read back, every other block stays, and the canonical form stays. (The store is
the model's: log 10.) -/
def Obligations.StoreReadAfterWrite : Prop :=
  ∀ (m : Memory) (bank blk : BitVec 16) (d : Block), Memory.wf m →
    Memory.wf (Memory.writeBlock m bank blk d.val) ∧
    Memory.readBlock (Memory.writeBlock m bank blk d.val) bank blk = d ∧
    (∀ bank' blk' : BitVec 16, ¬(bank = bank' ∧ blk = blk') →
      Memory.readBlock (Memory.writeBlock m bank blk d.val) bank' blk' = Memory.readBlock m bank' blk') ∧
    ∀ a, ¬ inBlock bank blk a →
      Memory.readByte (Memory.writeBlock m bank blk d.val) a = Memory.readByte m a
end

