-- ==== Sys2Proof/Laws/Memory.lean ====
section
/-! SUPPORT. The block store: reads after writes, and the canonical form. -/

namespace Sys2Proof.Machine

variable {m : Memory} {a b : Nat} {v : Byte}

/-! ## One byte -/

theorem Memory.readByte_cell (a : Nat) (v : Byte) (m : Memory) (b : Nat) (h : a ≠ b ∨ v ≠ Memory.blank) :
    Memory.readByte (Memory.cell a v m) b = if a = b then v else Memory.readByte m b := by
  unfold Memory.cell
  split
  · rcases h with h | h
    · simp [h]
    · contradiction
  · rfl

/-- An address below every listed one is not listed. -/
theorem Memory.readByte_below (h : ∀ c ∈ m, a < c.1) : Memory.readByte m a = Memory.blank := by
  induction m with
  | nil => rfl
  | cons c m ih =>
    obtain ⟨k, w⟩ := c
    have hk : a < k := h (k, w) (by simp)
    simp only [Memory.readByte, if_neg (Nat.ne_of_gt hk)]
    exact ih fun c hc => h c (by simp [hc])

/-- A write leaves every other address alone. -/
theorem Memory.readByte_writeByte_ne (h : a ≠ b) :
    Memory.readByte (Memory.writeByte m a v) b = Memory.readByte m b := by
  induction m with
  | nil => simp [Memory.writeByte, Memory.readByte_cell _ _ _ _ (Or.inl h), h]
  | cons c m ih =>
    obtain ⟨k, w⟩ := c
    simp only [Memory.writeByte]
    split
    · simp [Memory.readByte_cell _ _ _ _ (Or.inl h), h]
    · split
      · subst_vars
        simp [Memory.readByte_cell _ _ _ _ (Or.inl h), h, Memory.readByte]
      · simp only [Memory.readByte, ih]

/-- A read after a write to the same address gives the byte written. -/
theorem Memory.readByte_writeByte_self (hm : Memory.wf m) :
    Memory.readByte (Memory.writeByte m a v) a = v := by
  induction m with
  | nil =>
    simp only [Memory.writeByte, Memory.cell]
    split
    · simp_all [Memory.readByte]
    · simp [Memory.readByte]
  | cons c m ih =>
    obtain ⟨k, w⟩ := c
    obtain ⟨hp, hb⟩ := hm
    have hm' : Memory.wf m := ⟨(List.pairwise_cons.1 hp).2, fun c hc => hb c (by simp [hc])⟩
    have hlow : ∀ c ∈ m, k < c.1 := fun c hc => (List.pairwise_cons.1 hp).1 c hc
    simp only [Memory.writeByte]
    split
    · rename_i hak
      simp only [Memory.cell]
      split
      · rename_i hv
        rw [hv]
        apply Memory.readByte_below
        intro c hc
        rcases List.mem_cons.1 hc with rfl | hc
        · exact hak
        · exact Nat.lt_trans hak (hlow c hc)
      · simp [Memory.readByte]
    · split
      · subst_vars
        simp only [Memory.cell]
        split
        · rename_i hv
          rw [hv]
          exact Memory.readByte_below hlow
        · simp [Memory.readByte]
      · rename_i hne
        simp only [Memory.readByte, if_neg (Ne.symm hne)]
        exact ih hm'

theorem Memory.mem_cell {c : Host.Cell} (h : c ∈ Memory.cell a v m) : (c = (a, v) ∧ v ≠ Memory.blank) ∨ c ∈ m := by
  unfold Memory.cell at h
  split at h
  · exact Or.inr h
  · rcases List.mem_cons.1 h with h | h
    · exact Or.inl ⟨h, by assumption⟩
    · exact Or.inr h

/-- What a write can list: the byte it stores, or what was listed before. -/
theorem Memory.mem_writeByte {c : Host.Cell} (h : c ∈ Memory.writeByte m a v) :
    (c = (a, v) ∧ v ≠ Memory.blank) ∨ c ∈ m := by
  induction m with
  | nil => exact Memory.mem_cell h
  | cons d m ih =>
    obtain ⟨k, w⟩ := d
    simp only [Memory.writeByte] at h
    split at h
    · exact Memory.mem_cell h
    · split at h
      · rcases Memory.mem_cell h with h | h
        · exact Or.inl h
        · exact Or.inr (by simp [h])
      · rcases List.mem_cons.1 h with h | h
        · exact Or.inr (by simp [h])
        · rcases ih h with h | h
          · exact Or.inl h
          · exact Or.inr (by simp [h])

theorem Memory.pairwise_cell (hp : m.Pairwise (fun c d => c.1 < d.1)) (h : ∀ c ∈ m, a < c.1) :
    (Memory.cell a v m).Pairwise (fun c d => c.1 < d.1) := by
  unfold Memory.cell
  split
  · exact hp
  · exact List.pairwise_cons.2 ⟨h, hp⟩

/-- A write keeps the canonical form. -/
theorem Memory.wf_writeByte (hm : Memory.wf m) : Memory.wf (Memory.writeByte m a v) := by
  refine ⟨?_, fun c hc => ?_⟩
  · have hp := hm.1
    clear hm
    induction m with
    | nil => exact Memory.pairwise_cell List.Pairwise.nil (by simp)
    | cons d m ih =>
      obtain ⟨k, w⟩ := d
      obtain ⟨hk, hp'⟩ := List.pairwise_cons.1 hp
      simp only [Memory.writeByte]
      split
      · rename_i hak
        refine Memory.pairwise_cell hp fun c hc => ?_
        rcases List.mem_cons.1 hc with rfl | hc
        · exact hak
        · exact Nat.lt_trans hak (hk c hc)
      · split
        · subst_vars
          exact Memory.pairwise_cell hp' hk
        · rename_i h1 h2
          refine List.pairwise_cons.2 ⟨fun c hc => ?_, ih hp'⟩
          rcases Memory.mem_writeByte hc with ⟨rfl, -⟩ | hc
          · exact Nat.lt_of_le_of_ne (Nat.le_of_not_lt h1) (Ne.symm h2)
          · exact hk c hc
  · rcases Memory.mem_writeByte hc with ⟨rfl, h⟩ | h
    · exact h
    · exact hm.2 c h

/-! ## Runs of bytes -/

@[simp] theorem Memory.length_readBytes (n : Nat) : (Memory.readBytes m a n).length = n := by
  induction n generalizing a with
  | zero => rfl
  | succ n ih => simp [Memory.readBytes, ih]

/-- A write of bytes keeps the canonical form. -/
theorem Memory.wf_writeBytes {l : List Byte} (hm : Memory.wf m) : Memory.wf (Memory.writeBytes m a l) := by
  induction l generalizing m a with
  | nil => exact hm
  | cons b l ih => exact ih (Memory.wf_writeByte hm)

/-- A write of bytes leaves every address outside them alone. -/
theorem Memory.readByte_writeBytes_outside {l : List Byte} (h : b < a ∨ a + l.length ≤ b) :
    Memory.readByte (Memory.writeBytes m a l) b = Memory.readByte m b := by
  induction l generalizing m a with
  | nil => rfl
  | cons v l ih =>
    simp only [Memory.writeBytes, List.length_cons] at *
    rw [ih (by omega), Memory.readByte_writeByte_ne (by omega)]

/-- Bytes read after they were written at the same address are the bytes written. -/
theorem Memory.readBytes_writeBytes_self {l : List Byte} (hm : Memory.wf m) :
    Memory.readBytes (Memory.writeBytes m a l) a l.length = l := by
  induction l generalizing m a with
  | nil => rfl
  | cons v l ih =>
    simp only [Memory.writeBytes, List.length_cons, Memory.readBytes]
    rw [Memory.readByte_writeBytes_outside (by omega), Memory.readByte_writeByte_self hm,
      ih (Memory.wf_writeByte hm)]

/-- Bytes read outside the bytes written are as before. -/
theorem Memory.readBytes_writeBytes_outside {l : List Byte} {n : Nat} (h : b + n ≤ a ∨ a + l.length ≤ b) :
    Memory.readBytes (Memory.writeBytes m a l) b n = Memory.readBytes m b n := by
  induction n generalizing b with
  | zero => rfl
  | succ n ih =>
    simp only [Memory.readBytes]
    rw [Memory.readByte_writeBytes_outside (by omega), ih (by omega)]

/-! ## Blocks -/

/-- Two block numbers name the same address only if they are the same block. -/
theorem blockAddr_inj {bank bank' blk blk' : BitVec 16} (h : blockAddr bank blk = blockAddr bank' blk') :
    bank = bank' ∧ blk = blk' := by
  unfold blockAddr at h
  have h1 := blk.isLt
  have h2 := blk'.isLt
  exact ⟨BitVec.eq_of_toNat_eq (by omega), BitVec.eq_of_toNat_eq (by omega)⟩

/-- Different blocks do not overlap. -/
theorem blockAddr_disjoint {bank bank' blk blk' : BitVec 16} (h : ¬(bank = bank' ∧ blk = blk')) :
    blockAddr bank blk + 16 ≤ blockAddr bank' blk' ∨ blockAddr bank' blk' + 16 ≤ blockAddr bank blk := by
  by_contra hc
  refine h (blockAddr_inj ?_)
  unfold blockAddr at *
  omega

theorem Memory.wf_writeBlock {bank blk : BitVec 16} {d : List Byte} (hm : Memory.wf m) :
    Memory.wf (Memory.writeBlock m bank blk d) := Memory.wf_writeBytes hm

theorem Memory.readBlock_writeBlock_self {bank blk : BitVec 16} {d : Block} (hm : Memory.wf m) :
    Memory.readBlock (Memory.writeBlock m bank blk d.val) bank blk = d := by
  apply Subtype.ext
  have h := Memory.readBytes_writeBytes_self (a := blockAddr bank blk) (l := d.val) hm
  rwa [d.property] at h

theorem Memory.readBlock_writeBlock_ne {bank bank' blk blk' : BitVec 16} {d : List Byte} (hd : d.length = 16)
    (h : ¬(bank = bank' ∧ blk = blk')) :
    Memory.readBlock (Memory.writeBlock m bank blk d) bank' blk' = Memory.readBlock m bank' blk' := by
  apply Subtype.ext
  refine Memory.readBytes_writeBytes_outside ?_
  rw [hd]
  exact (blockAddr_disjoint h).symm

end Sys2Proof.Machine
end

