-- ==== Sys2Proof/Laws/Services.lean ====
section
/-! SUPPORT. The service table (R26, R192) and the counts per service (R214). -/

namespace Sys2Proof.Machine

/-- A registered code maps to the callbacks registered last. -/
theorem lookupService_insertService_self (t : SvcTable) (s : Svc) (p : Callbacks) :
    lookupService (insertService t s p) s = some p := by
  induction t with
  | nil => simp [insertService, lookupService]
  | cons c t ih =>
    obtain ⟨c, q⟩ := c
    simp only [insertService]
    split
    · simp [lookupService]
    · split
      · simp [lookupService]
      · rename_i h
        simp [lookupService, ih, Ne.symm h]

/-- Registering a code leaves every other code as it was. -/
theorem lookupService_insertService_ne {s r : Svc} (t : SvcTable) (p : Callbacks) (h : s ≠ r) :
    lookupService (insertService t s p) r = lookupService t r := by
  induction t with
  | nil => simp [insertService, lookupService, h]
  | cons c t ih =>
    obtain ⟨c, q⟩ := c
    simp only [insertService]
    split
    · simp [lookupService, h]
    · split
      · subst_vars
        simp [lookupService, h]
      · simp [lookupService, ih]

theorem mem_insertService {t : SvcTable} {s : Svc} {p : Callbacks} {c : Svc × Callbacks}
    (h : c ∈ insertService t s p) : c = (s, p) ∨ c ∈ t := by
  induction t with
  | nil => simpa [insertService] using h
  | cons d t ih =>
    obtain ⟨d, q⟩ := d
    simp only [insertService] at h
    split at h
    · simpa using h
    · split at h
      · rcases List.mem_cons.1 h with h | h
        · exact Or.inl h
        · exact Or.inr (by simp [h])
      · rcases List.mem_cons.1 h with h | h
        · exact Or.inr (by simp [h])
        · rcases ih h with h | h
          · exact Or.inl h
          · exact Or.inr (by simp [h])

/-- Registering a code keeps the codes rising. -/
theorem sorted_insertService {t : SvcTable} {s : Svc} {p : Callbacks} (h : SvcTable.sorted t) :
    SvcTable.sorted (insertService t s p) := by
  induction t with
  | nil => simp [insertService, SvcTable.sorted]
  | cons c t ih =>
    obtain ⟨c, q⟩ := c
    obtain ⟨hc, ht⟩ := List.pairwise_cons.1 h
    simp only [insertService]
    split
    · rename_i hs
      refine List.pairwise_cons.2 ⟨fun d hd => ?_, h⟩
      rcases List.mem_cons.1 hd with rfl | hd
      · exact hs
      · exact Nat.lt_trans hs (hc d hd)
    · split
      · subst_vars
        exact List.pairwise_cons.2 ⟨hc, ht⟩
      · rename_i h1 h2
        refine List.pairwise_cons.2 ⟨fun d hd => ?_, ih ht⟩
        rcases mem_insertService hd with rfl | hd
        · have : s.toNat ≠ c.toNat := fun e => h2 (BitVec.eq_of_toNat_eq e)
          simp only
          omega
        · exact hc d hd

/-! ## Counts per service -/

theorem countOf_setCount_self (m : SvcCount) (s : Svc) (v : Nat) : countOf (setCount m s v) s = v := by
  induction m with
  | nil => simp [setCount, countOf]
  | cons c m ih =>
    obtain ⟨c, n⟩ := c
    simp only [setCount]
    split
    · simp [countOf]
    · rename_i h
      simp [countOf, h, ih]

theorem countOf_setCount_ne {s r : Svc} (m : SvcCount) (v : Nat) (h : s ≠ r) :
    countOf (setCount m s v) r = countOf m r := by
  induction m with
  | nil => simp [setCount, countOf, h]
  | cons c m ih =>
    obtain ⟨c, n⟩ := c
    simp only [setCount]
    split
    · subst_vars
      simp [countOf, h]
    · simp [countOf, ih]

/-- The number of entries of a block list whose service is `s`. -/
def entriesOf (s : Svc) (bl : List (Svc × BitVec 16)) : Nat := bl.countP (fun e => e.1 == s)

/-- TOT counts the entries per service (R214). -/
theorem countOf_totals (bl : List (Svc × BitVec 16)) (m : SvcCount) (s : Svc) :
    countOf (totals bl m) s = countOf m s + entriesOf s bl := by
  induction bl generalizing m with
  | nil => simp [totals, entriesOf]
  | cons e bl ih =>
    obtain ⟨r, blk⟩ := e
    simp only [totals, ih, entriesOf, List.countP_cons]
    by_cases h : r = s
    · subst h
      simp [countOf_setCount_self]
      omega
    · simp [countOf_setCount_ne _ _ h, h]

theorem countOf_le {m : SvcCount} {k : Nat} (h : ∀ c ∈ m, c.2 ≤ k) (s : Svc) : countOf m s ≤ k := by
  induction m with
  | nil => simp [countOf]
  | cons c m ih =>
    obtain ⟨c, n⟩ := c
    simp only [countOf]
    split
    · exact h (c, n) (by simp)
    · exact ih fun d hd => h d (by simp [hd])

theorem setCount_le {m : SvcCount} {k v : Nat} {s : Svc} (h : ∀ c ∈ m, c.2 ≤ k) (hv : v ≤ k) :
    ∀ c ∈ setCount m s v, c.2 ≤ k := by
  induction m with
  | nil => simp [setCount, hv]
  | cons c m ih =>
    obtain ⟨c, n⟩ := c
    intro d hd
    simp only [setCount] at hd
    split at hd
    · rcases List.mem_cons.1 hd with rfl | hd
      · exact hv
      · exact h d (by simp [hd])
    · rcases List.mem_cons.1 hd with rfl | hd
      · exact h _ (by simp)
      · exact ih (fun e he => h e (by simp [he])) d hd

theorem totals_le (bl : List (Svc × BitVec 16)) {m : SvcCount} {k : Nat} (h : ∀ c ∈ m, c.2 ≤ k) :
    ∀ c ∈ totals bl m, c.2 ≤ k + bl.length := by
  induction bl generalizing m k with
  | nil => simpa [totals] using h
  | cons e bl ih =>
    obtain ⟨s, blk⟩ := e
    simp only [totals, List.length_cons]
    have hs : ∀ c ∈ setCount m s (countOf m s + 1), c.2 ≤ k + 1 :=
      setCount_le (fun c hc => Nat.le_succ_of_le (h c hc)) (by have := countOf_le h s; omega)
    intro c hc
    have := ih hs c hc
    omega

end Sys2Proof.Machine
end

