-- ==== Sys2Proof/Laws/State.lean ====
section
/-! SUPPORT. What each update of the state leaves in each of its parts: one lemma per part per update. -/

namespace Sys2Proof.Machine

variable (s : State)

@[simp] theorem State.reply_re (r : HostResult) : (s.reply r).re = s.re := rfl
@[simp] theorem State.reply_ed (r : HostResult) : (s.reply r).ed = s.ed := rfl
@[simp] theorem State.reply_reader (r : HostResult) : (s.reply r).reader = { s.reader with results := s.reader.results ++ [r] } := rfl
@[simp] theorem State.reply_emulator (r : HostResult) : (s.reply r).emulator = s.emulator := rfl
@[simp] theorem State.reply_transport (r : HostResult) : (s.reply r).transport = s.transport := rfl
@[simp] theorem State.reply_app (r : HostResult) : (s.reply r).app = s.app := rfl
@[simp] theorem State.reply_program (r : HostResult) : (s.reply r).program = s.program := rfl
@[simp] theorem State.reply_index (r : HostResult) : (s.reply r).index = s.index := rfl

@[simp] theorem State.replyEmulator_re (r : HostResult) : (s.replyEmulator r).re = s.re := rfl
@[simp] theorem State.replyEmulator_ed (r : HostResult) : (s.replyEmulator r).ed = s.ed := rfl
@[simp] theorem State.replyEmulator_reader (r : HostResult) : (s.replyEmulator r).reader = s.reader := rfl
@[simp] theorem State.replyEmulator_emulator (r : HostResult) : (s.replyEmulator r).emulator = { results := s.emulator.results ++ [r] } := rfl
@[simp] theorem State.replyEmulator_transport (r : HostResult) : (s.replyEmulator r).transport = s.transport := rfl
@[simp] theorem State.replyEmulator_app (r : HostResult) : (s.replyEmulator r).app = s.app := rfl
@[simp] theorem State.replyEmulator_program (r : HostResult) : (s.replyEmulator r).program = s.program := rfl
@[simp] theorem State.replyEmulator_index (r : HostResult) : (s.replyEmulator r).index = s.index := rfl

@[simp] theorem State.setTag_re (idm pmm : Bytes 8) : (s.setTag idm pmm).re = { s.re with idm := some idm, pmm := some pmm } := rfl
@[simp] theorem State.setTag_ed (idm pmm : Bytes 8) : (s.setTag idm pmm).ed = s.ed := rfl
@[simp] theorem State.setTag_reader (idm pmm : Bytes 8) : (s.setTag idm pmm).reader = s.reader := rfl
@[simp] theorem State.setTag_emulator (idm pmm : Bytes 8) : (s.setTag idm pmm).emulator = s.emulator := rfl
@[simp] theorem State.setTag_transport (idm pmm : Bytes 8) : (s.setTag idm pmm).transport = s.transport := rfl
@[simp] theorem State.setTag_app (idm pmm : Bytes 8) : (s.setTag idm pmm).app = s.app := rfl
@[simp] theorem State.setTag_program (idm pmm : Bytes 8) : (s.setTag idm pmm).program = s.program := rfl
@[simp] theorem State.setTag_index (idm pmm : Bytes 8) : (s.setTag idm pmm).index = s.index := rfl

@[simp] theorem State.awaitReply_re (p : Pending) : (s.awaitReply p).re = { s.re with phase := .await, pend := p } := rfl
@[simp] theorem State.awaitReply_ed (p : Pending) : (s.awaitReply p).ed = s.ed := rfl
@[simp] theorem State.awaitReply_reader (p : Pending) : (s.awaitReply p).reader = s.reader := rfl
@[simp] theorem State.awaitReply_emulator (p : Pending) : (s.awaitReply p).emulator = s.emulator := rfl
@[simp] theorem State.awaitReply_transport (p : Pending) : (s.awaitReply p).transport = s.transport := rfl
@[simp] theorem State.awaitReply_app (p : Pending) : (s.awaitReply p).app = s.app := rfl
@[simp] theorem State.awaitReply_program (p : Pending) : (s.awaitReply p).program = s.program := rfl
@[simp] theorem State.awaitReply_index (p : Pending) : (s.awaitReply p).index = s.index := rfl

@[simp] theorem State.endAwait_re : (s.endAwait).re = { s.re with phase := .idle } := rfl
@[simp] theorem State.endAwait_ed : (s.endAwait).ed = s.ed := rfl
@[simp] theorem State.endAwait_reader : (s.endAwait).reader = s.reader := rfl
@[simp] theorem State.endAwait_emulator : (s.endAwait).emulator = s.emulator := rfl
@[simp] theorem State.endAwait_transport : (s.endAwait).transport = s.transport := rfl
@[simp] theorem State.endAwait_app : (s.endAwait).app = s.app := rfl
@[simp] theorem State.endAwait_program : (s.endAwait).program = s.program := rfl
@[simp] theorem State.endAwait_index : (s.endAwait).index = s.index := rfl

@[simp] theorem State.setIdentity_re (idm pmm : Bytes 8) (sys : Bytes 2) : (s.setIdentity idm pmm sys).re = s.re := rfl
@[simp] theorem State.setIdentity_ed (idm pmm : Bytes 8) (sys : Bytes 2) : (s.setIdentity idm pmm sys).ed = { s.ed with idm := some idm, pmm := some pmm, sys := some sys } := rfl
@[simp] theorem State.setIdentity_reader (idm pmm : Bytes 8) (sys : Bytes 2) : (s.setIdentity idm pmm sys).reader = s.reader := rfl
@[simp] theorem State.setIdentity_emulator (idm pmm : Bytes 8) (sys : Bytes 2) : (s.setIdentity idm pmm sys).emulator = s.emulator := rfl
@[simp] theorem State.setIdentity_transport (idm pmm : Bytes 8) (sys : Bytes 2) : (s.setIdentity idm pmm sys).transport = s.transport := rfl
@[simp] theorem State.setIdentity_app (idm pmm : Bytes 8) (sys : Bytes 2) : (s.setIdentity idm pmm sys).app = s.app := rfl
@[simp] theorem State.setIdentity_program (idm pmm : Bytes 8) (sys : Bytes 2) : (s.setIdentity idm pmm sys).program = s.program := rfl
@[simp] theorem State.setIdentity_index (idm pmm : Bytes 8) (sys : Bytes 2) : (s.setIdentity idm pmm sys).index = s.index := rfl

@[simp] theorem State.setServices_re (t : SvcTable) : (s.setServices t).re = s.re := rfl
@[simp] theorem State.setServices_ed (t : SvcTable) : (s.setServices t).ed = { s.ed with svc := t } := rfl
@[simp] theorem State.setServices_reader (t : SvcTable) : (s.setServices t).reader = s.reader := rfl
@[simp] theorem State.setServices_emulator (t : SvcTable) : (s.setServices t).emulator = s.emulator := rfl
@[simp] theorem State.setServices_transport (t : SvcTable) : (s.setServices t).transport = s.transport := rfl
@[simp] theorem State.setServices_app (t : SvcTable) : (s.setServices t).app = s.app := rfl
@[simp] theorem State.setServices_program (t : SvcTable) : (s.setServices t).program = s.program := rfl
@[simp] theorem State.setServices_index (t : SvcTable) : (s.setServices t).index = s.index := rfl

@[simp] theorem State.enterDispatch_re : (s.enterDispatch).re = s.re := rfl
@[simp] theorem State.enterDispatch_ed : (s.enterDispatch).ed = { s.ed with phase := .busy, work := Work.cleared } := rfl
@[simp] theorem State.enterDispatch_reader : (s.enterDispatch).reader = s.reader := rfl
@[simp] theorem State.enterDispatch_emulator : (s.enterDispatch).emulator = s.emulator := rfl
@[simp] theorem State.enterDispatch_transport : (s.enterDispatch).transport = s.transport := rfl
@[simp] theorem State.enterDispatch_app : (s.enterDispatch).app = { s.app with calls := [] } := rfl
@[simp] theorem State.enterDispatch_program : (s.enterDispatch).program = s.program := rfl
@[simp] theorem State.enterDispatch_index : (s.enterDispatch).index = s.index := rfl

@[simp] theorem State.leaveDispatch_re : (s.leaveDispatch).re = s.re := rfl
@[simp] theorem State.leaveDispatch_ed : (s.leaveDispatch).ed = { s.ed with phase := .idle } := rfl
@[simp] theorem State.leaveDispatch_reader : (s.leaveDispatch).reader = s.reader := rfl
@[simp] theorem State.leaveDispatch_emulator : (s.leaveDispatch).emulator = s.emulator := rfl
@[simp] theorem State.leaveDispatch_transport : (s.leaveDispatch).transport = s.transport := rfl
@[simp] theorem State.leaveDispatch_app : (s.leaveDispatch).app = s.app := rfl
@[simp] theorem State.leaveDispatch_program : (s.leaveDispatch).program = s.program := rfl
@[simp] theorem State.leaveDispatch_index : (s.leaveDispatch).index = s.index := rfl

@[simp] theorem State.setWork_re (w : Work) : (s.setWork w).re = s.re := rfl
@[simp] theorem State.setWork_ed (w : Work) : (s.setWork w).ed = { s.ed with work := w } := rfl
@[simp] theorem State.setWork_reader (w : Work) : (s.setWork w).reader = s.reader := rfl
@[simp] theorem State.setWork_emulator (w : Work) : (s.setWork w).emulator = s.emulator := rfl
@[simp] theorem State.setWork_transport (w : Work) : (s.setWork w).transport = s.transport := rfl
@[simp] theorem State.setWork_app (w : Work) : (s.setWork w).app = s.app := rfl
@[simp] theorem State.setWork_program (w : Work) : (s.setWork w).program = s.program := rfl
@[simp] theorem State.setWork_index (w : Work) : (s.setWork w).index = s.index := rfl

@[simp] theorem State.setCache_re (c : Option AttributeBlock) : (s.setCache c).re = s.re := rfl
@[simp] theorem State.setCache_ed (c : Option AttributeBlock) : (s.setCache c).ed = s.ed := rfl
@[simp] theorem State.setCache_reader (c : Option AttributeBlock) : (s.setCache c).reader = { s.reader with cache := c } := rfl
@[simp] theorem State.setCache_emulator (c : Option AttributeBlock) : (s.setCache c).emulator = s.emulator := rfl
@[simp] theorem State.setCache_transport (c : Option AttributeBlock) : (s.setCache c).transport = s.transport := rfl
@[simp] theorem State.setCache_app (c : Option AttributeBlock) : (s.setCache c).app = s.app := rfl
@[simp] theorem State.setCache_program (c : Option AttributeBlock) : (s.setCache c).program = s.program := rfl
@[simp] theorem State.setCache_index (c : Option AttributeBlock) : (s.setCache c).index = s.index := rfl

@[simp] theorem State.setTransport_re (t : Transport) : (s.setTransport t).re = s.re := rfl
@[simp] theorem State.setTransport_ed (t : Transport) : (s.setTransport t).ed = s.ed := rfl
@[simp] theorem State.setTransport_reader (t : Transport) : (s.setTransport t).reader = s.reader := rfl
@[simp] theorem State.setTransport_emulator (t : Transport) : (s.setTransport t).emulator = s.emulator := rfl
@[simp] theorem State.setTransport_transport (t : Transport) : (s.setTransport t).transport = t := rfl
@[simp] theorem State.setTransport_app (t : Transport) : (s.setTransport t).app = s.app := rfl
@[simp] theorem State.setTransport_program (t : Transport) : (s.setTransport t).program = s.program := rfl
@[simp] theorem State.setTransport_index (t : Transport) : (s.setTransport t).index = s.index := rfl

@[simp] theorem State.setApp_re (a : App) : (s.setApp a).re = s.re := rfl
@[simp] theorem State.setApp_ed (a : App) : (s.setApp a).ed = s.ed := rfl
@[simp] theorem State.setApp_reader (a : App) : (s.setApp a).reader = s.reader := rfl
@[simp] theorem State.setApp_emulator (a : App) : (s.setApp a).emulator = s.emulator := rfl
@[simp] theorem State.setApp_transport (a : App) : (s.setApp a).transport = s.transport := rfl
@[simp] theorem State.setApp_app (a : App) : (s.setApp a).app = a := rfl
@[simp] theorem State.setApp_program (a : App) : (s.setApp a).program = s.program := rfl
@[simp] theorem State.setApp_index (a : App) : (s.setApp a).index = s.index := rfl

@[simp] theorem State.logWire_re (e : WireEvent) : (s.logWire e).re = s.re := rfl
@[simp] theorem State.logWire_ed (e : WireEvent) : (s.logWire e).ed = s.ed := rfl
@[simp] theorem State.logWire_reader (e : WireEvent) : (s.logWire e).reader = s.reader := rfl
@[simp] theorem State.logWire_emulator (e : WireEvent) : (s.logWire e).emulator = s.emulator := rfl
@[simp] theorem State.logWire_transport (e : WireEvent) : (s.logWire e).transport = { s.transport with log := s.transport.log ++ [e] } := rfl
@[simp] theorem State.logWire_app (e : WireEvent) : (s.logWire e).app = s.app := rfl
@[simp] theorem State.logWire_program (e : WireEvent) : (s.logWire e).program = s.program := rfl
@[simp] theorem State.logWire_index (e : WireEvent) : (s.logWire e).index = s.index := rfl

@[simp] theorem State.waited_re (a : Option (List Byte)) : (s.waited a).re = s.re := rfl
@[simp] theorem State.waited_ed (a : Option (List Byte)) : (s.waited a).ed = s.ed := rfl
@[simp] theorem State.waited_reader (a : Option (List Byte)) : (s.waited a).reader = s.reader := rfl
@[simp] theorem State.waited_emulator (a : Option (List Byte)) : (s.waited a).emulator = s.emulator := rfl
@[simp] theorem State.waited_transport (a : Option (List Byte)) :
    (s.waited a).transport = { s.transport with
      waits := s.transport.waits + 1
      log := s.transport.log ++ [.waited (Config.freeWait s.transport.waits) a] } := rfl
@[simp] theorem State.waited_app (a : Option (List Byte)) : (s.waited a).app = s.app := rfl
@[simp] theorem State.waited_program (a : Option (List Byte)) : (s.waited a).program = s.program := rfl
@[simp] theorem State.waited_index (a : Option (List Byte)) : (s.waited a).index = s.index := rfl

@[simp] theorem State.advance_re : (s.advance).re = s.re := rfl
@[simp] theorem State.advance_ed : (s.advance).ed = s.ed := rfl
@[simp] theorem State.advance_reader : (s.advance).reader = s.reader := rfl
@[simp] theorem State.advance_emulator : (s.advance).emulator = s.emulator := rfl
@[simp] theorem State.advance_transport : (s.advance).transport = s.transport := rfl
@[simp] theorem State.advance_app : (s.advance).app = s.app := rfl
@[simp] theorem State.advance_program : (s.advance).program = s.program := rfl
@[simp] theorem State.advance_index : (s.advance).index = s.index + 1 := rfl

@[simp] theorem State.setProgram_re (p : List (List Byte)) : (s.setProgram p).re = s.re := rfl
@[simp] theorem State.setProgram_ed (p : List (List Byte)) : (s.setProgram p).ed = s.ed := rfl
@[simp] theorem State.setProgram_reader (p : List (List Byte)) : (s.setProgram p).reader = s.reader := rfl
@[simp] theorem State.setProgram_emulator (p : List (List Byte)) : (s.setProgram p).emulator = s.emulator := rfl
@[simp] theorem State.setProgram_transport (p : List (List Byte)) : (s.setProgram p).transport = s.transport := rfl
@[simp] theorem State.setProgram_app (p : List (List Byte)) : (s.setProgram p).app = s.app := rfl
@[simp] theorem State.setProgram_program (p : List (List Byte)) : (s.setProgram p).program = p := rfl
@[simp] theorem State.setProgram_index (p : List (List Byte)) : (s.setProgram p).index = s.index := rfl

/-! ## Results -/

@[simp] theorem State.raise_eq (e : Err) : s.raise e = s.reply (.err e) := rfl
@[simp] theorem State.raiseEmulator_eq (e : Err) : s.raiseEmulator e = s.replyEmulator (.err e) := rfl

@[simp] theorem State.finish_ok {α : Type} (f : α → Value) (a : α) : s.finish f (.ok a) = s.reply (.ok (f a)) := rfl
@[simp] theorem State.finish_error {α : Type} (f : α → Value) (e : Err) :
    s.finish f (.error e) = s.reply (.err e) := rfl

/-- A reader-side operation ends by delivering one result record. -/
theorem State.finish_eq_reply {α : Type} (f : α → Value) (r : Except Err α) :
    s.finish f r = s.reply (resultOf f r) := by cases r <;> rfl

@[simp] theorem Run.next_ok {α β : Type} (a : α) (k : α → State → Run β) : Run.next (.ok a, s) k = k a s := rfl
@[simp] theorem Run.next_error {α β : Type} (e : Err) (k : α → State → Run β) :
    Run.next (.error e, s) k = (.error e, s) := rfl

/-- A property of the state that the first operation and the second both keep is kept by the two in a row. -/
theorem Run.next_keeps {α β : Type} {P : State → Prop} {r : Run α} {k : α → State → Run β}
    (hr : P r.2) (hk : ∀ a t, P t → P (k a t).2) : P (Run.next r k).2 := by
  obtain ⟨r, t⟩ := r
  cases r with
  | ok a => exact hk a t hr
  | error e => exact hr

/-! ## Gates -/

@[simp] theorem edGate_idle {s : State} (h : s.ed.phase = .idle) : edGate s = none := by simp [edGate, h]
@[simp] theorem edGate_busy {s : State} (h : s.ed.phase = .busy) : edGate s = some .refused := by simp [edGate, h]
@[simp] theorem reGate_idle {s : State} (h : s.re.phase = .idle) : reGate s = none := by simp [reGate, h]
@[simp] theorem reGate_await {s : State} (h : s.re.phase = .await) : reGate s = some .refused := by
  simp [reGate, h]

end Sys2Proof.Machine
end

