-- ==== Sys2Proof/Laws/Emulation.lean ====
section
/-! SUPPORT. The emulation dispatcher: what a DISPATCH can change, and the widths of its working registers. -/

namespace Sys2Proof.Machine

/-! ## What a handler can change -/

/-- `t` differs from `s` at most in the working registers of ED and in the application, whose store keeps its canonical
form. -/
structure InsideDispatch (s t : State) : Prop where
  re : t.re = s.re
  ed : t.ed = { s.ed with work := t.ed.work }
  reader : t.reader = s.reader
  emulator : t.emulator = s.emulator
  transport : t.transport = s.transport
  program : t.program = s.program
  index : t.index = s.index
  store : Memory.wf s.app.mem → Memory.wf t.app.mem

theorem InsideDispatch.refl (s : State) : InsideDispatch s s := ⟨rfl, rfl, rfl, rfl, rfl, rfl, rfl, id⟩

theorem InsideDispatch.trans {s t u : State} (h : InsideDispatch s t) (k : InsideDispatch t u) :
    InsideDispatch s u := by
  refine ⟨k.re.trans h.re, ?_, k.reader.trans h.reader, k.emulator.trans h.emulator, k.transport.trans h.transport,
    k.program.trans h.program, k.index.trans h.index, fun m => k.store (h.store m)⟩
  rw [k.ed, h.ed]

theorem InsideDispatch.setWork (s : State) (w : Work) : InsideDispatch s (s.setWork w) :=
  ⟨rfl, rfl, rfl, rfl, rfl, rfl, rfl, id⟩

theorem InsideDispatch.setApp {s : State} {a : App} (h : Memory.wf s.app.mem → Memory.wf a.mem) :
    InsideDispatch s (s.setApp a) := ⟨rfl, rfl, rfl, rfl, rfl, rfl, rfl, h⟩

@[simp] theorem drawRead_mem (a : App) : (drawRead a).2.mem = a.mem := by unfold drawRead; split <;> rfl
@[simp] theorem drawWrite_mem (a : App) : (drawWrite a).2.mem = a.mem := by unfold drawWrite; split <;> rfl

/-- A read callback does not change the store. -/
@[simp] theorem runReadCb_mem (cb : ReadCb) (blk : BitVec 16) (a : App) : (runReadCb cb blk a).2.mem = a.mem := by
  cases cb <;> simp [runReadCb]

/-- A write callback keeps the store's canonical form. -/
theorem runWriteCb_wf (cb : WriteCb) (blk : BitVec 16) (d : List Byte) {a : App} (h : Memory.wf a.mem) :
    Memory.wf (runWriteCb cb blk d a).2.mem := by
  cases cb with
  | drawn _ => simpa [runWriteCb] using h
  | readOnly => exact h
  | store bank size =>
    simp only [runWriteCb]
    split
    · exact Memory.wf_writeBlock h
    · exact h

theorem blockRead_inside (s : State) (svc : Svc) (blk : BitVec 16) (first last : Bool) :
    InsideDispatch s (blockRead s svc blk first last).2 := by
  unfold blockRead
  split
  · exact InsideDispatch.refl s
  · exact InsideDispatch.setApp fun h => by simpa using h

theorem blockWrite_inside (s : State) (svc : Svc) (blk : BitVec 16) (d : List Byte) (first last : Bool) :
    InsideDispatch s (blockWrite s svc blk d first last).2 := by
  unfold blockWrite
  split
  · exact InsideDispatch.refl s
  · exact InsideDispatch.setApp fun h => runWriteCb_wf _ _ _ h

theorem readEntries_inside (bl : List (Svc × BitVec 16)) (i : Nat) (s : State) :
    InsideDispatch s (readEntries bl i s).2 := by
  induction bl generalizing i s with
  | nil => exact InsideDispatch.refl s
  | cons e bl ih =>
    simp only [readEntries]
    have h := blockRead_inside (s.setWork (takeEntry s.ed.work e.1 i)) e.1 e.2 (beginMark s.ed.work e.1)
      (endMark (takeEntry s.ed.work e.1 i) e.1)
    have h := (InsideDispatch.setWork s _).trans h
    split <;> rename_i heq <;> rw [heq] at h
    · exact h
    · exact (h.trans (InsideDispatch.setWork _ _)).trans (ih _ _)

theorem writeEntries_inside (data : List Byte) (bl : List (Svc × BitVec 16)) (i : Nat) (s : State) :
    InsideDispatch s (writeEntries data bl i s).2 := by
  induction bl generalizing i s with
  | nil => exact InsideDispatch.refl s
  | cons e bl ih =>
    simp only [writeEntries]
    have h := blockWrite_inside (s.setWork (takeEntry s.ed.work e.1 i)) e.1 e.2 (blockSlice data i)
      (beginMark s.ed.work e.1) (endMark (takeEntry s.ed.work e.1 i) e.1)
    have h := (InsideDispatch.setWork s _).trans h
    split <;> rename_i heq <;> rw [heq] at h
    · exact h
    · exact h.trans (ih _ _)

theorem readWoEnc_inside (idm : Bytes 8) (F : List Byte) (s : State) : InsideDispatch s (readWoEnc idm F s).2 := by
  unfold readWoEnc
  split
  · exact InsideDispatch.setWork s _
  · rename_i w heq
    split
    · exact InsideDispatch.setWork s _
    · have h := (InsideDispatch.setWork s w).trans (readEntries_inside w.bl 0 (s.setWork w))
      split <;> rename_i heq <;> rw [heq] at h <;> exact h

theorem writeWoEnc_inside (idm : Bytes 8) (F : List Byte) (s : State) : InsideDispatch s (writeWoEnc idm F s).2 := by
  unfold writeWoEnc
  split
  · exact InsideDispatch.setWork s _
  · rename_i w heq
    split
    · exact InsideDispatch.setWork s _
    · have h := (InsideDispatch.setWork s w).trans (writeEntries_inside (F.drop w.cur) w.bl 0 (s.setWork w))
      split <;> rename_i heq <;> rw [heq] at h <;> exact h

/-- A handler changes nothing but the working registers and the application. -/
theorem handleFrame_inside (idm : Bytes 8) (F : List Byte) (s : State) :
    InsideDispatch s (handleFrame idm F s).2 := by
  unfold handleFrame routeIdentified
  repeat' split
  all_goals first
    | exact InsideDispatch.refl s
    | exact readWoEnc_inside idm F s
    | exact writeWoEnc_inside idm F s

/-! ## The parse of the lists -/

/-- What the parse of the service list leaves: CUR within the frame, at most one code more for each of its `k`. -/
theorem parseServices_leaves (svc : SvcTable) (F : List Byte) (k : Nat) (w : Work) (hc : w.cur ≤ F.length) :
    ∃ cur sl, (parseServices svc F k w).1 = { w with cur := cur, sl := sl } ∧ cur ≤ F.length ∧
      sl.length ≤ w.sl.length + k := by
  induction k generalizing w with
  | zero => exact ⟨w.cur, w.sl, rfl, hc, Nat.le_refl _⟩
  | succ k ih =>
    simp only [parseServices]
    by_cases hm : missing F w 2 = true
    · rw [if_pos hm]
      exact ⟨w.cur, w.sl, rfl, hc, by omega⟩
    · rw [if_neg hm]
      simp only [missing, decide_eq_true_eq] at hm
      by_cases hs : (lookupService svc (le16At F w.cur)).isNone = true
      · rw [if_pos hs]
        exact ⟨w.cur + 2, w.sl, rfl, by omega, by omega⟩
      · rw [if_neg hs]
        obtain ⟨cur, sl, e, h1, h2⟩ := ih { w with cur := w.cur + 2, sl := w.sl ++ [le16At F w.cur] }
          (by simp only; omega)
        refine ⟨cur, sl, by rw [e], h1, ?_⟩
        simp only [List.length_append, List.length_singleton] at h2
        omega

/-- What the parse of the block list leaves: CUR within the frame, I at the last entry looked at, BL at most one entry
longer for each of its `k`, and exactly that when it does not stop. -/
theorem parseEntries_leaves (F : List Byte) (k i : Nat) (w : Work) (hc : w.cur ≤ F.length) :
    ∃ cur j bl, (parseEntries F k i w).1 = { w with cur := cur, i := j, bl := bl } ∧ cur ≤ F.length ∧
      (j = w.i ∨ i ≤ j ∧ j < i + k) ∧ bl.length ≤ w.bl.length + k ∧
      ((parseEntries F k i w).2 = none → bl.length = w.bl.length + k) := by
  induction k generalizing i w with
  | zero => exact ⟨w.cur, w.i, w.bl, rfl, hc, Or.inl rfl, Nat.le_refl _, fun _ => rfl⟩
  | succ k ih =>
    simp only [parseEntries]
    by_cases h1 : missing F w 1 = true
    · rw [if_pos h1]
      exact ⟨w.cur, i, w.bl, rfl, hc, by omega, by omega, by simp⟩
    rw [if_neg h1]
    by_cases h2 : entryIndex (byteAt F w.cur) ≥ w.ns.toNat
    · rw [if_pos h2]
      exact ⟨w.cur, i, w.bl, rfl, hc, by omega, by omega, by simp⟩
    rw [if_neg h2]
    by_cases h3 : entryShort (byteAt F w.cur) = true
    · rw [if_pos h3]
      by_cases hm : missing F w 2 = true
      · rw [if_pos hm]
        exact ⟨w.cur, i, w.bl, rfl, hc, by omega, by omega, by simp⟩
      · rw [if_neg hm]
        simp only [missing, decide_eq_true_eq] at hm
        obtain ⟨cur, j, bl, e, h1, h2, h3, h4⟩ := ih (i + 1)
          { w with i := i, cur := w.cur + 2,
                   bl := w.bl ++ [(w.sl.getD (entryIndex (byteAt F w.cur)) 0, (byteAt F (w.cur + 1)).setWidth 16)] }
          (by simp only; omega)
        simp only [List.length_append, List.length_singleton] at h2 h3 h4
        exact ⟨cur, j, bl, by rw [e], h1, by omega, by omega, fun h => by have := h4 h; omega⟩
    · rw [if_neg h3]
      by_cases hm : missing F w 3 = true
      · rw [if_pos hm]
        exact ⟨w.cur, i, w.bl, rfl, hc, by omega, by omega, by simp⟩
      · rw [if_neg hm]
        simp only [missing, decide_eq_true_eq] at hm
        obtain ⟨cur, j, bl, e, h1, h2, h3, h4⟩ := ih (i + 1)
          { w with i := i, cur := w.cur + 3,
                   bl := w.bl ++ [(w.sl.getD (entryIndex (byteAt F w.cur)) 0, le16At F (w.cur + 1))] }
          (by simp only; omega)
        simp only [List.length_append, List.length_singleton] at h2 h3 h4
        exact ⟨cur, j, bl, by rw [e], h1, by omega, by omega, fun h => by have := h4 h; omega⟩

/-- What PARSE_LISTS leaves in cleared working registers: all within their widths (R28), DATA empty; if it does not
stop, one entry for each of NB, and TOT and REM the number of entries per service (R214). -/
theorem parseLists_leaves (svc : SvcTable) (F : List Byte) (h10 : 10 ≤ F.length) (h255 : F.length ≤ 255) :
    let p := parseLists svc F Work.cleared
    p.1.cur ≤ 255 ∧ p.1.sl.length ≤ 255 ∧ p.1.bl.length ≤ 255 ∧ p.1.i ≤ 254 ∧ p.1.data = [] ∧
      (p.2.isSome → p.1.tot = [] ∧ p.1.rem = []) ∧
      (p.2 = none → p.1.bl.length = p.1.nb.toNat ∧ p.1.tot = totals p.1.bl [] ∧ p.1.rem = totals p.1.bl []) := by
  have hs : ∃ cur sl ns, (parseServiceList svc F { Work.cleared with cur := 10 }).1 =
      { Work.cleared with cur := cur, sl := sl, ns := ns } ∧ cur ≤ F.length ∧ sl.length ≤ 255 := by
    unfold parseServiceList
    split
    · exact ⟨10, [], 0, rfl, h10, by simp⟩
    · rename_i hm
      simp only [missing, decide_eq_true_eq] at hm
      obtain ⟨cur, sl, e, h1, h2⟩ := parseServices_leaves svc F (byteAt F 10).toNat
        { Work.cleared with ns := byteAt F 10, cur := 11 } (by simp only; omega)
      have := (byteAt F 10).isLt
      exact ⟨cur, sl, _, e, h1, by simp only [Work.cleared, List.length_nil] at h2; omega⟩
  obtain ⟨cur, sl, ns, e, h1, h2⟩ := hs
  unfold parseLists
  generalize parseServiceList svc F { Work.cleared with cur := 10 } = p at e
  obtain ⟨w, st⟩ := p
  dsimp only at e
  subst e
  cases st with
  | some st => simp only [Parse.next, Work.cleared, List.length_nil]; simp; omega
  | none =>
    simp only [Parse.next, parseBlockList]
    by_cases hm : missing F { Work.cleared with cur := cur, sl := sl, ns := ns } 1 = true
    · rw [if_pos hm]
      simp only [Work.cleared, List.length_nil]; simp; omega
    · rw [if_neg hm]
      simp only [missing, decide_eq_true_eq] at hm
      obtain ⟨cur', j, bl, e, g1, g2, g3, g4⟩ := parseEntries_leaves F (byteAt F cur).toNat 0
        { Work.cleared with cur := cur + 1, sl := sl, ns := ns, nb := byteAt F cur } (by simp only; omega)
      have hlt := (byteAt F cur).isLt
      simp only [Work.cleared, List.length_nil] at e g2 g3 g4 ⊢
      generalize parseEntries F (byteAt F cur).toNat 0 _ = p at e g4 ⊢
      obtain ⟨w, st⟩ := p
      dsimp only at e
      subst e
      cases st with
      | some st => simp; omega
      | none =>
        have := g4 rfl
        simp [countEntries]; omega

/-! ## The markers (R215) -/

/-- The entries of `rest` with their markers, when `done` stands before them: begin on the first entry of its service,
end on the last. -/
def marksFrom : List (Svc × BitVec 16) → List (Svc × BitVec 16) → List (Svc × BitVec 16 × Bool × Bool)
  | _, [] => []
  | done, e :: rest =>
    (e.1, e.2, !done.any (fun f => f.1 == e.1), !rest.any (fun f => f.1 == e.1)) :: marksFrom (done ++ [e]) rest

@[simp] theorem length_marksFrom (done rest : List (Svc × BitVec 16)) : (marksFrom done rest).length = rest.length := by
  induction rest generalizing done with
  | nil => rfl
  | cons e rest ih => simp [marksFrom, ih]

/-- Before the entries `rest` are taken: TOT counts all entries, REM those still to come. -/
structure CountsAt (w : Work) (done rest : List (Svc × BitVec 16)) : Prop where
  tot : ∀ c, countOf w.tot c = entriesOf c done + entriesOf c rest
  rem : ∀ c, countOf w.rem c = entriesOf c rest

theorem entriesOf_eq_zero {c : Svc} {l : List (Svc × BitVec 16)} :
    entriesOf c l = 0 ↔ l.any (fun f => f.1 == c) = false := by
  simp [entriesOf, List.countP_eq_zero]

theorem entriesOf_cons (c : Svc) (e : Svc × BitVec 16) (l : List (Svc × BitVec 16)) :
    entriesOf c (e :: l) = entriesOf c l + if e.1 = c then 1 else 0 := by
  simp [entriesOf, List.countP_cons]

theorem entriesOf_append (c : Svc) (l k : List (Svc × BitVec 16)) :
    entriesOf c (l ++ k) = entriesOf c l + entriesOf c k := by simp [entriesOf]

/-- The markers that ED computes from its counts are begin on the first entry of a service and end on the last. -/
theorem marks_of_counts {w : Work} {done rest : List (Svc × BitVec 16)} {e : Svc × BitVec 16} {i : Nat}
    (h : CountsAt w done (e :: rest)) :
    beginMark w e.1 = !done.any (fun f => f.1 == e.1) ∧
      endMark (takeEntry w e.1 i) e.1 = !rest.any (fun f => f.1 == e.1) ∧
      CountsAt (takeEntry w e.1 i) (done ++ [e]) rest := by
  have h1 := h.tot e.1
  have h2 := h.rem e.1
  rw [entriesOf_cons, if_pos rfl] at h1 h2
  refine ⟨?_, ?_, ?_, ?_⟩
  · rw [beginMark, h1, h2]
    cases hd : done.any (fun f => f.1 == e.1) with
    | false => rw [entriesOf_eq_zero.2 hd]; simp
    | true =>
      have : entriesOf e.1 done ≠ 0 := fun h0 => by rw [entriesOf_eq_zero.1 h0] at hd; cases hd
      simp; omega
  · have : countOf (takeEntry w e.1 i).rem e.1 = entriesOf e.1 rest := by
      simp [takeEntry, takeOne, countOf_setCount_self, h2]
    rw [endMark, this]
    cases hd : rest.any (fun f => f.1 == e.1) with
    | false => rw [entriesOf_eq_zero.2 hd]; rfl
    | true =>
      have : entriesOf e.1 rest ≠ 0 := fun h0 => by rw [entriesOf_eq_zero.1 h0] at hd; cases hd
      simpa using this
  · intro c
    have := h.tot c
    rw [entriesOf_cons] at this
    simp only [takeEntry, takeOne, entriesOf_append]
    rw [this, show [e] = e :: [] from rfl, entriesOf_cons]
    simp only [entriesOf, List.countP_nil]
    omega
  · intro c
    by_cases hc : e.1 = c
    · subst hc
      simp [takeEntry, takeOne, countOf_setCount_self, h2]
    · have := h.rem c
      rw [entriesOf_cons, if_neg hc] at this
      simp only [takeEntry, takeOne]
      rw [countOf_setCount_ne _ _ hc, this]
      rfl

/-! ## The callbacks of a DISPATCH, as a run of the application alone -/

/-- A read callback of a DISPATCH, with ED BUSY: its answer, and the application after it. -/
def appRead (t : SvcTable) (m : Svc × BitVec 16 × Bool × Bool) (a : App) : Option Block × App :=
  match lookupService t m.1 with
  | none => (none, a)
  | some p =>
    ((runReadCb p.rd m.2.1 a).1.data,
      { (runReadCb p.rd m.2.1 a).2 with calls := (runReadCb p.rd m.2.1 a).2.calls ++
        [.read m.1 p.rd m.2.1 m.2.2.1 m.2.2.2 (runReadCb p.rd m.2.1 a).1.data
          (List.replicate (runReadCb p.rd m.2.1 a).1.attempts (some .refused))] })

/-- A write callback of a DISPATCH, as `appRead`. -/
def appWrite (t : SvcTable) (m : Svc × BitVec 16 × Bool × Bool) (d : List Byte) (a : App) : Bool × App :=
  match lookupService t m.1 with
  | none => (false, a)
  | some p =>
    ((runWriteCb p.wr m.2.1 d a).1.ok,
      { (runWriteCb p.wr m.2.1 d a).2 with calls := (runWriteCb p.wr m.2.1 d a).2.calls ++
        [.write m.1 p.wr m.2.1 d m.2.2.1 m.2.2.2 (runWriteCb p.wr m.2.1 d a).1.ok
          (List.replicate (runWriteCb p.wr m.2.1 d a).1.attempts (some .refused))] })

/-- The read callbacks in order: the position of the first that gave no data, if any; the data before it; the
application after them. -/
def readRun (t : SvcTable) : List (Svc × BitVec 16 × Bool × Bool) → Nat → App → Option Nat × List Byte × App
  | [], _, a => (none, [], a)
  | m :: ms, i, a =>
    match appRead t m a with
    | (none, a1) => (some i, [], a1)
    | (some d, a1) => ((readRun t ms (i + 1) a1).1, d.val ++ (readRun t ms (i + 1) a1).2.1,
        (readRun t ms (i + 1) a1).2.2)

/-- The write callbacks in order: the position of the first that failed, if any, and the application after them. -/
def writeRun (t : SvcTable) (data : List Byte) :
    List (Svc × BitVec 16 × Bool × Bool) → Nat → App → Option Nat × App
  | [], _, a => (none, a)
  | m :: ms, i, a =>
    match appWrite t m (blockSlice data i) a with
    | (false, a1) => (some i, a1)
    | (true, a1) => writeRun t data ms (i + 1) a1

/-- The status of a callback that failed at position `i` (R216, R217, R219). -/
def positionStatus (i : Nat) : List Byte := [positionBit i, 0xA2, 0x00]

theorem blockRead_eq {s : State} (h : s.ed.phase = .busy) (m : Svc × BitVec 16 × Bool × Bool) :
    blockRead s m.1 m.2.1 m.2.2.1 m.2.2.2 = ((appRead s.ed.svc m s.app).1, s.setApp (appRead s.ed.svc m s.app).2) := by
  unfold blockRead appRead
  cases lookupService s.ed.svc m.1 with
  | none => rfl
  | some p => simp only [edGate_busy h]

theorem blockWrite_eq {s : State} (h : s.ed.phase = .busy) (m : Svc × BitVec 16 × Bool × Bool) (d : List Byte) :
    blockWrite s m.1 m.2.1 d m.2.2.1 m.2.2.2 =
      ((appWrite s.ed.svc m d s.app).1, s.setApp (appWrite s.ed.svc m d s.app).2) := by
  unfold blockWrite appWrite
  cases lookupService s.ed.svc m.1 with
  | none => rfl
  | some p => simp only [edGate_busy h]

/-- What entries that are taken leave in the working registers: REM and I within their widths, the lists as they
were. -/
structure TakenFrom (w v : Work) (i n : Nat) : Prop where
  cur : v.cur = w.cur
  ns : v.ns = w.ns
  sl : v.sl = w.sl
  nb : v.nb = w.nb
  bl : v.bl = w.bl
  tot : v.tot = w.tot
  rem : ∀ k, (∀ c ∈ w.rem, c.2 ≤ k) → ∀ c ∈ v.rem, c.2 ≤ k
  i : v.i = w.i ∨ i ≤ v.i ∧ v.i < i + n

theorem takeEntry_taken (w : Work) (svc : Svc) (i n : Nat) : TakenFrom w (takeEntry w svc i) i (n + 1) := by
  refine ⟨rfl, rfl, rfl, rfl, rfl, rfl, fun k h => ?_, Or.inr ⟨Nat.le_refl _, by simp only [takeEntry, takeOne]; omega⟩⟩
  have := countOf_le h svc
  exact setCount_le h (by simp only; omega)

theorem TakenFrom.trans {w v u : Work} {i n : Nat} (h : TakenFrom w v i (n + 1)) (k : TakenFrom v u (i + 1) n) :
    TakenFrom w u i (n + 1) :=
  ⟨k.cur.trans h.cur, k.ns.trans h.ns, k.sl.trans h.sl, k.nb.trans h.nb, k.bl.trans h.bl, k.tot.trans h.tot,
    fun b hb => k.rem b (h.rem b hb), by have := h.i; have := k.i; omega⟩

/-- All the read loop does: the run of the application, with the markers of R215; DATA gathers the blocks. -/
theorem readEntries_eq {done rest : List (Svc × BitVec 16)} {i : Nat} {s : State} (hp : s.ed.phase = .busy)
    (hc : CountsAt s.ed.work done rest) :
    ∃ w, readEntries rest i s =
        ((readRun s.ed.svc (marksFrom done rest) i s.app).1.map positionStatus,
          (s.setWork w).setApp (readRun s.ed.svc (marksFrom done rest) i s.app).2.2) ∧
      w.data = s.ed.work.data ++ (readRun s.ed.svc (marksFrom done rest) i s.app).2.1 ∧
      TakenFrom s.ed.work w i rest.length := by
  induction rest generalizing done i s with
  | nil =>
    exact ⟨s.ed.work, rfl, by simp [marksFrom, readRun],
      ⟨rfl, rfl, rfl, rfl, rfl, rfl, fun _ h => h, Or.inl rfl⟩⟩
  | cons e rest ih =>
    obtain ⟨h1, h2, h3⟩ := marks_of_counts (i := i) hc
    have hb := blockRead_eq (s := s.setWork (takeEntry s.ed.work e.1 i)) hp
      (e.1, e.2, !done.any (fun f => f.1 == e.1), !rest.any (fun f => f.1 == e.1))
    simp only [readEntries, h1, h2]
    simp only [State.setWork_ed, State.setWork_app] at hb
    rw [hb]
    simp only [marksFrom, readRun]
    generalize appRead s.ed.svc (e.1, e.2, !done.any (fun f => f.1 == e.1), !rest.any (fun f => f.1 == e.1)) s.app = r
    obtain ⟨r, a⟩ := r
    cases r with
    | none =>
      exact ⟨takeEntry s.ed.work e.1 i, rfl, by simp [takeEntry, takeOne], takeEntry_taken _ _ _ _⟩
    | some d =>
      obtain ⟨w, e1, e2, e3⟩ := ih (done := done ++ [e]) (i := i + 1)
        (s := ((s.setWork (takeEntry s.ed.work e.1 i)).setApp a).setWork
          { takeEntry s.ed.work e.1 i with data := s.ed.work.data ++ d.val }) hp
        ⟨h3.tot, h3.rem⟩
      refine ⟨w, ?_, ?_, (takeEntry_taken _ _ _ _).trans ⟨e3.cur, e3.ns, e3.sl, e3.nb, e3.bl, e3.tot, e3.rem, e3.i⟩⟩
      · exact e1
      · rw [e2]; simp

/-- All the write loop does, as `readEntries_eq`. -/
theorem writeEntries_eq {data : List Byte} {done rest : List (Svc × BitVec 16)} {i : Nat} {s : State}
    (hp : s.ed.phase = .busy) (hc : CountsAt s.ed.work done rest) :
    ∃ w, writeEntries data rest i s =
        ((writeRun s.ed.svc data (marksFrom done rest) i s.app).1.map positionStatus,
          (s.setWork w).setApp (writeRun s.ed.svc data (marksFrom done rest) i s.app).2) ∧
      w.data = s.ed.work.data ∧ TakenFrom s.ed.work w i rest.length := by
  induction rest generalizing done i s with
  | nil =>
    exact ⟨s.ed.work, rfl, rfl, ⟨rfl, rfl, rfl, rfl, rfl, rfl, fun _ h => h, Or.inl rfl⟩⟩
  | cons e rest ih =>
    obtain ⟨h1, h2, h3⟩ := marks_of_counts (i := i) hc
    have hb := blockWrite_eq (s := s.setWork (takeEntry s.ed.work e.1 i)) hp
      (e.1, e.2, !done.any (fun f => f.1 == e.1), !rest.any (fun f => f.1 == e.1)) (blockSlice data i)
    simp only [writeEntries, h1, h2]
    simp only [State.setWork_ed, State.setWork_app] at hb
    rw [hb]
    simp only [marksFrom, writeRun]
    generalize appWrite s.ed.svc (e.1, e.2, !done.any (fun f => f.1 == e.1), !rest.any (fun f => f.1 == e.1))
      (blockSlice data i) s.app = r
    obtain ⟨r, a⟩ := r
    cases r with
    | false =>
      exact ⟨takeEntry s.ed.work e.1 i, rfl, by simp [takeEntry, takeOne], takeEntry_taken _ _ _ _⟩
    | true =>
      obtain ⟨w, e1, e2, e3⟩ := ih (done := done ++ [e]) (i := i + 1)
        (s := (s.setWork (takeEntry s.ed.work e.1 i)).setApp a) hp ⟨h3.tot, h3.rem⟩
      refine ⟨w, ?_, ?_, (takeEntry_taken _ _ _ _).trans ⟨e3.cur, e3.ns, e3.sl, e3.nb, e3.bl, e3.tot, e3.rem, e3.i⟩⟩
      · exact e1
      · rw [e2]; simp [takeEntry, takeOne]

theorem length_readRun_le (t : SvcTable) (ms : List (Svc × BitVec 16 × Bool × Bool)) (i : Nat) (a : App) :
    (readRun t ms i a).2.1.length ≤ 16 * ms.length := by
  induction ms generalizing i a with
  | nil => simp [readRun]
  | cons m ms ih =>
    simp only [readRun]
    split
    · simp
    · rename_i d a1 _
      have := ih (i + 1) a1
      have := d.property
      simp only [List.length_append, List.length_cons]
      omega

/-! ## The widths of the working registers (R28, R30) -/

theorem entries_of_parse {svc : SvcTable} {F : List Byte} {w : Work} (h10 : 10 ≤ F.length) (h255 : F.length ≤ 255)
    (h : parseLists svc F Work.cleared = (w, none)) :
    w.bl.length = w.nb.toNat ∧ w.data = [] ∧ CountsAt w [] w.bl ∧ w.fits := by
  obtain ⟨h1, h2, h3, h4, h5, -, h6⟩ := by simpa only [h] using parseLists_leaves svc F h10 h255
  obtain ⟨h7, h8, h9⟩ := h6 trivial
  have ht : ∀ c ∈ totals w.bl [], c.2 ≤ 255 := fun c hc => by
    have := totals_le w.bl (m := []) (k := 0) (by simp) c hc
    omega
  refine ⟨h7, h5, ⟨fun c => ?_, fun c => ?_⟩, h1, h2, h3, ?_, ?_, h4, by rw [h5]; simp⟩
  · rw [h8, countOf_totals]; simp [countOf, entriesOf]
  · rw [h9, countOf_totals]; simp [countOf]
  · rw [h8]; exact ht
  · rw [h9]; exact ht

theorem stopped_fits {svc : SvcTable} {F : List Byte} {w : Work} {st : Stop} (h10 : 10 ≤ F.length)
    (h255 : F.length ≤ 255) (h : parseLists svc F Work.cleared = (w, some st)) : w.fits := by
  obtain ⟨h1, h2, h3, h4, h5, h6, -⟩ := by simpa only [h] using parseLists_leaves svc F h10 h255
  obtain ⟨h8, h9⟩ := h6 rfl
  exact ⟨h1, h2, h3, by rw [h8]; simp, by rw [h9]; simp, h4, by rw [h5]; simp⟩

theorem TakenFrom.fits {w v : Work} {n : Nat} (h : TakenFrom w v 0 n) (hw : w.fits) (hn : n ≤ 255)
    (hd : v.data.length ≤ 240) : v.fits := by
  obtain ⟨h1, h2, h3, h4, h5, h6, -⟩ := hw
  refine ⟨by rw [h.cur]; exact h1, by rw [h.sl]; exact h2, by rw [h.bl]; exact h3, by rw [h.tot]; exact h4,
    h.rem 255 h5, ?_, hd⟩
  rcases h.i with h | h <;> omega

/-- READ_WO_ENC leaves the working registers within their widths. -/
theorem readWoEnc_fits {idm : Bytes 8} {F : List Byte} {s : State} (hp : s.ed.phase = .busy)
    (hw : s.ed.work = Work.cleared) (h10 : 10 ≤ F.length) (h255 : F.length ≤ 255) :
    (readWoEnc idm F s).2.ed.work.fits := by
  unfold readWoEnc
  rw [hw]
  split
  · rename_i w st he
    exact stopped_fits h10 h255 he
  · rename_i w he
    obtain ⟨h1, h2, h3, h4⟩ := entries_of_parse h10 h255 he
    by_cases ho : 13 + 16 * w.nb.toNat > Config.maxFrame
    · rw [if_pos ho]; exact h4
    · rw [if_neg ho]
      have ho : ¬ 13 + 16 * w.nb.toNat > 255 := ho
      obtain ⟨v, e1, e2, e3⟩ := readEntries_eq (s := s.setWork w) (i := 0) hp h3
      have hl := length_readRun_le s.ed.svc (marksFrom [] w.bl) 0 s.app
      rw [length_marksFrom] at hl
      simp only [State.setWork_ed, State.setWork_app] at e1 e2 e3
      have hf := e3.fits h4 (by omega) (by rw [e2, h2]; simp only [List.nil_append]; omega)
      rw [e1]
      cases (readRun s.ed.svc (marksFrom [] w.bl) 0 s.app).1 <;> exact hf

/-- WRITE_WO_ENC leaves the working registers within their widths. -/
theorem writeWoEnc_fits {idm : Bytes 8} {F : List Byte} {s : State} (hp : s.ed.phase = .busy)
    (hw : s.ed.work = Work.cleared) (h10 : 10 ≤ F.length) (h255 : F.length ≤ 255) :
    (writeWoEnc idm F s).2.ed.work.fits := by
  unfold writeWoEnc
  rw [hw]
  split
  · rename_i w st he
    exact stopped_fits h10 h255 he
  · rename_i w he
    obtain ⟨h1, h2, h3, h4⟩ := entries_of_parse h10 h255 he
    split
    · exact h4
    · obtain ⟨v, e1, e2, e3⟩ := writeEntries_eq (data := F.drop w.cur) (s := s.setWork w) (i := 0) hp h3
      simp only [State.setWork_ed, State.setWork_app] at e1 e2 e3
      have hf := e3.fits h4 (by have := w.nb.isLt; omega) (by rw [e2, h2]; simp)
      rw [e1]
      cases (writeRun s.ed.svc (F.drop w.cur) (marksFrom [] w.bl) 0 s.app).1 <;> exact hf

theorem cleared_fits : Work.cleared.fits := by decide

/-- A handler leaves the working registers within their widths. -/
theorem handleFrame_fits (idm : Bytes 8) (F : List Byte) {s : State} (hp : s.ed.phase = .busy)
    (hw : s.ed.work = Work.cleared) : (handleFrame idm F s).2.ed.work.fits := by
  have hc : s.ed.work.fits := by rw [hw]; exact cleared_fits
  unfold handleFrame
  split
  · exact hc
  split
  · exact hc
  rename_i hl
  split
  · exact hc
  split
  · split
    · exact hc
    rename_i h10
    have h255 : F.length ≤ 255 := by have := (byteAt F 0).isLt; omega
    split
    · exact hc
    unfold routeIdentified
    split
    · exact hc
    split
    · exact readWoEnc_fits hp hw (by omega) h255
    split
    · exact writeWoEnc_fits hp hw (by omega) h255
    · exact hc
  · exact hc

/-! ## What a DISPATCH can change -/

/-- A DISPATCH leaves the working registers within their widths, if they were before. -/
theorem dispatchFrame_fits (F : List Byte) {s : State} (h : s.ed.work.fits) : (dispatchFrame F s).2.ed.work.fits := by
  unfold dispatchFrame
  split
  · exact h
  split
  · exact h
  · rename_i idm _
    exact handleFrame_fits idm F (s := s.enterDispatch) rfl rfl

/-- A DISPATCH changes nothing but the working registers of ED and the application; a refused one changes nothing. -/
theorem dispatchFrame_inside (F : List Byte) (s : State) : InsideDispatch s (dispatchFrame F s).2 := by
  unfold dispatchFrame
  cases hp : s.ed.phase with
  | busy => rw [edGate_busy hp]; exact InsideDispatch.refl s
  | idle =>
    rw [edGate_idle hp]
    dsimp only
    split
    · exact InsideDispatch.refl s
    · rename_i idm _
      have h := handleFrame_inside idm F s.enterDispatch
      refine ⟨h.re, ?_, h.reader, h.emulator, h.transport, h.program, h.index, h.store⟩
      have he := h.ed
      simp only [State.leaveDispatch_ed]
      rw [he]
      simp [hp]

/-! ## What the emulation host does with a result (R37) -/

@[simp] theorem deliverResult_re (r : HostResult) (s : State) : (deliverResult r s).re = s.re := by
  unfold deliverResult; split <;> rfl
@[simp] theorem deliverResult_ed (r : HostResult) (s : State) : (deliverResult r s).ed = s.ed := by
  unfold deliverResult; split <;> rfl
@[simp] theorem deliverResult_reader (r : HostResult) (s : State) : (deliverResult r s).reader = s.reader := by
  unfold deliverResult; split <;> rfl
@[simp] theorem deliverResult_app (r : HostResult) (s : State) : (deliverResult r s).app = s.app := by
  unfold deliverResult; split <;> rfl
@[simp] theorem deliverResult_program (r : HostResult) (s : State) : (deliverResult r s).program = s.program := by
  unfold deliverResult; split <;> rfl
@[simp] theorem deliverResult_index (r : HostResult) (s : State) : (deliverResult r s).index = s.index := by
  unfold deliverResult; split <;> rfl
@[simp] theorem deliverResult_emulator (r : HostResult) (s : State) :
    (deliverResult r s).emulator = { results := s.emulator.results ++ [r] } := by
  unfold deliverResult; split <;> rfl

/-- The one transport call is send_response, for a response. -/
@[simp] theorem deliverResult_transport (r : HostResult) (s : State) :
    (deliverResult r s).transport =
      { s.transport with log := s.transport.log ++ (responseOf r).toList.map WireEvent.response } := by
  unfold deliverResult; split <;> rename_i h <;> simp [h]

end Sys2Proof.Machine
end

