-- ==== Sys2Proof/Laws/Reader.lean ====
section
/-! SUPPORT. The reader engine: what its checks read, what an exchange through an external transport can do, and what
READ_BLOCKS and WRITE_BLOCKS make of it. -/

namespace Sys2Proof.Machine

/-! ## The parameters of R9 -/

theorem Config.rdMaxBlocks_eq : Config.rdMaxBlocks = 15 := rfl
theorem Config.maxFrame_eq : Config.maxFrame = 255 := rfl

/-! ## What the serializers and the parsers read -/

theorem serRead_congr {s t : State} (h : t.re.idm = s.re.idm) : serRead t = serRead s := by
  funext svc blocks
  simp only [serRead, reIdm, h]

theorem serWrite_congr {s t : State} (h : t.re.idm = s.re.idm) : serWrite t = serWrite s := by
  funext svc blocks data
  simp only [serWrite, reIdm, h]

theorem readTimeout_congr {s t : State} (h : t.re.pmm = s.re.pmm) : readTimeout t = readTimeout s := by
  funext n
  simp only [readTimeout, rePmm, h]

theorem writeTimeout_congr {s t : State} (h : t.re.pmm = s.re.pmm) : writeTimeout t = writeTimeout s := by
  funext n
  simp only [writeTimeout, rePmm, h]

theorem parseReadRsp_congr {s t : State} (h : t.re.idm = s.re.idm) : parseReadRsp t = parseReadRsp s := by
  funext F n
  simp only [parseReadRsp, checkResponse, reIdm, h]

theorem parseWriteRsp_congr {s t : State} (h : t.re.idm = s.re.idm) : parseWriteRsp t = parseWriteRsp s := by
  funext F
  simp only [parseWriteRsp, checkResponse, reIdm, h]

/-! ## The errors of the serializers and the parsers -/

/-- A parser raises neither an ArgumentError nor, with RE.IDM loaded, Unconfigured. -/
theorem checkResponse_error {s : State} {F : List Byte} {rc : Byte} {e : Err} {idm : Bytes 8}
    (hi : s.re.idm = some idm) (h : checkResponse s F rc = .error e) :
    (∃ sub info, e = .framing sub info) ∨ ∃ a b, e = .command a b := by
  simp only [checkResponse, reIdm, hi] at h
  split at h
  · cases h; exact Or.inl ⟨_, _, rfl⟩
  split at h
  · cases h; exact Or.inl ⟨_, _, rfl⟩
  split at h
  · cases h; exact Or.inl ⟨_, _, rfl⟩
  split at h
  · cases h; exact Or.inl ⟨_, _, rfl⟩
  split at h
  · cases h; exact Or.inr ⟨_, _, rfl⟩
  · cases h

theorem parseReadRsp_error {s : State} {F : List Byte} {n : Nat} {e : Err} {idm : Bytes 8}
    (hi : s.re.idm = some idm) (h : parseReadRsp s F n = .error e) :
    (∃ sub info, e = .framing sub info) ∨ ∃ a b, e = .command a b := by
  unfold parseReadRsp at h
  split at h
  · rename_i e' he
    cases h
    exact checkResponse_error hi he
  · split at h
    · cases h; exact Or.inl ⟨_, _, rfl⟩
    split at h
    · cases h; exact Or.inl ⟨_, _, rfl⟩
    split at h
    · cases h; exact Or.inl ⟨_, _, rfl⟩
    · cases h

theorem parseWriteRsp_error {s : State} {F : List Byte} {e : Err} {idm : Bytes 8}
    (hi : s.re.idm = some idm) (h : parseWriteRsp s F = .error e) :
    (∃ sub info, e = .framing sub info) ∨ ∃ a b, e = .command a b := by
  unfold parseWriteRsp at h
  split at h
  · rename_i e' he
    cases h
    exact checkResponse_error hi he
  · split at h
    · cases h; exact Or.inl ⟨_, _, rfl⟩
    · cases h

/-- A request that is built had RE.IDM loaded. -/
theorem serRead_ok_idm {s : State} {svc : Svc} {blocks : List Nat} {F : List Byte}
    (h : serRead s svc blocks = .ok F) : ∃ idm, s.re.idm = some idm := by
  cases hi : s.re.idm with
  | none => simp [serRead, reIdm, hi] at h
  | some idm => exact ⟨idm, rfl⟩

theorem serWrite_ok_idm {s : State} {svc : Svc} {blocks : List Nat} {data F : List Byte}
    (h : serWrite s svc blocks data = .ok F) : ∃ idm, s.re.idm = some idm := by
  cases hi : s.re.idm with
  | none => simp [serWrite, reIdm, hi] at h
  | some idm => exact ⟨idm, rfl⟩

/-! ## The exchange -/

@[simp] theorem drawSend_link (t : Transport) : (drawSend t).2.link = t.link := by unfold drawSend; split <;> rfl
@[simp] theorem drawReceive_link (t : Transport) : (drawReceive t).2.link = t.link := by
  unfold drawReceive; split <;> rfl

/-- What the host sees of a Receive (R232). -/
def receiveResult : Option (List Byte) → Except Err (List Byte)
  | none => .error (.transport .noResponse)
  | some r => .ok r

/-- All an exchange through an external transport can do (R150): Send fails, with RE as it was; or RE waits, and is
idle again with what Receive returned. -/
theorem exchange_external {code : Byte} {n t : Nat} {frame : List Byte} {s : State} {ok : Bool}
    {tr tr' : Transport} {a : Option (List Byte)} (hl : s.transport.link = .external)
    (hs : drawSend s.transport = (ok, tr))
    (hr : drawReceive { tr with log := tr.log ++ [WireEvent.sent frame true] } = (a, tr')) :
    exchange code n t frame s =
      if ok then
        (receiveResult a,
          { s with re := { s.re with phase := .idle, pend := { code := code, n := byteOf n, t := BitVec.ofNat 16 t } }
                   transport := { tr' with log := tr'.log ++ [.received t a] } })
      else (.error (.transport .sendFail), s.setTransport { tr with log := tr.log ++ [.sent frame false] }) := by
  have htr : tr.link = .external := by have h := drawSend_link s.transport; rw [hs] at h; exact h.trans hl
  cases ok with
  | false => simp only [exchange, sendFrame, hl, hs]; rfl
  | true =>
    have e : receiveFrame t (((s.setTransport tr).logWire (.sent frame true)).awaitReply
        { code := code, n := byteOf n, t := BitVec.ofNat 16 t }) =
        (a, ((((s.setTransport tr).logWire (.sent frame true)).awaitReply
        { code := code, n := byteOf n, t := BitVec.ofNat 16 t }).setTransport tr').logWire (.received t a)) := by
      obtain ⟨link, a1, a2, a3, a4, a5, a6, a7⟩ := tr
      obtain rfl : link = .external := htr
      simp only [receiveFrame, State.awaitReply_transport, State.logWire_transport, State.setTransport_transport, hr]
    simp only [exchange, sendFrame, hl, hs, e]
    cases a <;> rfl

/-- READ_BLOCKS with RE idle and operands that its serializer takes is one exchange and the parse of its answer. -/
theorem readBlocks_eq {svc : Svc} {blocks : List Nat} {s : State} {frame : List Byte} {t : Nat}
    (hp : s.re.phase = .idle) (hf : serRead s svc blocks = .ok frame) (ht : readTimeout s blocks.length = .ok t) :
    readBlocks svc blocks s =
      Run.next (exchange 0x07 blocks.length t frame s) fun r s1 => (parseReadRsp s1 r blocks.length, s1) := by
  simp only [readBlocks, reGate_idle hp, hf, ht]

/-- WRITE_BLOCKS, as `readBlocks_eq`. -/
theorem writeBlocks_eq {svc : Svc} {blocks : List Nat} {data : List Byte} {s : State} {frame : List Byte} {t : Nat}
    (hp : s.re.phase = .idle) (hf : serWrite s svc blocks data = .ok frame)
    (ht : writeTimeout s blocks.length = .ok t) :
    writeBlocks svc blocks data s =
      Run.next (exchange 0x09 blocks.length t frame s) fun r s1 => (parseWriteRsp s1 r, s1) := by
  simp only [writeBlocks, reGate_idle hp, hf, ht]

/-! ## What an operation of RE can change -/

/-- `t` differs from `s` at most in RE.PEND and the transport, or also, over a loopback, in the working registers of ED,
the emulation-side host and the application; RE is idle if it was. -/
structure InsideExchange (s t : State) : Prop where
  idm : t.re.idm = s.re.idm
  pmm : t.re.pmm = s.re.pmm
  phase : s.re.phase = .idle → t.re.phase = .idle
  reader : t.reader = s.reader
  program : t.program = s.program
  index : t.index = s.index
  link : t.transport.link = s.transport.link
  ed : t.ed = { s.ed with work := t.ed.work }
  fits : s.ed.work.fits → t.ed.work.fits
  store : Memory.wf s.app.mem → Memory.wf t.app.mem
  external : s.transport.link = .external → t.ed = s.ed ∧ t.emulator = s.emulator ∧ t.app = s.app

theorem InsideExchange.refl (s : State) : InsideExchange s s :=
  ⟨rfl, rfl, id, rfl, rfl, rfl, rfl, rfl, id, id, fun _ => ⟨rfl, rfl, rfl⟩⟩

theorem InsideExchange.trans {s t u : State} (h : InsideExchange s t) (k : InsideExchange t u) :
    InsideExchange s u := by
  refine ⟨k.idm.trans h.idm, k.pmm.trans h.pmm, fun p => k.phase (h.phase p), k.reader.trans h.reader,
    k.program.trans h.program, k.index.trans h.index, k.link.trans h.link, ?_, fun w => k.fits (h.fits w),
    fun m => k.store (h.store m), fun e => ?_⟩
  · rw [k.ed, h.ed]
  · obtain ⟨h1, h2, h3⟩ := h.external e
    obtain ⟨k1, k2, k3⟩ := k.external (h.link.trans e)
    exact ⟨k1.trans h1, k2.trans h2, k3.trans h3⟩

/-- A DISPATCH with the delivery of its result, and one turn of the emulation host's loop, change neither RE nor the
reader-side host, nor what the transport will answer. -/
structure InsideServe (s t : State) : Prop where
  re : t.re = s.re
  reader : t.reader = s.reader
  program : t.program = s.program
  index : t.index = s.index
  transport : t.transport = { s.transport with waits := t.transport.waits, log := t.transport.log }
  ed : t.ed = { s.ed with work := t.ed.work }
  fits : s.ed.work.fits → t.ed.work.fits
  store : Memory.wf s.app.mem → Memory.wf t.app.mem

/-- A DISPATCH with the delivery of its result. -/
theorem deliverResult_inside (F : List Byte) (s : State) :
    InsideServe s (deliverResult (dispatchFrame F s).1 (dispatchFrame F s).2) := by
  have h := dispatchFrame_inside F s
  exact ⟨(deliverResult_re _ _).trans h.re, (deliverResult_reader _ _).trans h.reader,
    (deliverResult_program _ _).trans h.program, (deliverResult_index _ _).trans h.index,
    by rw [deliverResult_transport, h.transport], by rw [deliverResult_ed]; exact h.ed,
    fun w => by rw [deliverResult_ed]; exact dispatchFrame_fits F w,
    fun m => by rw [deliverResult_app]; exact h.store m⟩

theorem serveFrame_inside (F : List Byte) (s : State) : InsideServe s (serveFrame F s).2 := by
  have h := deliverResult_inside F (s.waited (some F))
  exact ⟨h.re, h.reader, h.program, h.index, h.transport, h.ed, h.fits, h.store⟩

/-- The arrival of a command frame changes neither RE nor the reader-side host, nor what the transport will answer to
Send and to Receive. -/
structure InsideArrival (s t : State) : Prop where
  re : t.re = s.re
  reader : t.reader = s.reader
  program : t.program = s.program
  index : t.index = s.index
  link : t.transport.link = s.transport.link
  sendScript : t.transport.sendScript = s.transport.sendScript
  recvScript : t.transport.recvScript = s.transport.recvScript
  ed : t.ed = { s.ed with work := t.ed.work }
  fits : s.ed.work.fits → t.ed.work.fits
  store : Memory.wf s.app.mem → Memory.wf t.app.mem

theorem InsideServe.arrival {s t : State} (h : InsideServe s t) : InsideArrival s t :=
  ⟨h.re, h.reader, h.program, h.index, by rw [h.transport], by rw [h.transport], by rw [h.transport], h.ed, h.fits,
    h.store⟩

theorem InsideArrival.trans {s t u : State} (h : InsideArrival s t) (k : InsideArrival t u) : InsideArrival s u := by
  refine ⟨k.re.trans h.re, k.reader.trans h.reader, k.program.trans h.program, k.index.trans h.index,
    k.link.trans h.link, k.sendScript.trans h.sendScript, k.recvScript.trans h.recvScript, ?_,
    fun w => k.fits (h.fits w), fun m => k.store (h.store m)⟩
  rw [k.ed, h.ed]

/-- The turns of the emulation host's loop, over any answers of wait_command. -/
theorem serveTurns_inside (F : List Byte) (answers : List (Option (List Byte))) (s : State) :
    InsideArrival s (serveTurns F answers s) := by
  induction answers generalizing s with
  | nil => exact (serveFrame_inside F s).arrival
  | cons a answers ih =>
    have h : InsideArrival s (s.setTransport { s.transport with waitScript := answers }) :=
      ⟨rfl, rfl, rfl, rfl, rfl, rfl, rfl, rfl, id, id⟩
    cases a with
    | none =>
      have k : InsideArrival s ((s.setTransport { s.transport with waitScript := answers }).waited none) :=
        ⟨rfl, rfl, rfl, rfl, rfl, rfl, rfl, rfl, id, id⟩
      exact k.trans (ih _)
    | some G => exact (h.trans (serveFrame_inside G _).arrival).trans (ih _)

theorem commandArrives_inside (F : List Byte) (s : State) : InsideArrival s (commandArrives F s) :=
  serveTurns_inside F _ s

/-- Send. -/
theorem sendFrame_inside (F : List Byte) (s : State) : InsideExchange s (sendFrame F s).2 := by
  unfold sendFrame
  split
  · exact ⟨rfl, rfl, id, rfl, rfl, rfl, by simp, rfl, id, id, fun _ => ⟨rfl, rfl, rfl⟩⟩
  · rename_i hl
    have h := serveFrame_inside F (s.logWire (.sent F true))
    refine ⟨congrArg Re.idm h.re, congrArg Re.pmm h.re, fun p => (congrArg Re.phase h.re).trans p, h.reader, h.program,
      h.index, ?_, h.ed, h.fits, h.store, fun e => ?_⟩
    · have := congrArg Transport.link h.transport
      simpa using this
    · rw [hl] at e; cases e

/-- Receive. -/
theorem receiveFrame_inside (t : Nat) (s : State) : InsideExchange s (receiveFrame t s).2 := by
  unfold receiveFrame
  split
  · exact ⟨rfl, rfl, id, rfl, rfl, rfl, by simp, rfl, id, id, fun _ => ⟨rfl, rfl, rfl⟩⟩
  · exact ⟨rfl, rfl, id, rfl, rfl, rfl, rfl, rfl, id, id, fun _ => ⟨rfl, rfl, rfl⟩⟩

/-- An exchange begins with RE as it is and leaves it idle, or, when Send fails, as it was. -/
theorem exchange_inside (code : Byte) (n t : Nat) (F : List Byte) (s : State) :
    InsideExchange s (exchange code n t F s).2 := by
  unfold exchange
  have h := sendFrame_inside F s
  generalize sendFrame F s = r at h
  obtain ⟨ok, s1⟩ := r
  cases ok with
  | false => exact h
  | true =>
    have k := receiveFrame_inside t (s1.awaitReply { code := code, n := byteOf n, t := BitVec.ofNat 16 t })
    dsimp only
    generalize receiveFrame t (s1.awaitReply { code := code, n := byteOf n, t := BitVec.ofNat 16 t }) = q at k
    obtain ⟨a, s2⟩ := q
    have m : InsideExchange s s2.endAwait :=
      h.trans ⟨k.idm, k.pmm, fun _ => rfl, k.reader, k.program, k.index, k.link, k.ed, k.fits, k.store, k.external⟩
    cases a <;> exact m

/-- An exchange raises TransportError or nothing (R232). -/
theorem exchange_error {code : Byte} {n t : Nat} {F : List Byte} {s s1 : State} {e : Err}
    (h : exchange code n t F s = (.error e, s1)) : ∃ sub, e = .transport sub := by
  unfold exchange at h
  split at h
  · cases h; exact ⟨_, rfl⟩
  · split at h <;> cases h
    exact ⟨_, rfl⟩

theorem readBlocks_inside (svc : Svc) (blocks : List Nat) (s : State) :
    InsideExchange s (readBlocks svc blocks s).2 := by
  unfold readBlocks
  split
  · exact InsideExchange.refl s
  split
  · exact InsideExchange.refl s
  split
  · exact InsideExchange.refl s
  · exact Run.next_keeps (exchange_inside _ _ _ _ s) fun _ _ h => h

theorem writeBlocks_inside (svc : Svc) (blocks : List Nat) (data : List Byte) (s : State) :
    InsideExchange s (writeBlocks svc blocks data s).2 := by
  unfold writeBlocks
  split
  · exact InsideExchange.refl s
  split
  · exact InsideExchange.refl s
  split
  · exact InsideExchange.refl s
  · exact Run.next_keeps (exchange_inside _ _ _ _ s) fun _ _ h => h

/-- What READ_BLOCKS raises as Refused, ArgumentError or Unconfigured, it raises before any call of the transport. -/
theorem readBlocks_error {svc : Svc} {blocks : List Nat} {s t : State} {e : Err}
    (h : readBlocks svc blocks s = (.error e, t)) :
    t = s ∨ (∃ sub, e = .transport sub) ∨ (∃ sub info, e = .framing sub info) ∨ ∃ a b, e = .command a b := by
  unfold readBlocks at h
  split at h
  · cases h; exact Or.inl rfl
  split at h
  · cases h; exact Or.inl rfl
  rename_i frame hf
  split at h
  · cases h; exact Or.inl rfl
  rename_i n hn
  obtain ⟨idm, hi⟩ := serRead_ok_idm hf
  have hk := exchange_inside 0x07 blocks.length n frame s
  generalize hx : exchange 0x07 blocks.length n frame s = r at h hk
  obtain ⟨r, s1⟩ := r
  cases r with
  | error e' => cases h; exact Or.inr (Or.inl (exchange_error hx))
  | ok F =>
    rw [Run.next_ok] at h
    injection h with h1 _
    exact Or.inr (Or.inr (parseReadRsp_error (hk.idm.trans hi) h1))

theorem writeBlocks_error {svc : Svc} {blocks : List Nat} {data : List Byte} {s t : State} {e : Err}
    (h : writeBlocks svc blocks data s = (.error e, t)) :
    t = s ∨ (∃ sub, e = .transport sub) ∨ (∃ sub info, e = .framing sub info) ∨ ∃ a b, e = .command a b := by
  unfold writeBlocks at h
  split at h
  · cases h; exact Or.inl rfl
  split at h
  · cases h; exact Or.inl rfl
  rename_i frame hf
  split at h
  · cases h; exact Or.inl rfl
  rename_i n hn
  obtain ⟨idm, hi⟩ := serWrite_ok_idm hf
  have hk := exchange_inside 0x09 blocks.length n frame s
  generalize hx : exchange 0x09 blocks.length n frame s = r at h hk
  obtain ⟨r, s1⟩ := r
  cases r with
  | error e' => cases h; exact Or.inr (Or.inl (exchange_error hx))
  | ok F =>
    rw [Run.next_ok] at h
    injection h with h1 _
    exact Or.inr (Or.inr (parseWriteRsp_error (hk.idm.trans hi) h1))

end Sys2Proof.Machine
end

