-- ==== Sys2Proof/Laws/Accessor.lean ====
section
/-! SUPPORT. The host sequences: what they can change. -/

namespace Sys2Proof.Machine

/-- `t` differs from `s` at most in CACHE and in what an operation of RE can change. -/
def InsideSequence (s t : State) : Prop := ∃ c, InsideExchange (s.setCache c) t

theorem InsideExchange.setCache {s t : State} (h : InsideExchange s t) (c : Option AttributeBlock) :
    InsideExchange (s.setCache c) (t.setCache c) :=
  ⟨h.idm, h.pmm, h.phase, by simp [h.reader], h.program, h.index, h.link, h.ed, h.fits, h.store, h.external⟩

theorem InsideExchange.sequence {s t : State} (h : InsideExchange s t) : InsideSequence s t := ⟨s.reader.cache, h⟩

theorem InsideSequence.refl (s : State) : InsideSequence s s := (InsideExchange.refl s).sequence

theorem InsideSequence.setCache (s : State) (c : Option AttributeBlock) : InsideSequence s (s.setCache c) :=
  ⟨c, InsideExchange.refl _⟩

theorem InsideSequence.trans {s t u : State} (h : InsideSequence s t) (k : InsideSequence t u) :
    InsideSequence s u := by
  obtain ⟨c, h⟩ := h
  obtain ⟨d, k⟩ := k
  exact ⟨d, (h.setCache d).trans k⟩

theorem getAttr_inside (s : State) : InsideSequence s (getAttr s).2 := by
  unfold getAttr
  split
  · exact InsideSequence.refl s
  · refine Run.next_keeps (readBlocks_inside _ _ s).sequence fun B t h => ?_
    split
    · exact h.trans (InsideSequence.setCache _ _)
    · exact h

theorem readChunks_inside (Cs : List (List Nat)) (D : List Byte) (s : State) :
    InsideExchange s (readChunks Cs D s).2 := by
  induction Cs generalizing D s with
  | nil => exact InsideExchange.refl s
  | cons C Cs ih => exact Run.next_keeps (readBlocks_inside _ _ s) fun p t h => h.trans (ih (D ++ p) t)

theorem writeChunks_inside (P : List Byte) (Cs : List (List Nat)) (k : Nat) (s : State) :
    InsideExchange s (writeChunks P Cs k s).2 := by
  induction Cs generalizing k s with
  | nil => exact InsideExchange.refl s
  | cons C Cs ih =>
    exact Run.next_keeps (writeBlocks_inside _ _ _ s) fun _ t h => h.trans (ih (k + C.length) t)

/-- A slice that lies inside the data is the data there (R175). -/
theorem chunkData_inside {P : List Byte} {k n : Nat} (h : 16 * (k + n) ≤ P.length) :
    chunkData P k n = (P.drop (16 * k)).take (16 * n) := by
  rw [chunkData, if_pos h, slice]
  congr 1
  omega

theorem readChunked_inside (X : List Nat) (lim : Nat) (s : State) : InsideExchange s (readChunked X lim s).2 := by
  unfold readChunked
  split
  · exact InsideExchange.refl s
  · exact readChunks_inside _ _ s

theorem writeChunked_inside (X : List Nat) (P : List Byte) (lim : Nat) (s : State) :
    InsideExchange s (writeChunked X P lim s).2 := by
  unfold writeChunked
  split
  · exact InsideExchange.refl s
  · exact writeChunks_inside _ _ _ s

theorem ndefGet_inside (s : State) : InsideSequence s (ndefGet s).2 := by
  have h : InsideSequence s (ndefGetSteps s).2 := by
    unfold ndefGetSteps
    refine Run.next_keeps (getAttr_inside s) fun ab t h => ?_
    split
    · exact h
    · exact Run.next_keeps (h.trans (readChunked_inside _ _ t).sequence) fun _ _ k => k
  exact h.trans (InsideSequence.setCache _ _)

theorem ndefSetWrites_inside (data : List Byte) (ab : AttributeBlock) (s : State) :
    InsideExchange s (ndefSetWrites data ab s).2 := by
  unfold ndefSetWrites
  split
  · exact InsideExchange.refl s
  · refine Run.next_keeps (writeBlocks_inside _ _ _ s) fun _ t h => ?_
    refine Run.next_keeps (h.trans (writeChunked_inside _ _ _ t)) fun _ u k => ?_
    exact k.trans (writeBlocks_inside _ _ _ u)

theorem ndefSet_inside (data : List Byte) (s : State) : InsideSequence s (ndefSet data s).2 := by
  have h : InsideSequence s (ndefSetSteps data s).2 := by
    unfold ndefSetSteps
    refine Run.next_keeps (getAttr_inside s) fun ab t h => ?_
    split
    · exact h
    split
    · exact h
    · refine Run.next_keeps ((h.trans (InsideSequence.setCache t none)).trans (getAttr_inside _)) fun ab2 u k => ?_
      exact k.trans (ndefSetWrites_inside _ _ u).sequence
  exact h.trans (InsideSequence.setCache _ _)

end Sys2Proof.Machine
end

