-- ==== Sys2Proof/Laws/Codec.lean ====
section
/-! SUPPORT. Each operand decoder reads back what its encoder wrote, and leaves the bytes after it. -/

namespace Sys2Proof

open Machine

variable {α β : Type}

theorem Dec.next_of_ok {p : Dec α} {k : α → Dec β} {bs rest : List Byte} {a : α} (h : p bs = .ok (a, rest)) :
    Dec.next p k bs = k a rest := by simp [Dec.next, h]

@[simp] theorem Dec.done_apply (a : α) (bs : List Byte) : Dec.done a bs = .ok (a, bs) := rfl
@[simp] theorem Dec.fail_apply (e : DecodeError) (bs : List Byte) : (Dec.fail e : Dec α) bs = .error e := rfl

@[simp] theorem decByte_cons (b : Byte) (rest : List Byte) : decByte (b :: rest) = .ok (b, rest) := rfl

/-- Reading one byte, then going on. -/
@[simp] theorem Dec.next_decByte_cons (k : Byte → Dec β) (b : Byte) (rest : List Byte) :
    Dec.next decByte k (b :: rest) = k b rest := rfl

theorem decBytes_append {n : Nat} (v : Bytes n) (rest : List Byte) :
    decBytes n (v.val ++ rest) = .ok (v, rest) := by
  obtain ⟨l, rfl⟩ := v
  simp [decBytes, Bytes.ofList?]

@[simp] theorem Dec.next_decBytes_append {n : Nat} (k : Bytes n → Dec β) (v : Bytes n) (rest : List Byte) :
    Dec.next (decBytes n) k (v.val ++ rest) = k v rest := Dec.next_of_ok (decBytes_append v rest)

theorem decNat_encNatDigits {fuel n : Nat} (h : n ≤ fuel) (rest : List Byte) :
    decNat (encNatDigits fuel n ++ rest) = .ok (n, rest) := by
  induction fuel generalizing n with
  | zero =>
    obtain rfl : n = 0 := by omega
    simp [encNatDigits, decNat, byteOf]
  | succ fuel ih =>
    simp only [encNatDigits]
    split
    · rename_i hn
      have : (byteOf n).toNat = n := by simp [byteOf]; omega
      simp [decNat, this, hn]
    · rename_i hn
      have hb : (byteOf (128 + n % 128)).toNat = 128 + n % 128 := by simp [byteOf]; omega
      simp only [List.cons_append, decNat, hb, ih (n := n / 128) (by omega)]
      rw [if_neg (by omega)]
      simp only [Except.ok.injEq, Prod.mk.injEq, and_true]
      omega

theorem decNat_encNat (n : Nat) (rest : List Byte) : decNat (encNat n ++ rest) = .ok (n, rest) :=
  decNat_encNatDigits (Nat.le_refl n) rest

@[simp] theorem Dec.next_decNat_append (k : Nat → Dec β) (n : Nat) (rest : List Byte) :
    Dec.next decNat k (encNat n ++ rest) = k n rest := Dec.next_of_ok (decNat_encNat n rest)

theorem decNats_flatMap (ns : List Nat) (rest : List Byte) :
    decNats ns.length (ns.flatMap encNat ++ rest) = .ok (ns, rest) := by
  induction ns with
  | nil => rfl
  | cons n ns ih =>
    simp only [List.length_cons, decNats, List.flatMap_cons, List.append_assoc, Dec.next_decNat_append]
    exact Dec.next_of_ok ih

theorem decNatList_encNatList (ns : List Nat) (rest : List Byte) :
    decNatList (encNatList ns ++ rest) = .ok (ns, rest) := by
  simp only [decNatList, encNatList, List.append_assoc, Dec.next_decNat_append]
  exact decNats_flatMap ns rest

@[simp] theorem Dec.next_decNatList_append (k : List Nat → Dec β) (ns : List Nat) (rest : List Byte) :
    Dec.next decNatList k (encNatList ns ++ rest) = k ns rest := Dec.next_of_ok (decNatList_encNatList ns rest)

theorem decByteList_encByteList (l rest : List Byte) :
    decByteList (encByteList l ++ rest) = .ok (l, rest) := by
  simp only [decByteList, encByteList, List.append_assoc, Dec.next_decNat_append]
  rw [Dec.next_of_ok (decBytes_append (⟨l, rfl⟩ : Bytes l.length) rest)]
  rfl

@[simp] theorem Dec.next_decByteList_append (k : List Byte → Dec β) (l rest : List Byte) :
    Dec.next decByteList k (encByteList l ++ rest) = k l rest := Dec.next_of_ok (decByteList_encByteList l rest)

/-- A 16-bit value is the pair of its high and its low byte. -/
@[simp] theorem pair16_extract (v : BitVec 16) : pair16 (v.extractLsb' 8 8) (v.extractLsb' 0 8) = v := by
  apply BitVec.eq_of_toNat_eq
  simp only [pair16, BitVec.toNat_append, BitVec.extractLsb'_toNat]
  rw [← Nat.shiftLeft_add_eq_or_of_lt (by omega)]
  simp [Nat.shiftRight_eq_div_pow, Nat.shiftLeft_eq]
  omega

/-- The number a byte pair makes. -/
theorem toNat_append_byte {k : Nat} (hi : BitVec k) (lo : Byte) : (hi ++ lo).toNat = hi.toNat * 256 + lo.toNat := by
  rw [BitVec.toNat_append, ← Nat.shiftLeft_add_eq_or_of_lt lo.isLt, Nat.shiftLeft_eq]

theorem pair16_toNat (hi lo : Byte) : (pair16 hi lo).toNat = hi.toNat * 256 + lo.toNat := toNat_append_byte hi lo

theorem triple24_toNat (hi mid lo : Byte) :
    (triple24 hi mid lo).toNat = hi.toNat * 65536 + mid.toNat * 256 + lo.toNat := by
  have h : (mid ++ lo).toNat = mid.toNat * 256 + lo.toNat := toNat_append_byte mid lo
  have hlt := (mid ++ lo).isLt
  simp only [triple24]
  rw [BitVec.toNat_append, ← Nat.shiftLeft_add_eq_or_of_lt hlt, Nat.shiftLeft_eq, h]
  omega

/-- A 24-bit value is the triple of its bytes. -/
@[simp] theorem triple24_extract (v : BitVec 24) :
    triple24 (v.extractLsb' 16 8) (v.extractLsb' 8 8) (v.extractLsb' 0 8) = v := by
  apply BitVec.eq_of_toNat_eq
  simp only [triple24_toNat, BitVec.extractLsb'_toNat, Nat.shiftRight_eq_div_pow]
  omega

@[simp] theorem decSvc_le16 (v : Svc) (rest : List Byte) : decSvc (le16 v ++ rest) = .ok (v, rest) := by
  simp [decSvc, le16]

@[simp] theorem Dec.next_decSvc_append (k : Svc → Dec β) (v : Svc) (rest : List Byte) :
    Dec.next decSvc k (le16 v ++ rest) = k v rest := Dec.next_of_ok (decSvc_le16 v rest)

@[simp] theorem Dec.next_decBool_append (k : Bool → Dec β) (b : Bool) (rest : List Byte) :
    Dec.next decBool k (encBool b ++ rest) = k b rest := by
  refine Dec.next_of_ok ?_
  cases b <;> rfl

@[simp] theorem Dec.next_decReadCb_append (k : ReadCb → Dec β) (c : ReadCb) (rest : List Byte) :
    Dec.next decReadCb k (encReadCb c ++ rest) = k c rest := by
  refine Dec.next_of_ok ?_
  cases c <;> simp [decReadCb, encReadCb]

@[simp] theorem Dec.next_decWriteCb_append (k : WriteCb → Dec β) (c : WriteCb) (rest : List Byte) :
    Dec.next decWriteCb k (encWriteCb c ++ rest) = k c rest := by
  refine Dec.next_of_ok ?_
  cases c <;> simp [decWriteCb, encWriteCb]

/-- A byte made of two nibbles gives them back. -/
theorem nibbles_extract (hi lo : BitVec 4) :
    (hi ++ lo : Byte).extractLsb' 4 4 = hi ∧ (hi ++ lo : Byte).extractLsb' 0 4 = lo := by
  revert hi lo
  decide

theorem decAttr_encAttr (ab : AttributeBlock) (rest : List Byte) :
    decAttr (encAttr ab ++ rest) = .ok (ab, rest) := by
  simp [decAttr, encAttr, be24, nibbles_extract]

@[simp] theorem Dec.next_decAttr_append (k : AttributeBlock → Dec β) (ab : AttributeBlock) (rest : List Byte) :
    Dec.next decAttr k (encAttr ab ++ rest) = k ab rest := Dec.next_of_ok (decAttr_encAttr ab rest)

theorem decFrame_encFrame (mk : Byte → List Byte → Instr) (len : Byte) (l rest : List Byte) :
    decFrame mk (encFrame len l ++ rest) = .ok (mk len l, rest) := by
  simp [decFrame, encFrame]

/-- All the decoder can do with an item whose operands are read: it refuses an instruction that is not well formed, and
bytes that are left over. -/
theorem decode_cons {selector : Byte} {operands left : List Byte} {i : Instr}
    (h : decOperands selector operands = .ok (i, left)) :
    decode (selector :: operands) =
      if i.wf then (if left = [] then .ok i else .error .trailing) else .error .illFormed := by
  have e : decItem (selector :: operands) = checkWf i left := by
    simp only [decItem, Dec.next_decByte_cons]
    exact Dec.next_of_ok h
  rw [decode, e, checkWf]
  cases i.wf <;> cases left <;> rfl

/-- An item whose operands are not read is refused. -/
theorem decode_cons_error {selector : Byte} {operands : List Byte} {e : DecodeError}
    (h : decOperands selector operands = .error e) : decode (selector :: operands) = .error e := by
  have k : decItem (selector :: operands) = .error e := by
    rw [decItem, Dec.next_decByte_cons, Dec.next, h]
  rw [decode, k]

end Sys2Proof
end

