-- ==== Sys2Proof/Laws/PerInstr.lean ====
section
/-! SUPPORT. Statements made per instruction: the operand decoder that an instruction's selector names reads back the
operands its encoder wrote. -/

namespace Sys2Proof.Laws.OperandsReadBack

/-- The operands of `i`, written by the encoder, are read back to the last byte; bytes after them are left over, or make
the operand ill formed. -/
def Statement (i : Instr) : Prop :=
  ∀ rest : List Byte, ∃ (j : Instr) (left : List Byte),
    decOperands i.selector (encOperands i ++ rest) = .ok (j, left) ∧ (rest = [] → j = i ∧ left = []) ∧
    (rest ≠ [] → i.wf = true → left ≠ [] ∨ j.wf = false)

/-- An instruction whose operands end themselves. -/
theorem of_append {i : Instr} (h : ∀ rest, decOperands i.selector (encOperands i ++ rest) = .ok (i, rest)) :
    Statement i := fun rest => ⟨i, rest, h rest, fun e => ⟨rfl, e⟩, fun n _ => .inl n⟩

theorem loadTag (idm pmm : Bytes 8) : Statement (.loadTag idm pmm) := of_append fun rest => by
  simp [Instr.selector, decOperands, encOperands]

theorem timeoutRd (n : Nat) : Statement (.timeoutRd n) := of_append fun rest => by
  simp [Instr.selector, decOperands, encOperands]

theorem timeoutWr (n : Nat) : Statement (.timeoutWr n) := of_append fun rest => by
  simp [Instr.selector, decOperands, encOperands]

theorem serRead (svc : Svc) (blocks : List Nat) : Statement (.serRead svc blocks) := of_append fun rest => by
  simp [Instr.selector, decOperands, encOperands]

theorem serWrite (svc : Svc) (blocks : List Nat) (data : List Byte) : Statement (.serWrite svc blocks data) :=
    of_append fun rest => by
  simp [Instr.selector, decOperands, encOperands]

theorem parseReadRsp (frame : List Byte) (n : Nat) : Statement (.parseReadRsp frame n) := of_append fun rest => by
  simp [Instr.selector, decOperands, encOperands]

theorem parseWriteRsp (frame : List Byte) : Statement (.parseWriteRsp frame) := of_append fun rest => by
  simp [Instr.selector, decOperands, encOperands]

theorem readBlocks (svc : Svc) (blocks : List Nat) : Statement (.readBlocks svc blocks) := of_append fun rest => by
  simp [Instr.selector, decOperands, encOperands]

theorem writeBlocks (svc : Svc) (blocks : List Nat) (data : List Byte) : Statement (.writeBlocks svc blocks data) :=
    of_append fun rest => by
  simp [Instr.selector, decOperands, encOperands]

theorem attrParse (b : List Byte) : Statement (.attrParse b) := fun rest =>
  ⟨.attrParse (b ++ rest), [], rfl, fun e => by simp [e], fun n w => .inr (by
    have := List.length_pos_of_ne_nil n
    simp only [Instr.wf, decide_eq_true_eq, decide_eq_false_iff_not, List.length_append] at w ⊢
    omega)⟩

theorem attrSerialize (ab : AttributeBlock) : Statement (.attrSerialize ab) := of_append fun rest => by
  simp [Instr.selector, decOperands, encOperands]

theorem attrCheck (b : List Byte) : Statement (.attrCheck b) := fun rest =>
  ⟨.attrCheck (b ++ rest), [], rfl, fun e => by simp [e], fun n w => .inr (by
    have := List.length_pos_of_ne_nil n
    simp only [Instr.wf, decide_eq_true_eq, decide_eq_false_iff_not, List.length_append] at w ⊢
    omega)⟩

theorem loadIdentity (idm pmm : Bytes 8) (sys : Bytes 2) : Statement (.loadIdentity idm pmm sys) :=
    of_append fun rest => by
  simp [Instr.selector, decOperands, encOperands]

theorem registerService (code : Svc) (rd : ReadCb) (wr : WriteCb) : Statement (.registerService code rd wr) :=
    of_append fun rest => by
  simp [Instr.selector, decOperands, encOperands]

theorem dispatch (frame : List Byte) : Statement (.dispatch frame) := of_append fun rest => by
  simp [Instr.selector, decOperands, encOperands]

theorem getAttr : Statement .getAttr := of_append fun rest => by
  simp [Instr.selector, decOperands, encOperands]

theorem readChunked (blocks : List Nat) (limit : Nat) : Statement (.readChunked blocks limit) :=
    of_append fun rest => by
  simp [Instr.selector, decOperands, encOperands]

theorem writeChunked (blocks : List Nat) (data : List Byte) (limit : Nat) : Statement (.writeChunked blocks data limit) :=
    of_append fun rest => by
  simp [Instr.selector, decOperands, encOperands]

theorem ndefGet : Statement .ndefGet := of_append fun rest => by
  simp [Instr.selector, decOperands, encOperands]

theorem ndefSet (data : List Byte) : Statement (.ndefSet data) := of_append fun rest => by
  simp [Instr.selector, decOperands, encOperands]

theorem pollingCmd (len : Byte) (rest : List Byte) : Statement (.pollingCmd len rest) := of_append fun tail => by
  simp [Instr.selector, decOperands, encOperands, decFrame_encFrame]

theorem pollingRsp (len : Byte) (rest : List Byte) : Statement (.pollingRsp len rest) := of_append fun tail => by
  simp [Instr.selector, decOperands, encOperands, decFrame_encFrame]

theorem requestResponseCmd (len : Byte) (rest : List Byte) : Statement (.requestResponseCmd len rest) := of_append fun tail => by
  simp [Instr.selector, decOperands, encOperands, decFrame_encFrame]

theorem requestResponseRsp (len : Byte) (rest : List Byte) : Statement (.requestResponseRsp len rest) := of_append fun tail => by
  simp [Instr.selector, decOperands, encOperands, decFrame_encFrame]

theorem readWoEncCmd (len : Byte) (rest : List Byte) : Statement (.readWoEncCmd len rest) := of_append fun tail => by
  simp [Instr.selector, decOperands, encOperands, decFrame_encFrame]

theorem readWoEncRsp (len : Byte) (rest : List Byte) : Statement (.readWoEncRsp len rest) := of_append fun tail => by
  simp [Instr.selector, decOperands, encOperands, decFrame_encFrame]

theorem writeWoEncCmd (len : Byte) (rest : List Byte) : Statement (.writeWoEncCmd len rest) := of_append fun tail => by
  simp [Instr.selector, decOperands, encOperands, decFrame_encFrame]

theorem writeWoEncRsp (len : Byte) (rest : List Byte) : Statement (.writeWoEncRsp len rest) := of_append fun tail => by
  simp [Instr.selector, decOperands, encOperands, decFrame_encFrame]

theorem requestSystemCodeCmd (len : Byte) (rest : List Byte) : Statement (.requestSystemCodeCmd len rest) := of_append fun tail => by
  simp [Instr.selector, decOperands, encOperands, decFrame_encFrame]

theorem requestSystemCodeRsp (len : Byte) (rest : List Byte) : Statement (.requestSystemCodeRsp len rest) := of_append fun tail => by
  simp [Instr.selector, decOperands, encOperands, decFrame_encFrame]

end Sys2Proof.Laws.OperandsReadBack
end

