-- ==== Sys2Proof/Tests/Slice0.lean ====
section
/-! SUPPORT. Tests: the checks of WellFormed, items written out by hand and what they decode to, vectors of
95_test_vectors.md (its vector number stands beside each), and for every statement with hypotheses a state and
operands that meet them all (`test_hyps_…`). -/

namespace Sys2Proof.Tests

open Machine Claims

/-! ## Benches (95_test_vectors.md section 0) -/

/-- IDm of the benches. -/
def idm : Bytes 8 := ⟨[1, 2, 3, 4, 5, 6, 7, 8], rfl⟩
/-- PMm of the benches. -/
def pmm : Bytes 8 := ⟨[0x00, 0x01, 0xFF, 0xFF, 0xFF, 0x4B, 0x8A, 0xFF], rfl⟩
/-- System code of the benches. -/
def sys : Bytes 2 := ⟨[0x12, 0xFC], rfl⟩
/-- `x*16`. -/
def fill (x : Byte) : Block := ⟨List.replicate 16 x, rfl⟩
/-- The ATTR example block. -/
def attrBlock : Block := ⟨[0x10, 4, 1, 0, 0x0D, 0, 0, 0, 0, 0, 1, 0, 0, 0x14, 0, 0x37], rfl⟩
/-- A3's block: not writeable. -/
def readOnlyBlock : Block := ⟨[0x10, 4, 1, 0, 0x0D, 0, 0, 0, 0, 0, 0, 0, 0, 0x14, 0, 0x36], rfl⟩
/-- A6's block: the checksum bytes swapped. -/
def badBlock : Block := ⟨[0x10, 4, 1, 0, 0x0D, 0, 0, 0, 0, 0, 1, 0, 0, 0x14, 0x37, 0], rfl⟩
/-- The record of the ATTR example. -/
def attrRec : AttributeBlock :=
  { verMajor := 1, verMinor := 0, nbr := 4, nbw := 1, nmaxb := 13, rsv := ⟨[0, 0, 0, 0], rfl⟩, wip := false,
    writeable := true, ln := 20 }

/-- Bench R, with the transport's answers. -/
def benchR (sends : List Bool) (answers : List (Option (List Byte))) : State :=
  { State.reset with
    re := { State.reset.re with idm := some idm, pmm := some pmm }
    transport := { State.reset.transport with sendScript := sends, recvScript := answers } }

/-- The services of bench E1. -/
def services : SvcTable :=
  [(0x0009, { rd := .store 0 16, wr := .store 0 16 }), (0x000B, { rd := .store 0 16, wr := .readOnly })]

/-- Bench E1 with the blocks a test uses. -/
def benchE (blocks : List (BitVec 16 × Block)) : State :=
  { State.reset with
    ed := { State.reset.ed with idm := some idm, pmm := some pmm, sys := some sys, svc := services }
    app := { State.reset.app with mem := blocks.foldl (fun m b => Memory.writeBlock m 0 b.1 b.2.val) [] } }

/-- Bench L. -/
def benchL (blocks : List (BitVec 16 × Block)) : State :=
  { benchE blocks with
    re := { State.reset.re with idm := some idm, pmm := some pmm }
    transport := { State.reset.transport with link := .loopback } }

/-- An ED whose service 0x000B has drawn callbacks. -/
def benchD (reads : List ReadReply) (writes : List WriteReply) : State :=
  { benchE [] with
    ed := { (benchE []).ed with svc := [(0x000B, { rd := .drawn 0, wr := .drawn 1 })] }
    app := { State.reset.app with readScript := reads, writeScript := writes } }

/-- A state with both units busy. -/
def busy : State :=
  { benchE [] with
    re := { idm := some idm, pmm := some pmm, phase := .await, pend := { code := 0x07, n := 1, t := 12 } }
    ed := { (benchE []).ed with phase := .busy } }

/-- The last result of the reader-side host. -/
def told (o : Host.Outcome State Fault Refusal) : Option HostResult :=
  match o with
  | .next t => t.reader.results.getLast?
  | _ => none

/-- The last result of the emulation-side host. -/
def toldEmulator (o : Host.Outcome State Fault Refusal) : Option HostResult :=
  match o with
  | .next t => t.emulator.results.getLast?
  | _ => none

/-- The frame of that result, when it is a response. -/
def answered (o : Host.Outcome State Fault Refusal) : Option (List Byte) := (toldEmulator o).bind responseOf

/-- A block of the store after a step. -/
def blockAfter (blk : BitVec 16) (o : Host.Outcome State Fault Refusal) : Option (List Byte) :=
  match o with
  | .next t => some (Memory.readBlock t.app.mem 0 blk).val
  | _ => none

/-- The transport calls after a step. -/
def wire (o : Host.Outcome State Fault Refusal) : List WireEvent :=
  match o with
  | .next t => t.transport.log
  | _ => []

/-! ## WellFormed -/

/-- R112, R80: 15 and 17 bytes for a block, of either operation. -/
theorem test_wf_attr : (Instr.attrParse (attrBlock.val.take 15)).wf = false ∧
    (Instr.attrParse (attrBlock.val ++ [0])).wf = false ∧ (Instr.attrCheck (attrBlock.val.take 15)).wf = false ∧
    (Instr.attrCheck (attrBlock.val ++ [0])).wf = false := by decide
theorem test_wf_accepts : (Instr.attrParse attrBlock.val).wf = true ∧ (Instr.attrCheck attrBlock.val).wf = true ∧
    (Instr.registerService 9 (.store 0 65537) .readOnly).wf = true ∧
    (Instr.writeChunked [1] (zeros 15) 1).wf = true := by decide
/-- R112: the decoder refuses a block that is not 16 bytes. -/
theorem test_decode_refuses_ill_formed : decode [0x30, 1, 2, 3] = .error .illFormed ∧
    decode (0x30 :: (attrBlock.val ++ [0])) = .error .illFormed ∧
    decode (0x32 :: attrBlock.val.take 15) = .error .illFormed ∧ decode [0x32] = .error .illFormed := by decide
/-- R80; and an item that goes on after its last operand (log 3). -/
theorem test_decode_refuses : decode [0x13] = .error (.noSuchOperation 0x13) ∧ decode [] = .error .truncated ∧
    decode [0x22, 3, 1, 2] = .error .truncated ∧ decode [0x02, 0, 0] = .error (.noSuchOperation 0x02) ∧
    decode [0x42, 3, 0x03, 0x04, 0xFF, 0x99] = .error .trailing ∧ decode [0x83, 0] = .error .trailing := by decide

/-! ## Decoding: items written out from R80, R93, R98 and the operand layout of log 3 -/

theorem test_decode_loadTag : decode ([0x10] ++ [1, 2, 3, 4, 5, 6, 7, 8] ++
    [0x00, 0x01, 0xFF, 0xFF, 0xFF, 0x4B, 0x8A, 0xFF]) = .ok (.loadTag idm pmm) := by decide
/-- 300 is AC 02 in base 128. -/
theorem test_decode_timeout : decode [0x11, 0xAC, 0x02] = .ok (.timeoutRd 300) ∧
    decode [0x12, 0x0D] = .ok (.timeoutWr 13) := by decide
/-- 256 is 80 02 in base 128. -/
theorem test_decode_ser : decode [0x20, 0x0B, 0x00, 2, 1, 0x80, 0x02] = .ok (.serRead 0x000B [1, 256]) ∧
    decode [0x21, 0x34, 0x12, 1, 5, 2, 0xAA, 0xBB] = .ok (.serWrite 0x1234 [5] [0xAA, 0xBB]) := by decide
theorem test_decode_parse : decode [0x22, 3, 0x0C, 0x07, 0x01, 4] = .ok (.parseReadRsp [0x0C, 0x07, 0x01] 4) ∧
    decode [0x23, 2, 0x0C, 0x09] = .ok (.parseWriteRsp [0x0C, 0x09]) := by decide
theorem test_decode_blocks : decode [0x24, 0x0B, 0x00, 1, 7] = .ok (.readBlocks 0x000B [7]) ∧
    decode [0x25, 0x09, 0x00, 1, 7, 1, 0xEE] = .ok (.writeBlocks 0x0009 [7] [0xEE]) := by decide
theorem test_decode_attr : decode (0x30 :: attrBlock.val) = .ok (.attrParse attrBlock.val) ∧
    decode (0x32 :: attrBlock.val) = .ok (.attrCheck attrBlock.val) := by decide
/-- Version 1.0, nbr 4, nbw 1, nmaxb 13, four zeros, wip 0, writeable 1, ln 20. -/
theorem test_decode_attrSerialize :
    decode [0x31, 0x10, 4, 1, 0x0D, 0, 0, 0, 0, 0, 0, 1, 0x14, 0, 0] = .ok (.attrSerialize attrRec) := by decide
theorem test_decode_loadIdentity : decode ([0x40] ++ [1, 2, 3, 4, 5, 6, 7, 8] ++
    [0x00, 0x01, 0xFF, 0xFF, 0xFF, 0x4B, 0x8A, 0xFF] ++ [0x12, 0xFC]) = .ok (.loadIdentity idm pmm sys) := by
  decide
theorem test_decode_registerService :
    decode [0x41, 0x0B, 0x00, 1, 2, 0, 16, 2] = .ok (.registerService 0x000B (.store 2 16) .readOnly) ∧
    decode [0x41, 0x09, 0x00, 0, 5, 0, 6] = .ok (.registerService 0x0009 (.drawn 5) (.drawn 6)) := by decide
theorem test_decode_dispatch : decode [0x42, 3, 0x03, 0x04, 0xFF] = .ok (.dispatch [0x03, 0x04, 0xFF]) :=
  by decide
theorem test_decode_sequences : decode [0x80] = .ok .getAttr ∧
    decode [0x81, 2, 1, 2, 4] = .ok (.readChunked [1, 2] 4) ∧
    decode ([0x82, 1, 1, 16] ++ (fill 9).val ++ [1]) = .ok (.writeChunked [1] (fill 9).val 1) ∧
    decode [0x83] = .ok .ndefGet ∧ decode [0x84, 2, 0xAA, 0xBB] = .ok (.ndefSet [0xAA, 0xBB]) := by decide
theorem test_decode_command_frames :
    decode [0x00, 6, 4, 0x12, 0xFC, 1, 0] = .ok (.pollingCmd 6 [0x12, 0xFC, 1, 0]) ∧
    decode [0x04, 10, 0] = .ok (.requestResponseCmd 10 []) ∧
    decode [0x06, 10, 1, 5] = .ok (.readWoEncCmd 10 [5]) ∧
    decode [0x08, 10, 1, 5] = .ok (.writeWoEncCmd 10 [5]) ∧
    decode [0x0C, 10, 0] = .ok (.requestSystemCodeCmd 10 []) := by decide
theorem test_decode_response_frames :
    decode [0x01, 18, 0] = .ok (.pollingRsp 18 []) ∧ decode [0x05, 11, 0] = .ok (.requestResponseRsp 11 []) ∧
    decode [0x07, 12, 1, 5] = .ok (.readWoEncRsp 12 [5]) ∧
    decode [0x09, 12, 1, 5] = .ok (.writeWoEncRsp 12 [5]) ∧
    decode [0x0D, 13, 0] = .ok (.requestSystemCodeRsp 13 []) := by decide
/-- A table word: the selector alone, zeros above. -/
theorem test_table_word : decodeTableWord 8 0x83 = some .ndefGet ∧ decodeTableWord 8 0x11 = some (.timeoutRd 0) ∧
    decodeTableWord 8 0x13 = none := by decide
/-- A step runs the word stored for it (T5: TIMEOUT_RD before any LOAD_TAG). -/
theorem test_step_runs_word :
    told (step (State.reset.withFetchWord 8 0x11)) = some (.err (.unconfigured .reTag)) := by decide

/-! ## Vectors: attribute codec and timing -/

/-- A1 -/
theorem test_attrParse : told (exec (.attrParse attrBlock.val) State.reset) = some (.ok (.parsed attrRec true false)) := by
  decide
/-- A8: byte 9 = 0x01 -/
theorem test_attrParse_nonstd :
    told (exec (.attrParse [0x10, 4, 1, 0, 0x0D, 0, 0, 0, 0, 1, 1, 0, 0, 0x14, 0, 0x38]) State.reset) =
      some (.ok (.parsed { attrRec with wip := true } true true)) := by decide
/-- A2 -/
theorem test_attrSerialize_wip : told (exec (.attrSerialize { attrRec with wip := true }) State.reset) =
    some (.ok (.bytes [0x10, 4, 1, 0, 0x0D, 0, 0, 0, 0, 0x0F, 1, 0, 0, 0x14, 0, 0x46])) := by decide
/-- A12 -/
theorem test_attrSerialize_wide : told (exec (.attrSerialize
    { verMajor := 2, verMinor := 1, nbr := 255, nbw := 255, nmaxb := 65535, rsv := ⟨[0xAA, 0xBB, 0xCC, 0xDD], rfl⟩,
      wip := true, writeable := true, ln := 16777215 }) State.reset) =
    some (.ok (.bytes [0x21, 0xFF, 0xFF, 0xFF, 0xFF, 0xAA, 0xBB, 0xCC, 0xDD, 0x0F, 1, 0xFF, 0xFF, 0xFF, 0x0A, 0x38])) :=
  by decide
/-- A7 -/
theorem test_attrCheck :
    told (exec (.attrCheck [0x10, 5, 1, 0, 0x0D, 0, 0, 0, 0, 0, 1, 0, 0, 0x14, 0, 0x37]) State.reset) =
      some (.ok (.valid false)) := by decide
/-- T2 -/
theorem test_timeoutRd : told (exec (.timeoutRd 3) (benchR [] [])) = some (.ok (.ms 17)) := by decide
/-- T4 -/
theorem test_timeoutWr : told (exec (.timeoutWr 13) (benchR [] [])) = some (.ok (.ms 145)) := by decide

/-! ## Vectors: reader engine -/

/-- R140; T1 after it -/
theorem test_loadTag : (match exec (.loadTag idm pmm) State.reset with
    | .next t => told (exec (.timeoutRd 1) t)
    | _ => none) = some (.ok (.ms 12)) := by decide
/-- W6 -/
theorem test_serRead : told (exec (.serRead 0x000B [0, 256]) (benchR [] [])) =
    some (.ok (.bytes ([0x13, 6, 1, 2, 3, 4, 5, 6, 7, 8, 1, 0x0B, 0, 2, 0x80, 0, 0, 0, 1]))) := by decide
/-- W10 -/
theorem test_serRead_range : told (exec (.serRead 0x000B (List.range 16)) (benchR [] [])) =
    some (.err (.argument .nblkRange 16)) := by decide
/-- W13 -/
theorem test_serWrite : told (exec (.serWrite 0x0009 [0x1234] (fill 0x55).val) (benchR [] [])) =
    some (.ok (.bytes ([0x21, 8, 1, 2, 3, 4, 5, 6, 7, 8, 1, 9, 0, 1, 0, 0x34, 0x12] ++ (fill 0x55).val))) := by decide
/-- W15 -/
theorem test_serWrite_empty : told (exec (.serWrite 0x0009 [] []) (benchR [] [])) =
    some (.err (.argument .nblkRange 0)) := by decide
/-- P1 -/
theorem test_parseReadRsp : told (exec (.parseReadRsp
    ([0x1D, 7, 1, 2, 3, 4, 5, 6, 7, 8, 0, 0, 1] ++ (fill 0x11).val) 1) (benchR [] [])) =
    some (.ok (.bytes (fill 0x11).val)) := by decide
/-- P8: the status comes before the count -/
theorem test_parseReadRsp_status : told (exec (.parseReadRsp [0x0C, 7, 1, 2, 3, 4, 5, 6, 7, 8, 0xFF, 0xA1] 1)
    (benchR [] [])) = some (.err (.command 0xFF 0xA1)) := by decide
/-- P13 -/
theorem test_parseWriteRsp : told (exec (.parseWriteRsp [0x0C, 9, 1, 2, 3, 4, 5, 6, 7, 8, 0, 0]) (benchR [] [])) =
    some (.ok .unit) := by decide
/-- P16 -/
theorem test_parseWriteRsp_long : told (exec (.parseWriteRsp [0x0D, 9, 1, 2, 3, 4, 5, 6, 7, 8, 0, 0, 0])
    (benchR [] [])) = some (.err (.framing .payloadLen (.num 13))) := by decide
/-- X1: the frame sent, the timeout, the result -/
theorem test_readBlocks : wire (exec (.readBlocks 0x000B [1])
      (benchR [true] [some ([0x1D, 7, 1, 2, 3, 4, 5, 6, 7, 8, 0, 0, 1] ++ (fill 0x11).val)])) =
    [.sent [0x10, 6, 1, 2, 3, 4, 5, 6, 7, 8, 1, 0x0B, 0, 1, 0x80, 1] true,
     .received 12 (some ([0x1D, 7, 1, 2, 3, 4, 5, 6, 7, 8, 0, 0, 1] ++ (fill 0x11).val))] := by decide
/-- X3 -/
theorem test_readBlocks_send_fail : told (exec (.readBlocks 0x000B [1]) (benchR [false] [])) =
    some (.err (.transport .sendFail)) := by decide
/-- X4 -/
theorem test_writeBlocks : told (exec (.writeBlocks 0x0009 [1] (fill 0xAA).val)
      (benchR [true] [some [0x0C, 9, 1, 2, 3, 4, 5, 6, 7, 8, 0, 0]])) = some (.ok .unit) := by decide
/-- X2, for a write -/
theorem test_writeBlocks_no_response : told (exec (.writeBlocks 0x0009 [1] (fill 0xAA).val) (benchR [true] [none])) =
    some (.err (.transport .noResponse)) := by decide

/-! ## Vectors: emulation dispatcher -/

/-- E19's counterpart: an identity, then a frame (R191, R197) -/
theorem test_loadIdentity : (match exec (.loadIdentity idm pmm sys) State.reset with
    | .next t => answered (exec (.dispatch [0x0A, 0x0C, 1, 2, 3, 4, 5, 6, 7, 8]) t)
    | _ => none) = some [0x0D, 0x0D, 1, 2, 3, 4, 5, 6, 7, 8, 1, 0x12, 0xFC] := by decide
/-- R192: the example, and a code registered again -/
theorem test_registerService : (match exec (.registerService 0x000B (.drawn 1) .readOnly) (benchE []) with
    | .next t => lookupService t.ed.svc 0x000B
    | _ => none) = some { rd := .drawn 1, wr := .readOnly } := by decide
/-- B4: two services interleaved; B8: the position wraps at 8 -/
theorem test_dispatch_calls : (match toldEmulator (exec (.dispatch
      [0x18, 6, 1, 2, 3, 4, 5, 6, 7, 8, 2, 0x0B, 0, 9, 0, 4, 0x80, 1, 0x81, 2, 0x80, 3, 0x81, 4]) (benchE [])) with
    | some (.respond _ calls) => calls.map callKey
    | _ => []) = [(0x0B, 1, true, false), (9, 2, true, false), (0x0B, 3, false, true), (9, 4, false, true)] ∧
    answered (exec (.dispatch
      [0x22, 6, 1, 2, 3, 4, 5, 6, 7, 8, 1, 0x0B, 0, 0x0A, 0x80, 0, 0x80, 1, 0x80, 2, 0x80, 3, 0x80, 4, 0x80, 5, 0x80, 6,
       0x80, 7, 0x80, 8, 0x85, 9]) (benchE [])) = some [0x0C, 7, 1, 2, 3, 4, 5, 6, 7, 8, 0x02, 0xA3] := by decide
/-- R37: a Respond is handed to send_response (E8); a Drop (E13) and an Err (E19) are not. -/
theorem test_dispatch_sends : wire (exec (.dispatch [0x0A, 4, 1, 2, 3, 4, 5, 6, 7, 8]) (benchE [])) =
      [.response [0x0B, 5, 1, 2, 3, 4, 5, 6, 7, 8, 0]] ∧ wire (exec (.dispatch [3, 4]) (benchE [])) = [] ∧
    wire (exec (.dispatch [0x0A, 4, 1, 2, 3, 4, 5, 6, 7, 8]) State.reset) = [] := by decide

/-! ## Vectors: frames as instructions -/

/-- E2 -/
theorem test_pollingCmd : answered (exec (.pollingCmd 6 [0x12, 0xFC, 1, 0]) (benchE [])) =
    some [0x14, 1, 1, 2, 3, 4, 5, 6, 7, 8, 0x00, 0x01, 0xFF, 0xFF, 0xFF, 0x4B, 0x8A, 0xFF, 0x12, 0xFC] := by decide
/-- E5 -/
theorem test_pollingCmd_mismatch : toldEmulator (exec (.pollingCmd 6 [0xFF, 0xFC, 0, 0]) (benchE [])) =
    some (.drop .scMismatch []) := by decide
/-- E8 -/
theorem test_requestResponseCmd : answered (exec (.requestResponseCmd 10 idm.val) (benchE [])) =
    some [0x0B, 5, 1, 2, 3, 4, 5, 6, 7, 8, 0] := by decide
/-- E11 -/
theorem test_requestSystemCodeCmd : answered (exec (.requestSystemCodeCmd 10 idm.val) (benchE [])) =
    some [0x0D, 0x0D, 1, 2, 3, 4, 5, 6, 7, 8, 1, 0x12, 0xFC] := by decide
/-- B19: the long form -/
theorem test_readWoEncCmd : answered (exec (.readWoEncCmd 0x11 (idm.val ++ [1, 0x0B, 0, 1, 0, 3, 0]))
    (benchE [(3, fill 3)])) = some ([0x1D, 7, 1, 2, 3, 4, 5, 6, 7, 8, 0, 0, 1] ++ (fill 3).val) := by decide
/-- B9 -/
theorem test_readWoEncCmd_missing : answered (exec (.readWoEncCmd 0x12 (idm.val ++ [1, 0x0B, 0, 2, 0x80, 1, 0x80, 0x20]))
    (benchE [(1, fill 1)])) = some [0x0D, 7, 1, 2, 3, 4, 5, 6, 7, 8, 0x02, 0xA2, 0x00] := by decide
/-- B28: the blocks before the failing one stay written -/
theorem test_writeWoEncCmd : (blockAfter 1 (exec (.writeWoEncCmd 0x32
      (idm.val ++ [1, 9, 0, 2, 0x80, 1, 0x80, 0x30] ++ (fill 0xAA).val ++ (fill 0xBB).val)) (benchE []))) =
    some (fill 0xAA).val := by decide
/-- B25 -/
theorem test_writeWoEncCmd_length : answered (exec (.writeWoEncCmd 0x1F
      (idm.val ++ [1, 9, 0, 1, 0x80, 1] ++ List.replicate 15 0xAA)) (benchE [])) =
    some [0x0C, 9, 1, 2, 3, 4, 5, 6, 7, 8, 0xFF, 0xA2] := by decide
/-- P17's code check, for a response that arrives while RE waits for a read -/
theorem test_response_in_flight : told (exec (.writeWoEncRsp 12 (idm.val ++ [0, 0])) busy) =
      some (.err (.framing .code (.num 9))) ∧
    told (exec (.readWoEncRsp 12 (idm.val ++ [0xFF, 0xA1])) busy) = some (.err (.command 0xFF 0xA1)) := by decide

/-- R61, R203: before any LOAD_IDENTITY the host goes on after an Err (log 5); with one, wait_command returns none, then
one byte, then the frame of E8 -/
theorem test_wait_answers : (match exec (.requestResponseCmd 10 idm.val)
      { State.reset with transport := { State.reset.transport with waitScript := [some [1]] } } with
    | .next t => (t.emulator.results, t.transport.waits)
    | _ => ([], 0)) = ([.err (.unconfigured .edIdentity), .err (.unconfigured .edIdentity)], 2) ∧
    (match exec (.requestResponseCmd 10 idm.val)
      { benchE [] with transport := { State.reset.transport with waitScript := [none, some [1]] } } with
    | .next t => (t.emulator.results, t.transport.waits, t.transport.waitScript)
    | _ => ([], 0, [])) =
    ([.drop .tooShort [], .respond [0x0B, 5, 1, 2, 3, 4, 5, 6, 7, 8, 0] []], 3, []) := by decide
/-- R61: with no exchange in flight, a response frame is what the next Receive returns -/
theorem test_response_waits : (match exec (.pollingRsp 2 []) State.reset with
      | .next t => t.transport.recvScript | _ => []) = [some [2, 0x01]] ∧
    (match exec (.requestResponseRsp 2 []) State.reset with
      | .next t => t.transport.recvScript | _ => []) = [some [2, 0x05]] ∧
    (match exec (.requestSystemCodeRsp 2 []) State.reset with
      | .next t => t.transport.recvScript | _ => []) = [some [2, 0x0D]] := by decide

/-! ## Vectors: host sequences -/

/-- H1 -/
theorem test_getAttr : told (exec .getAttr (benchL [(0, attrBlock)])) = some (.ok (.record attrRec)) := by decide +kernel
/-- H4 -/
theorem test_ndefGet_checksum : told (exec .ndefGet (benchL [(0, badBlock)])) =
    some (.err (.checksum 0x3700 0x0037)) := by decide
/-- P1: 20 bytes of blocks 1 and 2 -/
theorem test_ndefGet : told (exec .ndefGet (benchL [(0, attrBlock), (1, fill 0xD1), (2, fill 0x72)])) =
    some (.ok (.bytes (List.replicate 16 0xD1 ++ List.replicate 4 0x72))) := by decide +kernel
/-- H7 -/
theorem test_ndefSet_policy : told (exec (.ndefSet [1, 2, 3]) (benchL [(0, readOnlyBlock)])) =
    some (.err (.policy .notWriteable 0)) := by decide
/-- H6: an empty message; block 0 with wip false and ln 0 -/
theorem test_ndefSet_empty : blockAfter 0 (exec (.ndefSet []) (benchL [(0, attrBlock)])) =
    some [0x10, 4, 1, 0, 0x0D, 0, 0, 0, 0, 0, 1, 0, 0, 0, 0, 0x23] := by decide +kernel
/-- R172's example sizes: chunks of 2 of five blocks -/
theorem test_chunks : chunks [1, 2, 3, 4, 5] 2 = [[1, 2], [3, 4], [5]] := by decide
/-- R174: the example's first two exchanges -/
theorem test_readChunked : told (exec (.readChunked [1, 2, 3] 2)
      (benchR [true, true] [some (readResponse idm 2 ((fill 1).val ++ (fill 2).val)), some (readResponse idm 1 (fill 3).val)])) =
    some (.ok (.bytes ((fill 1).val ++ (fill 2).val ++ (fill 3).val))) := by decide
/-- R175: the second chunk's data -/
theorem test_writeChunked : wire (exec (.writeChunked [1, 2] ((fill 1).val ++ (fill 2).val) 1)
      (benchR [true, true] [some (writeResponse idm), none])) =
    [.sent ([0x20, 8, 1, 2, 3, 4, 5, 6, 7, 8, 1, 9, 0, 1, 0x80, 1] ++ (fill 1).val) true,
     .received 29 (some (writeResponse idm)),
     .sent ([0x20, 8, 1, 2, 3, 4, 5, 6, 7, 8, 1, 9, 0, 1, 0x80, 2] ++ (fill 2).val) true, .received 29 none] := by decide

/-- R175: data for no block is short by all of it and the exchange still runs; data for two blocks is read to the first -/
theorem test_writeChunked_lengths :
    (∃ t, exec (.writeChunked [1] [] 1) (benchR [true] [some (writeResponse idm)]) = .next t) ∧
    wire (exec (.writeChunked [1] ((fill 1).val ++ (fill 2).val) 1) (benchR [false] [])) =
      [.sent ([0x20, 8, 1, 2, 3, 4, 5, 6, 7, 8, 1, 9, 0, 1, 0x80, 1] ++ (fill 1).val) false] := ⟨⟨_, rfl⟩, by decide⟩

/-! ## Witnesses: for each statement with hypotheses, states and operands that meet them, clause by clause -/

/-- nbr 16, nbw 14, 16 blocks, 256 bytes: chunks that READ_BLOCKS and WRITE_BLOCKS refuse. -/
def wideBlock : Block := ⟨[0x10, 16, 14, 0, 0x10, 0, 0, 0, 0, 0, 1, 0, 1, 0, 0, 0x40], rfl⟩
/-- nbr 0 and nbw 0. -/
def zeroBlock : Block := ⟨[0x10, 0, 0, 0, 0x0D, 0, 0, 0, 0, 0, 1, 0, 0, 0x14, 0, 0x32], rfl⟩
/-- A read response with status (0xFF, 0xA1). -/
def refusedRead : List Byte := statusResponse idm 0x07 [0xFF, 0xA1]
/-- A write response with status (0xFF, 0xA1). -/
def refusedWrite : List Byte := statusResponse idm 0x09 [0xFF, 0xA1]

theorem ready (sends : List Bool) (answers : List (Option (List Byte))) : ReaderReady (benchR sends answers) idm pmm :=
  ⟨rfl, rfl, rfl, rfl⟩

theorem sound_block0 : ReadSound [0] := ⟨by decide, by decide, by decide⟩

/-- A read of block 0 fails in each way that it can, over any transport. -/
theorem fails_block0 (sends : List Bool) (answers : List (Option (List Byte))) :
    ReadFails (benchR sends answers) idm pmm 0x000B [0] (.transport .sendFail) [false] []
      [.sent (readRequest idm 0x000B [0]) false] ∧
    ReadFails (benchR sends answers) idm pmm 0x000B [0] (.transport .noResponse) [true] [none]
      [.sent (readRequest idm 0x000B [0]) true, .received 12 none] ∧
    ReadFails (benchR sends answers) idm pmm 0x000B [0] (.command 0xFF 0xA1) [true] [some refusedRead]
      [.sent (readRequest idm 0x000B [0]) true, .received 12 (some refusedRead)] :=
  ⟨.sendFail sound_block0, .noResponse sound_block0, .response _ _ sound_block0 rfl⟩

/-- A read of 16 blocks fails in the serializer. -/
theorem fails_sixteen (sends : List Bool) (answers : List (Option (List Byte))) :
    ReadFails (benchR sends answers) idm pmm 0x000B (blocksOfMessage 256) (.argument .nblkRange 16) [] [] [] :=
  .serializer _ rfl

theorem sound_one : WriteSound [1] (zeros 16) :=
  ⟨by decide, by decide, by decide, by unfold WriteFits; decide⟩

theorem serWrite_fourteen (sends : List Bool) (answers : List (Option (List Byte))) :
    exec (.serWrite 0x0009 (List.range' 1 14) (zeros 224)) (benchR sends answers) =
      .next ((benchR sends answers).reply (.err (.argument .frameLen 266))) := by
  have h : serWrite (benchR sends answers) = serWrite (benchR [] []) := serWrite_congr rfl
  have k : serWrite (benchR [] []) 0x0009 (List.range' 1 14) (zeros 224) = .error (.argument .frameLen 266) := by
    decide +kernel
  rw [exec, execSerWrite, h, k]
  rfl

/-- A write of block 1 fails in each way that it can, over any transport; the serializer's is that of 14 blocks. -/
theorem fails_one (sends : List Bool) (answers : List (Option (List Byte))) :
    WriteFails (benchR sends answers) idm pmm 0x0009 [1] (zeros 16) (.transport .sendFail) [false] []
      [.sent (writeRequest idm 0x0009 [1] (zeros 16)) false] ∧
    WriteFails (benchR sends answers) idm pmm 0x0009 [1] (zeros 16) (.transport .noResponse) [true] [none]
      [.sent (writeRequest idm 0x0009 [1] (zeros 16)) true, .received 29 none] ∧
    WriteFails (benchR sends answers) idm pmm 0x0009 [1] (zeros 16) (.command 0xFF 0xA1) [true] [some refusedWrite]
      [.sent (writeRequest idm 0x0009 [1] (zeros 16)) true, .received 29 (some refusedWrite)] ∧
    WriteFails (benchR sends answers) idm pmm 0x0009 (List.range' 1 14) (zeros 224) (.argument .frameLen 266) [] [] [] :=
  ⟨.sendFail sound_one, .noResponse sound_one, .response _ _ sound_one rfl, .serializer _ (serWrite_fourteen _ _)⟩

/-- The 14 bytes swapped at offsets 0 and 1: the same sum. -/
def swapped : Block := ⟨[4, 0x10, 1, 0, 0x0D, 0, 0, 0, 0, 0, 1, 0, 0, 0x14, 0, 0x37], rfl⟩

/-- 0, 15 and 17 bytes; and an item of 15. -/
theorem test_hyps_AttrParseDecodesTheLayout : ([] : List Byte).length ≠ 16 ∧ (attrBlock.val.take 15).length ≠ 16 ∧
    (attrBlock.val ++ [0]).length ≠ 16 ∧ (State.reset.setProgram [0x30 :: attrBlock.val.take 15]).program[0]? =
      some (0x30 :: attrBlock.val.take 15) := by decide
theorem test_hyps_AttrRoundTrip :
    exec (.attrParse attrBlock.val) State.reset = .next (State.reset.reply (.ok (.parsed attrRec true false))) := rfl
theorem test_hyps_ChecksumSensitivity : attrValid attrBlock.val = true ∧ (0 < 14 ∧ byteAt attrBlock.val 0 ≠ 0xFF) ∧
    (13 < 14 ∧ byteAt attrBlock.val 13 ≠ 0x15) ∧ sum14 swapped.val = sum14 attrBlock.val ∧
    swapped.val.drop 14 = attrBlock.val.drop 14 ∧ (swapped.val.take 14).Perm (attrBlock.val.take 14) := by
  decide
theorem test_hyps_CapacityInBlocks : 0 ≤ 1048560 ∧ 1048560 ≤ 1048560 ∧ 1048560 < 1048561 ∧
    (blocksForCapacity 1048560).isSome ∧ blocksForCapacity 1048561 = none := by decide
theorem test_hyps_TimeoutResults : State.reset.re.pmm = none ∧ (benchR [] []).re.pmm = some pmm := by decide
theorem test_hyps_TimeoutMonotoneAndBounded : 0 ≤ 255 ∧ 255 ≤ 255 ∧ 15 ≤ 15 ∧ timeout 0xFF 255 = 39588 := by decide
theorem test_hyps_LoadTagLoadsBothRegisters : State.reset.re.phase = .idle ∧ busy.re.phase = .await := by decide
/-- Block counts 0, 1, 15 and 16; block numbers 0xFFFF and 0x10000. -/
theorem test_hyps_SerReadBuildsTheFrame : State.reset.re.idm = none ∧ (benchR [] []).re.idm = some idm ∧
    ([] : List Nat).length < 1 ∧ 15 < (List.range 16).length ∧ 1 ≤ (List.range 15).length ∧
    (List.range 15).length ≤ 15 ∧ (∀ x ∈ List.range 15, x ≤ 0xFFFF) ∧
    ([0xFFFF, 0x10000] = [0xFFFF] ++ 0x10000 :: [] ∧ (∀ x ∈ [0xFFFF], x ≤ 0xFFFF) ∧ 0xFFFF < 0x10000 ∧
      1 ≤ [0xFFFF, 0x10000].length ∧ [0xFFFF, 0x10000].length ≤ 15) := by decide
/-- 13 short blocks fit and 14 do not; data of the wrong length; no block; block 0x10000. -/
theorem test_hyps_SerWriteBuildsTheFrame : (benchR [] []).re.idm = some idm ∧ (zeros 15).length ≠ 16 * [1].length ∧
    ([] : List Byte).length = 16 * ([] : List Nat).length ∧
    ([0x10000] = [] ++ 0x10000 :: [] ∧ (zeros 16).length = 16 * [0x10000].length) ∧
    ((writeRequest idm 9 (List.range 13) (zeros 208)).length ≤ 255 ∧ (zeros 208).length = 16 * (List.range 13).length) ∧
    255 < (writeRequest idm 9 (List.range 14) (zeros 224)).length ∧ (zeros 224).length = 16 * (List.range 14).length ∧
    (∀ x ∈ List.range 14, x ≤ 0xFFFF) := by decide +kernel
/-- Frames of 0, 11 and 12 bytes, each check's own (R146). -/
theorem test_hyps_ResponseCheckOrder : (benchR [] []).re.idm = some idm ∧
    num [0x0C] 0 ≠ [0x0C].length ∧
    (num (0x0B :: 7 :: (idm.val ++ [0])) 0 = 11 ∧ (0x0B :: 7 :: (idm.val ++ [0])).length = 11) ∧
    (byteAt (0x0C :: 9 :: (idm.val ++ [0, 0])) 1 ≠ 0x07 ∧ (0x0C :: 9 :: (idm.val ++ [0, 0])).length = 12) ∧
    slice (0x0C :: 7 :: ([9, 2, 3, 4, 5, 6, 7, 8] ++ [0, 0])) 2 10 ≠ idm.val ∧
    (slice (0x0C :: 7 :: (idm.val ++ [0, 1])) 2 10 = idm.val ∧ byteAt (0x0C :: 7 :: (idm.val ++ [0, 1])) 11 ≠ 0x00) := by
  decide
/-- Zero-status responses of 12, 13 and 14 bytes. -/
theorem test_hyps_ReadResponseAcceptedExactly : (benchR [] []).re.idm = some idm ∧
    (readResponse idm 15 (zeros 240)).length = 253 ∧
    (∀ F ∈ [0x0C :: 7 :: (idm.val ++ [0, 0]), 0x0D :: 7 :: (idm.val ++ [0, 0, 2]), 0x0E :: 7 :: (idm.val ++ [0, 0, 0, 1])],
      num F 0 = F.length ∧ 12 ≤ F.length ∧ byteAt F 1 = 0x07 ∧ slice F 2 10 = idm.val ∧ byteAt F 10 = 0x00 ∧
      byteAt F 11 = 0x00) ∧
    (0x0C :: 7 :: (idm.val ++ [0, 0])).length = 12 ∧ num (0x0D :: 7 :: (idm.val ++ [0, 0, 2])) 12 ≠ 1 ∧
    (num (0x0E :: 7 :: (idm.val ++ [0, 0, 0, 1])) 12 = 0 ∧ (0x0E :: 7 :: (idm.val ++ [0, 0, 0, 1])).length ≠ 13 + 16 * 0) := by
  decide +kernel
theorem test_hyps_WriteResponseAcceptedExactly :
    num (0x0D :: 9 :: (idm.val ++ [0, 0, 0])) 0 = (0x0D :: 9 :: (idm.val ++ [0, 0, 0])).length ∧
    12 < (0x0D :: 9 :: (idm.val ++ [0, 0, 0])).length ∧ byteAt (0x0D :: 9 :: (idm.val ++ [0, 0, 0])) 1 = 0x09 ∧
    slice (0x0D :: 9 :: (idm.val ++ [0, 0, 0])) 2 10 = idm.val := by decide
/-- Send fails; Receive returns none; Receive returns a response; for 1 and 15 blocks. -/
theorem test_hyps_ReadBlocksExchange :
    ReaderReady (benchR [false] []) idm pmm ∧ ReaderReady (benchR [true] [none]) idm pmm ∧
    (∀ x ∈ List.range 15, x ≤ 0xFFFF) ∧ (drawSend (benchR [false] []).transport).1 = false ∧
    (drawSend (benchR [true] [none]).transport).1 = true ∧
    (drawReceive (drawSend (benchR [true] [none]).transport).2).1 = none ∧
    (drawReceive (drawSend (benchR [true] [some (readResponse idm 1 (zeros 16))]).transport).2).1 =
      some (readResponse idm 1 (zeros 16)) :=
  ⟨⟨rfl, rfl, rfl, rfl⟩, ⟨rfl, rfl, rfl, rfl⟩, by decide, rfl, rfl, rfl, rfl⟩
theorem test_hyps_WriteBlocksExchange : ReaderReady (benchR [true] [some (writeResponse idm)]) idm pmm ∧
    [1] ≠ ([] : List Nat) ∧ (zeros 16).length = 16 * [1].length ∧ (writeRequest idm 9 [1] (zeros 16)).length ≤ 255 ∧
    (drawSend (benchR [true] [some (writeResponse idm)]).transport).1 = true ∧
    (drawReceive (drawSend (benchR [true] [some (writeResponse idm)]).transport).2).1 = some (writeResponse idm) ∧
    (drawSend (benchR [false] []).transport).1 = false :=
  ⟨⟨rfl, rfl, rfl, rfl⟩, by decide, by decide, by decide, rfl, rfl, rfl⟩
/-- X6 and R253: an ArgumentError and an Unconfigured. -/
theorem test_hyps_ArgumentErrorsSendNothing :
    told (exec (.writeBlocks 9 [1] (zeros 15)) (benchR [] [])) = some (.err (.argument .dataLen 15)) ∧
    told (exec (.readBlocks 11 [1]) State.reset) = some (.err (.unconfigured .reTag)) ∧
    told (exec (.serRead 11 []) (benchR [] [])) = some (.err (.argument .nblkRange 0)) := by decide
theorem test_hyps_BusyUnitsRefuse : busy.re.phase = .await ∧ busy.ed.phase = .busy := by decide
/-- CACHE full; block 0 valid and not; and a read of block 0 that fails in each way. -/
theorem test_hyps_GetAttrCachesValidBlocks :
    ((benchR [] []).setCache (some attrRec)).reader.cache = some attrRec ∧
    (∀ sends answers, ReaderReady (benchR sends answers) idm pmm ∧ (benchR sends answers).reader.cache = none) ∧
    attrValid attrBlock.val = true ∧ attrValid badBlock.val = false ∧
    ReadFails (benchR [false] []) idm pmm 0x000B [0] (.transport .sendFail) [false] []
      [.sent (readRequest idm 0x000B [0]) false] :=
  ⟨rfl, fun _ _ => ⟨ready _ _, rfl⟩, rfl, rfl, (fails_block0 _ _).1⟩
theorem test_hyps_ChunksSplitTheList : 1 ≤ 1 ∧ chunks [7, 8, 9] 2 = [[7, 8], [9]] := by decide
theorem test_hyps_ChunkLimitZero : [0] ≠ ([] : List Nat) := by decide
/-- Chunk limit 1; limit 200 with one chunk of 15 blocks (R174); a second chunk that fails; a first chunk of 16 blocks. -/
theorem test_hyps_ReadChunkedConcatenates :
    ReaderReady (benchR [true, true] (readReplies idm (chunks [1, 0xFFFF] 1) (zeros 32))) idm pmm ∧
    (∀ x ∈ [1, 0xFFFF], x ≤ 0xFFFF) ∧ (zeros 32).length = 16 * [1, 0xFFFF].length ∧
    [true, true] = List.replicate (chunks [1, 0xFFFF] 1).length true ++ [] ∧
    (∀ C ∈ chunks [1, 0xFFFF] 1, C.length ≤ 15) ∧ (∀ C ∈ chunks (List.range 15) 200, C.length ≤ 15) ∧
    (chunks [0, 0] 1 = [[0]] ++ [0] :: [] ∧ (∀ c ∈ [[0]], ReadSound c) ∧
      (benchR [true, false] (readReplies idm [[0]] (zeros 16))).transport.sendScript =
        List.replicate [[0]].length true ++ ([false] ++ []) ∧
      ReadFails (benchR [true, false] (readReplies idm [[0]] (zeros 16))) idm pmm 0x000B [0] (.transport .sendFail)
        [false] [] [.sent (readRequest idm 0x000B [0]) false]) ∧
    (chunks (blocksOfMessage 256) 16 = [] ++ blocksOfMessage 256 :: [] ∧
      ReadFails (benchR [] []) idm pmm 0x000B (blocksOfMessage 256) (.argument .nblkRange 16) [] [] []) :=
  ⟨ready _ _, by decide, rfl, rfl, by decide, by decide,
    ⟨rfl, List.forall_mem_singleton.2 sound_block0, rfl, (fails_block0 _ _).1⟩, rfl, fails_sixteen _ _⟩
/-- Chunk limit 1, with data that reaches past the list; limit 13 with short block numbers (R144); a second chunk that
fails; a first chunk of 14 blocks. -/
theorem test_hyps_WriteChunkedWritesInOrder :
    ReaderReady (benchR [true] [some (writeResponse idm)]) idm pmm ∧ 16 * [1].length ≤ (zeros 33).length ∧
    (∀ w ∈ chunkWrites (zeros 33) (chunks [1] 1) 0, WriteSound w.1 w.2) ∧
    (∀ C ∈ chunks (List.range 26) 13, WriteFits C) ∧
    (chunkWrites (zeros 32) (chunks [1, 1] 1) 0 = [([1], zeros 16)] ++ ([1], zeros 16) :: [] ∧
      (∀ v ∈ [([1], zeros 16)], WriteSound v.1 v.2) ∧
      (benchR [true, false] [some (writeResponse idm)]).transport.recvScript =
        List.replicate [([1], zeros 16)].length (some (writeResponse idm)) ++ ([] ++ []) ∧
      WriteFails (benchR [true, false] [some (writeResponse idm)]) idm pmm 0x0009 [1] (zeros 16)
        (.transport .sendFail) [false] [] [.sent (writeRequest idm 0x0009 [1] (zeros 16)) false]) ∧
    (chunkWrites (zeros 224) (chunks (List.range' 1 14) 14) 0 = [] ++ (List.range' 1 14, zeros 224) :: [] ∧
      WriteFails (benchR [] []) idm pmm 0x0009 (List.range' 1 14) (zeros 224) (.argument .frameLen 266) [] [] []) :=
  ⟨ready _ _, by decide, List.forall_mem_singleton.2 sound_one, by unfold WriteFits; decide +kernel,
    ⟨rfl, List.forall_mem_singleton.2 sound_one, rfl, (fails_one _ _).1⟩, by decide +kernel, (fails_one _ _).2.2.2⟩
/-- CACHE empty and a failing GET_ATTR; then the ATTR example: nbr 0; a message of 20 bytes in one chunk (P1). -/
theorem test_hyps_NdefGetReturnsTheMessage :
    (∀ sends answers, (benchR sends answers).reader.cache = none) ∧
    AttrFails (benchR [false] []) idm pmm (.transport .sendFail) [false] [] [.sent (readRequest idm 0x000B [0]) false] ∧
    AttrFails (benchR [true] (readReplies idm [[0]] badBlock.val)) idm pmm
      (.checksum (num badBlock.val 14 * 256 + num badBlock.val 15) (sum14 badBlock.val)) [true]
      [some (readResponse idm 1 badBlock.val)] (readLog idm pmm 0x000B [[0]] badBlock.val) ∧
    AttrReady (benchR [true] (readReplies idm [[0]] zeroBlock.val)) idm pmm zeroBlock ∧
    (firstAttr (benchR [] []) zeroBlock).nbr = 0 ∧ (firstAttr (benchR [] []) zeroBlock).ln.toNat ≠ 0 ∧
    AttrReady (benchR [true, true] (readReplies idm [[0]] attrBlock.val ++ readReplies idm [[1, 2]] (zeros 32))) idm pmm
      attrBlock ∧
    (firstAttr (benchR [] []) attrBlock).ln.toNat = 20 ∧ 1 ≤ (firstAttr (benchR [] []) attrBlock).nbr.toNat ∧
    (∀ C ∈ [[1, 2]], ReadSound C) ∧ (zeros 32).length = 16 * ((20 + 15) / 16) ∧
    chunks (blocksOfMessage 20) (attrRecord attrBlock.val).nbr.toNat = [[1, 2]] ∧ attrReads none = [[0]] ∧
    attrReads (some attrRec) = [] :=
  ⟨fun _ _ => rfl, .read _ _ _ _ (fails_block0 _ _).1, .checksum badBlock rfl, ⟨ready _ _, fun _ => rfl⟩, rfl,
    by decide, ⟨ready _ _, fun _ => rfl⟩, by decide, by decide,
    List.forall_mem_singleton.2 ⟨by decide, by decide, by decide⟩, by decide, by decide, rfl, rfl⟩
/-- A message of 256 bytes in one chunk of 16 blocks, which fails. -/
theorem test_hyps_NdefGetReturnsTheMessage_fails :
    AttrReady (benchR [true] (readReplies idm [[0]] wideBlock.val)) idm pmm wideBlock ∧
    firstAttr (benchR [true] (readReplies idm [[0]] wideBlock.val)) wideBlock = attrRecord wideBlock.val ∧
    chunks (blocksOfMessage (attrRecord wideBlock.val).ln.toNat) (attrRecord wideBlock.val).nbr.toNat =
      [] ++ blocksOfMessage 256 :: [] ∧
    ReadFails (benchR [true] (readReplies idm [[0]] wideBlock.val)) idm pmm 0x000B (blocksOfMessage 256)
      (.argument .nblkRange 16) [] [] [] :=
  ⟨⟨ready _ _, fun _ => rfl⟩, rfl, by decide +kernel, fails_sixteen _ _⟩
/-- CACHE empty and a failing GET_ATTR (as for NDEF_GET); the second GET_ATTR fails; nbw 0; one byte of data in one chunk;
its first write of block 1 fails; 256 bytes in a chunk of 14 blocks, which fails; and the limits of the data length. -/
theorem test_hyps_NdefSetWritesInOrder :
    SetAllowed [0] (benchR [true, false] (readReplies idm [[0]] attrBlock.val)) idm pmm attrBlock ∧
    AttrFails (benchR [true, false] (readReplies idm [[0]] attrBlock.val)) idm pmm (.transport .sendFail) [false] []
      [.sent (readRequest idm 0x000B [0]) false] ∧
    attrReads (benchR [] []).reader.cache = [[0]] ∧ attrValid zeroBlock.val = true ∧ (attrRecord zeroBlock.val).nbw = 0 ∧
    SetAllowed [0] (benchR [true, true] (readReplies idm [[0]] zeroBlock.val ++ (readReplies idm [[0]] zeroBlock.val ++ [])))
      idm pmm zeroBlock ∧
    attrValid attrBlock.val = true ∧ 1 ≤ (attrRecord attrBlock.val).nbw.toNat ∧
    (∀ w ∈ setWrites [0] (attrRecord attrBlock.val), WriteFits w.1) ∧
    (setWrites [0] (attrRecord attrBlock.val)).map (·.1) = [[0], [1], [0]] ∧
    setWrites [0] (attrRecord attrBlock.val) = (setWrites [0] (attrRecord attrBlock.val)).take 1 ++
      ([1], zeros 16) :: (setWrites [0] (attrRecord attrBlock.val)).drop 2 ∧
    WriteFails (benchR [true, true, true, false] []) idm pmm 0x0009 [1] (zeros 16) (.transport .sendFail) [false] []
      [.sent (writeRequest idm 0x0009 [1] (zeros 16)) false] ∧
    SetAllowed (zeros 256) (benchR [true, true, true] []) idm pmm wideBlock ∧
    setWrites (zeros 256) (attrRecord wideBlock.val) = (setWrites (zeros 256) (attrRecord wideBlock.val)).take 1 ++
      (List.range' 1 14, zeros 224) :: (setWrites (zeros 256) (attrRecord wideBlock.val)).drop 2 ∧
    (∀ w ∈ (setWrites (zeros 256) (attrRecord wideBlock.val)).take 1, WriteFits w.1) ∧
    WriteFails (benchR [true, true, true] []) idm pmm 0x0009 (List.range' 1 14) (zeros 224)
      (.argument .frameLen 266) [] [] [] ∧
    SetAllowed (zeros 208) (benchR [] []) idm pmm attrBlock :=
  ⟨⟨⟨ready _ _, fun _ => rfl⟩, rfl, by decide⟩, .read _ _ _ _ (fails_block0 _ _).1, rfl, rfl, rfl,
    ⟨⟨ready _ _, fun _ => rfl⟩, rfl, by decide⟩, rfl, by decide, by unfold WriteFits; decide, rfl, by decide,
    (fails_one _ _).1, ⟨⟨ready _ _, fun _ => rfl⟩, rfl, by decide +kernel⟩, by decide +kernel,
    by unfold WriteFits; decide +kernel, (fails_one _ _).2.2.2, ⟨⟨ready _ _, fun _ => rfl⟩, rfl, by decide +kernel⟩⟩
/-- A raise, with CACHE full and before any LOAD_TAG; each of the two reasons, with CACHE full and with CACHE empty. -/
theorem test_hyps_PolicyErrorsWriteNothing :
    told (exec (.ndefSet (zeros 209)) (State.reset.setCache (some attrRec))) =
      some (.err (.policy .capacity 209)) ∧
    (told (exec (.ndefSet []) (benchL [(0, readOnlyBlock)])) = some (.err (.policy .notWriteable 0)) ∧
      (benchL [(0, readOnlyBlock)]).reader.cache = none) ∧
    ((State.reset.setCache (some (attrRecord readOnlyBlock.val))).reader.cache = some (attrRecord readOnlyBlock.val) ∧
      (attrRecord readOnlyBlock.val).writeable = false) ∧
    (ReaderReady (benchR [true] (readReplies idm [[0]] readOnlyBlock.val)) idm pmm ∧
      attrValid readOnlyBlock.val = true) ∧
    (attrRecord attrBlock.val).writeable = true ∧ 16 * (attrRecord attrBlock.val).nmaxb.toNat < (zeros 209).length :=
  ⟨by decide +kernel, ⟨by decide +kernel, rfl⟩, ⟨rfl, rfl⟩, ⟨ready _ _, rfl⟩, rfl, by decide +kernel⟩
theorem test_hyps_LoadIdentityLoadsThreeRegisters : State.reset.ed.phase = .idle ∧ busy.ed.phase = .busy := by decide
theorem test_hyps_RegisterServiceMapsTheCode : State.reset.ed.phase = .idle ∧ busy.ed.phase = .busy ∧
    (0x000B : Svc) ≠ 0x0009 := by decide
/-- E12 to E18, and frames of 1, 2, 5, 6, 9 and 10 bytes. -/
theorem test_hyps_DispatchDropsMalformedFrames : State.reset.ed.idm = none ∧ (benchE []).ed.phase = .idle ∧
    (benchE []).ed.idm = some idm ∧ (benchE []).ed.pmm = some pmm ∧ (benchE []).ed.sys = some sys ∧
    [0x01].length < 2 ∧ num [3, 4] 0 ≠ [3, 4].length ∧
    (num [2, 5] 0 = [2, 5].length ∧ byteAt [2, 5] 1 ∉ [0x00, 0x04, 0x06, 0x08, 0x0C]) ∧
    (num [9, 4, 1, 2, 3, 4, 5, 6, 7] 0 = [9, 4, 1, 2, 3, 4, 5, 6, 7].length ∧
      byteAt [9, 4, 1, 2, 3, 4, 5, 6, 7] 1 ∈ [0x04, 0x06, 0x08, 0x0C]) ∧
    (num [10, 12, 9, 2, 3, 4, 5, 6, 7, 8] 0 = 10 ∧ slice [10, 12, 9, 2, 3, 4, 5, 6, 7, 8] 2 10 ≠ idm.val) ∧
    (num [5, 0, 0x12, 0xFC, 0] 0 = [5, 0, 0x12, 0xFC, 0].length ∧ byteAt [5, 0, 0x12, 0xFC, 0] 1 = 0x00) ∧
    (num [6, 0, 0xFF, 0xFC, 0, 0] 0 = 6 ∧ slice [6, 0, 0xFF, 0xFC, 0, 0] 2 4 ≠ sys.val ∧
      slice [6, 0, 0xFF, 0xFC, 0, 0] 2 4 ≠ [0xFF, 0xFF]) := by decide
/-- Polling by system code and by FF FF, RC 1 and 2; the two identified commands. -/
theorem test_hyps_PlainCommandsAnswered : EdReady (benchE []) idm ∧
    (num [6, 0, 0x12, 0xFC, 1, 0] 0 = 6 ∧ slice [6, 0, 0x12, 0xFC, 1, 0] 2 4 = sys.val) ∧
    (slice [6, 0, 0xFF, 0xFF, 2, 0] 2 4 = [0xFF, 0xFF] ∧ byteAt [6, 0, 0xFF, 0xFF, 2, 0] 4 ≠ 0x01) ∧
    (num [10, 4, 1, 2, 3, 4, 5, 6, 7, 8] 0 = 10 ∧ slice [10, 4, 1, 2, 3, 4, 5, 6, 7, 8] 2 10 = idm.val) ∧
    slice [10, 12, 1, 2, 3, 4, 5, 6, 7, 8] 2 10 = idm.val :=
  ⟨⟨rfl, rfl⟩, by decide, by decide, by decide, by decide⟩
/-- No answer before the frame; none before it; a byte list before it. -/
theorem test_hyps_CommandFramesAreDispatched : State.reset.transport.waitScript = [] ∧
    ({ State.reset.transport with waitScript := [none] } : Transport).waitScript = none :: [] ∧
    ({ State.reset.transport with waitScript := [some [1]] } : Transport).waitScript = some [1] :: [] ∧
    ((0x00 : Byte) = 0x00 ∧ Instr.pollingCmd 6 [] = .pollingCmd 6 []) ∧
    ((0x0C : Byte) = 0x0C ∧ Instr.requestSystemCodeCmd 10 [] = .requestSystemCodeCmd 10 []) := by decide
theorem test_hyps_ResponseFramesReachTheReader : State.reset.re.phase = .idle ∧
    State.reset.transport.recvScript = [] ∧ State.reset.transport.link = .external ∧ busy.re.phase = .await ∧
    busy.re.pend.code = 0x07 ∧
    ({ busy with re := { busy.re with pend := { code := 0x09, n := 1, t := 29 } } } : State).re.pend.code = 0x09 := by
  decide

/-- `ListsOk` by evaluation. -/
theorem listsOk_of {table : SvcTable} {svcs : List Svc} {es : List (Byte × BitVec 16)}
    (hs : svcs.all (fun c => (lookupService table c).isSome) = true)
    (he : es.all (fun e => decide (e.1.toNat % 16 < svcs.length) &&
      (decide (e.1.toNat / 128 ≠ 1) || decide (e.2.toNat < 256))) = true) : ListsOk table svcs es := by
  refine ⟨List.all_eq_true.mp hs, fun e h => ?_⟩
  have := List.all_eq_true.mp he e h
  simp only [Bool.and_eq_true, Bool.or_eq_true, decide_eq_true_eq] at this
  exact ⟨this.1, fun h1 => this.2.resolve_left (fun h2 => h2 h1)⟩

/-- Entries of every form: short, long, with access mode bits, of either service. -/
def entries : List (Byte × BitVec 16) := [(0x80, 1), (0x01, 3), (0xF1, 2)]

theorem listsOk_entries : ListsOk services [0x000B, 0x0009] entries := listsOk_of (by decide) (by decide)

theorem test_hyps_ParseListsInvertsTheLayout : ListsOk services [0x000B, 0x0009] entries ∧
    (commandFrame 0x06 idm (listsWire [0x000B, 0x0009] entries ++ [0xEE])).length ≤ 255 ∧
    resolved [0x000B, 0x0009] entries = [(0x000B, 1), (0x0009, 3), (0x0009, 2)] :=
  ⟨listsOk_entries, by decide, by decide⟩
theorem test_hyps_ReadServedFromTheStore : EdReady (benchE []) idm ∧ ListsOk services [0x000B, 0x0009] entries ∧
    entries.length ≤ 15 ∧ (∀ e ∈ resolved [0x000B, 0x0009] entries, (readBank (benchE []) e).isSome) ∧
    (List.replicate 15 ((0x80, 1) : Byte × BitVec 16)).length ≤ 15 :=
  ⟨⟨rfl, rfl⟩, listsOk_entries, by decide, List.all_eq_true.mp (by decide), by decide⟩

/-- Two entries of service 0x000B. -/
def two : List (Byte × BitVec 16) := [(0x80, 1), (0x80, 2)]

/-- One answer and then none; and two answers; each callback tries to issue one operation to ED. -/
theorem test_hyps_ReadServedFromDraws :
    EdReady (benchD [⟨some (fill 1), 1⟩, ⟨none, 1⟩] []) idm ∧
    ListsOk (benchD [⟨some (fill 1), 1⟩, ⟨none, 1⟩] []).ed.svc [0x000B] two ∧
    (∀ e ∈ resolved [0x000B] two, ∃ h wr, lookupService (benchD [] []).ed.svc e.1 = some { rd := .drawn h, wr := wr }) ∧
    [(fill 1, 1)].length < two.length ∧ [(fill 1, 1), (fill 2, 0)].length = two.length :=
  ⟨⟨rfl, rfl⟩, listsOk_of (by decide) (by decide), by
    intro e he; simp [resolved, two] at he; rcases he with rfl | rfl <;> exact ⟨0, .drawn 1, rfl⟩, by decide, by decide⟩
theorem test_hyps_WriteServedToTheStore : EdReady (benchE []) idm ∧ ListsOk services [0x0009] two ∧
    (zeros 32).length = 16 * two.length ∧
    (commandFrame 0x08 idm (listsWire [0x0009] two ++ zeros 32)).length ≤ 255 ∧
    (∀ e ∈ resolved [0x0009] two, (writeBank (benchE []) e).isSome) :=
  ⟨⟨rfl, rfl⟩, listsOk_of (by decide) (by decide), by decide, by decide, List.all_eq_true.mp (by decide)⟩
/-- B9 and B28: block 0x20 is not in the store; and B27: a read-only service. -/
theorem test_hyps_FailingCallbackStops : EdReady (benchE []) idm ∧
    ListsOk services [0x000B] [(0x80, 1), (0x80, 0x20)] ∧
    resolved [0x000B] [(0x80, 1), (0x80, 0x20)] = [(0x000B, 1)] ++ (0x000B, 0x20) :: [] ∧
    (readBank (benchE []) (0x000B, 1)).isSome ∧ readMisses (benchE []) (0x000B, 0x20) ∧
    readMisses (benchE []) (0x000B, 16) ∧ (writeBank (benchE []) (0x0009, 15)).isSome ∧
    writeFails (benchE []) (0x0009, 16) ∧ writeFails (benchE []) (0x000B, 1) :=
  ⟨⟨rfl, rfl⟩, listsOk_of (by decide) (by decide), by decide, by decide, ⟨0, 16, .readOnly, rfl, by decide⟩,
    ⟨0, 16, .readOnly, rfl, by decide⟩, by decide, .inl ⟨0, 16, .store 0 16, rfl, by decide⟩, .inr ⟨.store 0 16, rfl⟩⟩
theorem test_hyps_WriteServedFromDraws :
    EdReady (benchD [] [⟨true, 2⟩, ⟨false, 0⟩]) idm ∧ ListsOk (benchD [] []).ed.svc [0x000B] two ∧
    (∀ e ∈ resolved [0x000B] two, ∃ h rd, lookupService (benchD [] []).ed.svc e.1 = some { rd := rd, wr := .drawn h }) ∧
    [2].length < two.length ∧ [2, 0].length = two.length :=
  ⟨⟨rfl, rfl⟩, listsOk_of (by decide) (by decide), by
    intro e he; simp [resolved, two] at he; rcases he with rfl | rfl <;> exact ⟨1, .drawn 0, rfl⟩, by decide, by decide⟩
/-- B2 and B14: 0x0099 is not registered, first and second of the list. -/
theorem test_hyps_UnknownServiceStatus : EdReady (benchE []) idm ∧ lookupService services 0x0099 = none ∧
    (∀ c ∈ [(0x000B : Svc)], (lookupService services c).isSome) ∧ ([] : List Svc).length < 1 ∧ [(0x000B : Svc)].length < 2 ∧
    (commandFrame 0x08 idm ([byte 2] ++ [(0x000B : Svc)].flatMap lowHigh ++ lowHigh 0x0099 ++ [])).length ≤ 255 :=
  ⟨⟨rfl, rfl⟩, by decide, List.all_eq_true.mp (by decide), by decide, by decide, by decide⟩
/-- B6 and B18: index 1 of one service, index 0 of none. -/
theorem test_hyps_ServiceIndexStatus : EdReady (benchE []) idm ∧ ListsOk services [0x000B] two ∧
    [(0x000B : Svc)].length ≤ (0x81 : Byte).toNat % 16 ∧ ([] : List Svc).length ≤ (0x80 : Byte).toNat % 16 ∧
    two.length < 3 ∧ (commandFrame 0x06 idm ([byte 1] ++ [(0x000B : Svc)].flatMap lowHigh ++ [byte 3] ++
      two.flatMap entryWire ++ [0x81] ++ [])).length ≤ 255 :=
  ⟨⟨rfl, rfl⟩, listsOk_of (by decide) (by decide), by decide, by decide, by decide, by decide⟩
/-- B11, B12, B15: sound lists cut after 0 bytes and before the last; then each place of `CutShort`, among them B17 and a
service list cut before its first code while no code is registered. -/
theorem test_hyps_TruncatedListsDropped : EdReady (benchE []) idm ∧ ListsOk services [0x000B] two ∧
    0 < (listsWire [0x000B] two).length ∧ 7 < (listsWire [0x000B] two).length ∧
    (listsWire [0x000B] two).length = 8 ∧ CutShort services [] ∧ CutShort [] [1] ∧ CutShort services [2, 0x0B, 0, 9] ∧
    CutShort services [1, 0x0B, 0] ∧ CutShort services [0, 1] ∧ CutShort services [1, 0x0B, 0, 2, 0x80, 1] ∧
    CutShort services [1, 0x0B, 0, 1, 0x80] ∧ CutShort services [1, 0x0B, 0, 1, 0x00, 3] := by
  have ok : ∀ e, e.all (fun e : Byte × BitVec 16 => decide (e.1.toNat % 16 < 1) &&
      (decide (e.1.toNat / 128 ≠ 1) || decide (e.2.toNat < 256))) = true → ListsOk services [0x000B] e :=
    fun e h => listsOk_of (by decide) h
  exact ⟨⟨rfl, rfl⟩, listsOk_of (by decide) (by decide), by decide, by decide, by decide, .serviceCount,
    .service 1 [] [] (by decide) (by decide) (by simp) (by decide),
    .service 2 [0x000B] [9] (by decide) (by decide) (List.all_eq_true.mp (by decide)) (by decide),
    .blockCount [0x000B] (by decide) (List.all_eq_true.mp (by decide)),
    .header [] 1 [] (by decide) (by decide) (by decide) (listsOk_of (by decide) (by decide)),
    .header [0x000B] 2 [(0x80, 1)] (by decide) (by decide) (by decide) (ok _ (by decide)),
    .number [0x000B] 1 [] 0x80 [] (by decide) (by decide) (by decide) (ok _ (by decide)) (by decide) (by decide),
    .number [0x000B] 1 [] 0x00 [3] (by decide) (by decide) (by decide) (ok _ (by decide)) (by decide) (by decide)⟩
/-- B22: 16 entries; B25: 15 bytes for one entry. -/
theorem test_hyps_LengthStatuses : EdReady (benchE []) idm ∧
    ListsOk services [0x000B] (List.replicate 16 (0x80, 1)) ∧
    (commandFrame 0x06 idm (listsWire [0x000B] (List.replicate 16 (0x80, 1)) ++ [])).length ≤ 255 ∧
    16 ≤ (List.replicate 16 ((0x80, 1) : Byte × BitVec 16)).length ∧ ListsOk services [0x0009] [(0x80, 1)] ∧
    (commandFrame 0x08 idm (listsWire [0x0009] [(0x80, 1)] ++ zeros 15)).length ≤ 255 ∧
    (zeros 15).length ≠ 16 * [((0x80, 1) : Byte × BitVec 16)].length :=
  ⟨⟨rfl, rfl⟩, listsOk_of (by decide) (by decide), by decide, by decide, listsOk_of (by decide) (by decide), by decide, by decide⟩
theorem test_hyps_DispatchKeepsRegisters : (benchE []).ed.phase = .idle := by decide
/-- E8: a response; E13: a drop. -/
theorem test_hyps_ResponsesAreFramed : (benchE []).ed.idm = some idm ∧
    toldEmulator (exec (.dispatch [10, 4, 1, 2, 3, 4, 5, 6, 7, 8]) (benchE [])) =
      some (.respond [11, 5, 1, 2, 3, 4, 5, 6, 7, 8, 0] []) := by decide
theorem test_hyps_CallsFollowTheBlockList : (benchE []).ed.phase = .idle ∧
    toldEmulator (exec (.dispatch [1]) (benchE [])) = some (.drop .tooShort []) ∧
    toldEmulator (exec (.dispatch [10, 4, 1, 2, 3, 4, 5, 6, 7, 8]) (benchE [])) =
      some (.respond [11, 5, 1, 2, 3, 4, 5, 6, 7, 8, 0] []) := by decide
theorem test_hyps_UnitsShareNoRegister : emulationSide (.dispatch []) = true ∧ emulationSide .getAttr = false ∧
    State.reset.transport.link = .external ∧
    exec (.dispatch []) State.reset = .next (State.reset.replyEmulator (.err (.unconfigured .edIdentity))) ∧
    exec .getAttr State.reset = .next (State.reset.reply (.err (.unconfigured .reTag))) := ⟨rfl, rfl, rfl, rfl, rfl⟩
/-- TIMEOUT_RD is none of the instructions that the clauses leave out; READ_BLOCKS over an external transport is one. -/
theorem test_hyps_RegistersHaveTheirWriters :
    exec (.timeoutRd 0) State.reset = .next (State.reset.reply (.err (.unconfigured .reTag))) ∧
    (∀ a b, Instr.timeoutRd 0 ≠ .loadTag a b) ∧ (∀ a b c, Instr.timeoutRd 0 ≠ .loadIdentity a b c) ∧
    (∀ a b c, Instr.timeoutRd 0 ≠ .registerService a b c) ∧ Instr.timeoutRd 0 ≠ .getAttr ∧
    Instr.timeoutRd 0 ≠ .ndefGet ∧ (∀ d, Instr.timeoutRd 0 ≠ .ndefSet d) ∧ exchanging (.timeoutRd 0) = false ∧
    responseFrame (.timeoutRd 0) = false ∧ dispatching (.timeoutRd 0) = false ∧
    (exec (.readBlocks 11 []) State.reset = .next (State.reset.reply (.err (.unconfigured .reTag))) ∧
      dispatching (.readBlocks 11 []) = false ∧ State.reset.transport.link = .external) :=
  ⟨rfl, by simp, by simp, by simp, by simp, by simp, by simp, rfl, rfl, rfl, rfl, rfl, rfl⟩
theorem test_hyps_LoopbackReadReturnsTheBlocks : (benchL []).unitsIdle ∧ (benchL []).transport.link = .loopback ∧
    (benchL []).re.idm = some idm ∧ (benchL []).re.pmm = some pmm ∧ (benchL []).ed.idm = some idm ∧
    lookupService (benchL []).ed.svc 0x000B = some { rd := .store 0 16, wr := .readOnly } ∧
    1 ≤ (List.range 15).length ∧ (List.range 15).length ≤ 15 ∧ (∀ b ∈ List.range 15, b < 16 ∧ b ≤ 0xFFFF) := by decide
theorem test_hyps_LoopbackWriteStoresTheBlocks : (benchL []).unitsIdle ∧
    lookupService (benchL []).ed.svc 0x0009 = some { rd := .store 0 16, wr := .store 0 16 } ∧
    1 ≤ (List.range 13).length ∧ WriteFits (List.range 13) ∧ (zeros 208).length = 16 * (List.range 13).length ∧
    (∀ b ∈ List.range 13, b < 16 ∧ b ≤ 0xFFFF) := by unfold WriteFits; decide +kernel
/-- Bench L with the ATTR example: the capacity, 208 bytes, and nbw 1; with H9's third block, nbw 13. -/
theorem test_hyps_SetThenGetReturnsTheMessage : (benchL [(0, attrBlock)]).unitsIdle ∧
    Memory.wf (benchL [(0, attrBlock)]).app.mem ∧
    (Memory.readBlock (benchL [(0, attrBlock)]).app.mem 0 0).val = attrBlock.val ∧ attrValid attrBlock.val = true ∧
    attrRecord attrBlock.val = attrRec ∧ attrRec.writeable = true ∧ (zeros 208).length ≤ 16 * attrRec.nmaxb.toNat ∧
    ((zeros 208).length + 15) / 16 < 16 ∧ 1 ≤ attrRec.nbr.toNat ∧ 1 ≤ attrRec.nbw.toNat ∧
    (∀ C ∈ chunks (blocksOfMessage 208) attrRec.nbr.toNat, C.length ≤ 15) ∧
    (∀ C ∈ chunks (blocksOfMessage 208) attrRec.nbw.toNat, WriteFits C) ∧
    (∀ C ∈ chunks (blocksOfMessage 208) 13, WriteFits C) ∧
    (benchL [(0, attrBlock)]).reader.cache = none := by unfold WriteFits; decide +kernel
theorem test_hyps_DecodeInvertsEncode : (Instr.writeChunked [1] (zeros 16) 1).wf = true ∧
    (Instr.attrParse attrBlock.val).wf = true ∧ [(0 : Byte)] ≠ [] ∧ encode (.timeoutRd 300) = [0x11, 0xAC, 0x02] := by decide
theorem test_hyps_UnknownOperationsRefused : (0x13 : Byte) ∉ [0x10, 0x11, 0x12, 0x20, 0x21, 0x22, 0x23, 0x24, 0x25, 0x30,
      0x31, 0x32, 0x40, 0x41, 0x42, 0x00, 0x01, 0x04, 0x05, 0x06, 0x07, 0x08, 0x09, 0x0C, 0x0D, 0x80, 0x81, 0x82, 0x83,
      0x84] ∧ (State.reset.setProgram [[0x13]]).program[0]? = some [0x13] := by decide
theorem test_hyps_StepRunsTheDecodedInstruction :
    (State.reset.setProgram [[0x83]]).program[0]? = some [0x83] ∧ decode [0x83] = .ok .ndefGet ∧
    exec .ndefGet (State.reset.setProgram [[0x83]]) =
      .next ((State.reset.setProgram [[0x83]]).reply (.err (.unconfigured .reTag))) := ⟨rfl, by decide, rfl⟩
theorem test_hyps_EveryInstructionReturns : (Instr.getAttr).selector.toNat ≥ 0x10 ∧ emulationSide .getAttr = false ∧
    (Instr.dispatch []).selector.toNat ≥ 0x10 ∧ emulationSide (.dispatch []) = true := by decide
theorem test_hyps_StepKeepsGood : (State.reset.setProgram [[0x83]]).Good ∧
    step (State.reset.setProgram [[0x83]]) =
      .next ((State.reset.setProgram [[0x83]]).reply (.err (.unconfigured .reTag))).advance :=
  ⟨⟨by decide, by decide, by decide, by decide, by decide, by decide⟩, rfl⟩
theorem test_hyps_StoreReadAfterWrite : Memory.wf [(16, 1), (17, 2)] ∧ ¬((0 : BitVec 16) = 0 ∧ (0 : BitVec 16) = 1) ∧
    ¬ inBlock 0 1 15 ∧ ¬ inBlock 0 1 32 ∧ inBlock 0 1 16 ∧ inBlock 0 1 31 :=
  ⟨by decide, by decide, by unfold inBlock; decide, by unfold inBlock; decide, by unfold inBlock; decide,
    by unfold inBlock; decide⟩

end Sys2Proof.Tests
end

section
/-! Busy units (R12, R140, R152, R190, R239): what each gated operation does while its gate is shut, and O18. -/

namespace Sys2Proof.Machine

/-! ## The reader RE while an exchange is in flight (R140, R152) -/

/-- An exchange begun while one is in flight ends before its serializer is called (log 14). -/
theorem readBlocks_await {s : State} (h : s.re.phase = .await) (svc : Svc) (blocks : List Nat) :
    readBlocks svc blocks s = (.error .refused, s) := by
  simp only [readBlocks, reGate_await h]

/-- WRITE_BLOCKS, as `readBlocks_await`. -/
theorem writeBlocks_await {s : State} (h : s.re.phase = .await) (svc : Svc) (blocks : List Nat) (data : List Byte) :
    writeBlocks svc blocks data s = (.error .refused, s) := by
  simp only [writeBlocks, reGate_await h]

theorem exec_loadTag_await {s : State} (h : s.re.phase = .await) (idm pmm : Bytes 8) :
    exec (.loadTag idm pmm) s = .next (s.reply (.err .refused)) := by
  simp only [exec, execLoadTag, reGate_await h, State.raise_eq]

theorem exec_readBlocks_await {s : State} (h : s.re.phase = .await) (svc : Svc) (blocks : List Nat) :
    exec (.readBlocks svc blocks) s = .next (s.reply (.err .refused)) := by
  simp only [exec, execReadBlocks, readBlocks_await h, State.finish_error]

theorem exec_writeBlocks_await {s : State} (h : s.re.phase = .await) (svc : Svc) (blocks : List Nat)
    (data : List Byte) : exec (.writeBlocks svc blocks data) s = .next (s.reply (.err .refused)) := by
  simp only [exec, execWriteBlocks, writeBlocks_await h, State.finish_error]

/-! ## The dispatcher ED while a DISPATCH runs (R190) -/

/-- A DISPATCH inside a DISPATCH does not look at its frame, and keeps the state of the one that runs. -/
theorem dispatchFrame_busy {s : State} (h : s.ed.phase = .busy) (F : List Byte) :
    dispatchFrame F s = (.err .refused, s) := by
  simp only [dispatchFrame, edGate_busy h]

/-- For an error the emulation host takes the record and sends nothing (D33). -/
@[simp] theorem deliverResult_err (e : Err) (s : State) : deliverResult (.err e) s = s.replyEmulator (.err e) := rfl

theorem exec_loadIdentity_busy {s : State} (h : s.ed.phase = .busy) (idm pmm : Bytes 8) (sys : Bytes 2) :
    exec (.loadIdentity idm pmm sys) s = .next (s.replyEmulator (.err .refused)) := by
  simp only [exec, execLoadIdentity, edGate_busy h, State.raiseEmulator_eq]

theorem exec_registerService_busy {s : State} (h : s.ed.phase = .busy) (code : Svc) (rd : ReadCb) (wr : WriteCb) :
    exec (.registerService code rd wr) s = .next (s.replyEmulator (.err .refused)) := by
  simp only [exec, execRegisterService, edGate_busy h, State.raiseEmulator_eq]

theorem exec_dispatch_busy {s : State} (h : s.ed.phase = .busy) (F : List Byte) :
    exec (.dispatch F) s = .next (s.replyEmulator (.err .refused)) := by
  simp only [exec, execDispatch, dispatchFrame_busy h, deliverResult_err]

end Sys2Proof.Machine

namespace Sys2Proof.Claims

open Machine

/-- Settles O18, by one case for each operation that R140, R152 and R190 name. -/
theorem busyUnitsRefuse : Obligations.BusyUnitsRefuse := by
  unfold Obligations.BusyUnitsRefuse
  intro s i
  constructor
  · rintro hAwait (⟨idm, pmm, rfl⟩ | ⟨svc, blocks, rfl⟩ | ⟨svc, blocks, data, rfl⟩)
    · exact exec_loadTag_await hAwait idm pmm
    · exact exec_readBlocks_await hAwait svc blocks
    · exact exec_writeBlocks_await hAwait svc blocks data
  · rintro hBusy (⟨idm, pmm, sys, rfl⟩ | ⟨code, rd, wr, rfl⟩ | ⟨F, rfl⟩)
    · exact exec_loadIdentity_busy hBusy idm pmm sys
    · exact exec_registerService_busy hBusy code rd wr
    · exact exec_dispatch_busy hBusy F

end Sys2Proof.Claims
end

section
/-! What an instruction can do (R21, R42, R98): one inversion lemma of `exec`, and what follows from it about who writes
which register, about good states and about the results delivered: O48, O59 and O56, with O55, O57 and O58. -/

namespace Sys2Proof.Machine

open Claims

/-! ## The instructions by what they can write -/

/-- The instructions that fill or empty CACHE (R171, R178). -/
def caching : Instr → Bool
  | .getAttr => true
  | .ndefGet => true
  | .ndefSet _ => true
  | _ => false

theorem caching_of_ne {i : Instr} (hGet : i ≠ .getAttr) (hRead : i ≠ .ndefGet) (hSet : ∀ d, i ≠ .ndefSet d) :
    caching i = false := by
  cases i <;> simp_all [caching]

/-- A sequence that uses CACHE makes its exchanges by READ_BLOCKS and WRITE_BLOCKS (R98). -/
theorem exchanging_of_caching {i : Instr} (h : caching i = true) : exchanging i = true := by
  cases i <;> simp_all [caching, exchanging]

theorem not_emulationSide_of_exchanging {i : Instr} (h : exchanging i = true) : emulationSide i = false := by
  cases i <;> simp_all [exchanging, emulationSide]

theorem emulationSide_of_dispatching {i : Instr} (h : dispatching i = true) : emulationSide i = true := by
  cases i <;> simp_all [dispatching, emulationSide]

/-- A response frame is no operation of the host port: its code byte is below every operation number (R80, R93). -/
theorem selector_lt_of_responseFrame {i : Instr} (h : responseFrame i = true) : i.selector.toNat < 0x10 := by
  cases i <;> simp_all [responseFrame, Instr.selector]

/-- All that an instruction can do: it writes the registers that R42 names for it and delivers its record. -/
inductive Effect : Instr → State → State → Prop
  /-- a reader-side operation that writes no register, or ends before it writes one -/
  | result {i : Instr} {s : State} (r : HostResult) : emulationSide i = false → Effect i s (s.reply r)
  /-- an operation of ED that its gate refuses -/
  | refused {i : Instr} {s : State} (r : HostResult) : emulationSide i = true → Effect i s (s.replyEmulator r)
  | loadTag {s : State} (idm pmm : Bytes 8) (r : HostResult) :
    Effect (.loadTag idm pmm) s ((s.setTag idm pmm).reply r)
  | loadIdentity {s : State} (idm pmm : Bytes 8) (sys : Bytes 2) (r : HostResult) :
    Effect (.loadIdentity idm pmm sys) s ((s.setIdentity idm pmm sys).replyEmulator r)
  | registerService {s : State} (code : Svc) (rd : ReadCb) (wr : WriteCb) (r : HostResult) :
    Effect (.registerService code rd wr) s
      ((s.setServices (insertService s.ed.svc code { rd := rd, wr := wr })).replyEmulator r)
  | exchange {i : Instr} {s t : State} (r : HostResult) : exchanging i = true → InsideExchange s t →
    Effect i s (t.reply r)
  | sequence {i : Instr} {s t : State} (r : HostResult) : caching i = true → InsideSequence s t →
    Effect i s (t.reply r)
  /-- DISPATCH, which delivers its record, or a command frame, which delivers one for each answer of wait_command -/
  | serve {i : Instr} {s t : State} : dispatching i = true → InsideArrival s t →
    (0x10 ≤ i.selector.toNat → ∃ r, t.emulator.results = s.emulator.results ++ [r]) → Effect i s t
  /-- a response frame that no Receive waits for (log 5) -/
  | wait {i : Instr} {s : State} (tr : Transport) : responseFrame i = true → Effect i s (s.setTransport tr)
  /-- a response frame that ends the exchange in flight -/
  | complete {i : Instr} {s : State} (e : WireEvent) (r : HostResult) : responseFrame i = true →
    Effect i s ((s.endAwait.logWire e).reply r)

/-! ## The inversion lemma -/

theorem execLoadTag_effect (idm pmm : Bytes 8) (s : State) :
    ∃ t, exec (.loadTag idm pmm) s = .next t ∧ Effect (.loadTag idm pmm) s t := by
  cases hp : s.re.phase with
  | idle => exact ⟨_, by simp only [exec, execLoadTag, reGate_idle hp], .loadTag idm pmm (.ok .unit)⟩
  | await => exact ⟨_, exec_loadTag_await hp idm pmm, .result _ rfl⟩

theorem execLoadIdentity_effect (idm pmm : Bytes 8) (sys : Bytes 2) (s : State) :
    ∃ t, exec (.loadIdentity idm pmm sys) s = .next t ∧ Effect (.loadIdentity idm pmm sys) s t := by
  cases hp : s.ed.phase with
  | idle => exact ⟨_, by simp only [exec, execLoadIdentity, edGate_idle hp],
    .loadIdentity idm pmm sys (.ok .unit)⟩
  | busy => exact ⟨_, exec_loadIdentity_busy hp idm pmm sys, .refused _ rfl⟩

theorem execRegisterService_effect (code : Svc) (rd : ReadCb) (wr : WriteCb) (s : State) :
    ∃ t, exec (.registerService code rd wr) s = .next t ∧ Effect (.registerService code rd wr) s t := by
  cases hp : s.ed.phase with
  | idle => exact ⟨_, by simp only [exec, execRegisterService, edGate_idle hp],
    .registerService code rd wr (.ok .unit)⟩
  | busy => exact ⟨_, exec_registerService_busy hp code rd wr, .refused _ rfl⟩

/-- DISPATCH, and the delivery of its record by the host (R37). -/
theorem exec_dispatch (F : List Byte) (s : State) :
    exec (.dispatch F) s = .next (deliverResult (dispatchFrame F s).1 (dispatchFrame F s).2) := rfl

theorem execDispatch_effect (F : List Byte) (s : State) :
    ∃ t, exec (.dispatch F) s = .next t ∧ Effect (.dispatch F) s t :=
  ⟨_, exec_dispatch F s, .serve rfl (deliverResult_inside F s).arrival fun _ =>
    ⟨_, by rw [deliverResult_emulator, (dispatchFrame_inside F s).emulator]⟩⟩

/-- The record of a reader-side operation does not depend on how it ends. -/
theorem Effect.finish {α : Type} {i : Instr} {s t : State} (h : ∀ r, Effect i s (t.reply r)) (f : α → Value)
    (r : Except Err α) : Effect i s (t.finish f r) := by
  rw [State.finish_eq_reply]
  exact h _

theorem responseArrives_effect {i : Instr} (h : responseFrame i = true) (F : List Byte) (s : State) :
    Effect i s (responseArrives F s) := by
  unfold responseArrives
  split
  · unfold completeExchange
    split <;> exact Effect.finish (fun r => .complete _ r h) _ _
  · exact .wait _ h

theorem commandArrives_effect {i : Instr} (h : dispatching i = true) (hs : i.selector.toNat < 0x10) (F : List Byte)
    (s : State) : Effect i s (commandArrives F s) :=
  .serve h (commandArrives_inside F s) fun hle => absurd hle (Nat.not_le.2 hs)

/-- Every instruction ends with a next state, and does nothing but what `Effect` lists. -/
theorem exec_effect (i : Instr) (s : State) : ∃ t, exec i s = .next t ∧ Effect i s t := by
  cases i with
  | loadTag idm pmm => exact execLoadTag_effect idm pmm s
  | timeoutRd n => exact ⟨_, rfl, Effect.finish (fun r => .result r rfl) _ _⟩
  | timeoutWr n => exact ⟨_, rfl, Effect.finish (fun r => .result r rfl) _ _⟩
  | serRead svc blocks => exact ⟨_, rfl, Effect.finish (fun r => .result r rfl) _ _⟩
  | serWrite svc blocks data => exact ⟨_, rfl, Effect.finish (fun r => .result r rfl) _ _⟩
  | parseReadRsp frame n => exact ⟨_, rfl, Effect.finish (fun r => .result r rfl) _ _⟩
  | parseWriteRsp frame => exact ⟨_, rfl, Effect.finish (fun r => .result r rfl) _ _⟩
  | readBlocks svc blocks =>
    exact ⟨_, rfl, Effect.finish (fun r => .exchange r rfl (readBlocks_inside svc blocks s)) _ _⟩
  | writeBlocks svc blocks data =>
    exact ⟨_, rfl, Effect.finish (fun r => .exchange r rfl (writeBlocks_inside svc blocks data s)) _ _⟩
  | attrParse b => exact ⟨_, rfl, .result _ rfl⟩
  | attrSerialize ab => exact ⟨_, rfl, .result _ rfl⟩
  | attrCheck b => exact ⟨_, rfl, .result _ rfl⟩
  | loadIdentity idm pmm sys => exact execLoadIdentity_effect idm pmm sys s
  | registerService code rd wr => exact execRegisterService_effect code rd wr s
  | dispatch F => exact execDispatch_effect F s
  | getAttr => exact ⟨_, rfl, Effect.finish (fun r => .sequence r rfl (getAttr_inside s)) _ _⟩
  | readChunked blocks limit =>
    exact ⟨_, rfl, Effect.finish (fun r => .exchange r rfl (readChunked_inside blocks limit s)) _ _⟩
  | writeChunked blocks data limit =>
    exact ⟨_, rfl, Effect.finish (fun r => .exchange r rfl (writeChunked_inside blocks data limit s)) _ _⟩
  | ndefGet => exact ⟨_, rfl, Effect.finish (fun r => .sequence r rfl (ndefGet_inside s)) _ _⟩
  | ndefSet data => exact ⟨_, rfl, Effect.finish (fun r => .sequence r rfl (ndefSet_inside data s)) _ _⟩
  | pollingCmd len rest => exact ⟨_, rfl, commandArrives_effect rfl (by simp [Instr.selector]) _ s⟩
  | pollingRsp len rest => exact ⟨_, rfl, responseArrives_effect rfl _ s⟩
  | requestResponseCmd len rest => exact ⟨_, rfl, commandArrives_effect rfl (by simp [Instr.selector]) _ s⟩
  | requestResponseRsp len rest => exact ⟨_, rfl, responseArrives_effect rfl _ s⟩
  | readWoEncCmd len rest => exact ⟨_, rfl, commandArrives_effect rfl (by simp [Instr.selector]) _ s⟩
  | readWoEncRsp len rest => exact ⟨_, rfl, responseArrives_effect rfl _ s⟩
  | writeWoEncCmd len rest => exact ⟨_, rfl, commandArrives_effect rfl (by simp [Instr.selector]) _ s⟩
  | writeWoEncRsp len rest => exact ⟨_, rfl, responseArrives_effect rfl _ s⟩
  | requestSystemCodeCmd len rest => exact ⟨_, rfl, commandArrives_effect rfl (by simp [Instr.selector]) _ s⟩
  | requestSystemCodeRsp len rest => exact ⟨_, rfl, responseArrives_effect rfl _ s⟩

theorem effect_of_exec {i : Instr} {s t : State} (h : exec i s = .next t) : Effect i s t := by
  obtain ⟨u, hu, e⟩ := exec_effect i s
  rw [hu] at h
  cases h
  exact e

/-! ## The registers that no other instruction writes (R42) -/

variable {i : Instr} {s t : State}

theorem Effect.keeps_tag (e : Effect i s t) (h : ∀ idm pmm, i ≠ .loadTag idm pmm) :
    t.re.idm = s.re.idm ∧ t.re.pmm = s.re.pmm := by
  cases e with
  | loadTag idm pmm r => exact absurd rfl (h idm pmm)
  | exchange r _ k => exact ⟨k.idm, k.pmm⟩
  | sequence r _ k => obtain ⟨c, k⟩ := k; exact ⟨k.idm, k.pmm⟩
  | serve _ k _ => rw [k.re]; exact ⟨rfl, rfl⟩
  | _ => exact ⟨rfl, rfl⟩

theorem Effect.keeps_pend (e : Effect i s t) (h : exchanging i = false) :
    t.re.pend = s.re.pend ∧ (responseFrame i = false → t.re.phase = s.re.phase) := by
  cases e with
  | exchange r hx _ => rw [hx] at h; cases h
  | sequence r hc _ => rw [exchanging_of_caching hc] at h; cases h
  | serve _ k _ => rw [k.re]; exact ⟨rfl, fun _ => rfl⟩
  | complete w r hr => exact ⟨rfl, fun hn => by rw [hr] at hn; cases hn⟩
  | _ => exact ⟨rfl, fun _ => rfl⟩

theorem Effect.keeps_identity (e : Effect i s t) (h : ∀ idm pmm sys, i ≠ .loadIdentity idm pmm sys) :
    t.ed.idm = s.ed.idm ∧ t.ed.pmm = s.ed.pmm ∧ t.ed.sys = s.ed.sys := by
  cases e with
  | loadIdentity idm pmm sys r => exact absurd rfl (h idm pmm sys)
  | exchange r _ k => rw [State.reply_ed, k.ed]; exact ⟨rfl, rfl, rfl⟩
  | sequence r _ k => obtain ⟨c, k⟩ := k; rw [State.reply_ed, k.ed]; exact ⟨rfl, rfl, rfl⟩
  | serve _ k _ => rw [k.ed]; exact ⟨rfl, rfl, rfl⟩
  | _ => exact ⟨rfl, rfl, rfl⟩

theorem Effect.keeps_services (e : Effect i s t) (h : ∀ code rd wr, i ≠ .registerService code rd wr) :
    t.ed.svc = s.ed.svc := by
  cases e with
  | registerService code rd wr r => exact absurd rfl (h code rd wr)
  | exchange r _ k => rw [State.reply_ed, k.ed]
  | sequence r _ k => obtain ⟨c, k⟩ := k; rw [State.reply_ed, k.ed]; rfl
  | serve _ k _ => rw [k.ed]
  | _ => rfl

/-- ED's phase and working registers: an exchange reaches them over a loopback only (log 7). -/
theorem Effect.keeps_work (e : Effect i s t) (h : dispatching i = false)
    (hx : exchanging i = false ∨ s.transport.link = .external) : t.ed.phase = s.ed.phase ∧ t.ed.work = s.ed.work := by
  cases e with
  | exchange r hi k =>
    obtain ⟨hed, -, -⟩ := k.external (hx.resolve_left (by simp [hi]))
    rw [State.reply_ed, hed]; exact ⟨rfl, rfl⟩
  | sequence r hi k =>
    obtain ⟨c, k⟩ := k
    obtain ⟨hed, -, -⟩ := k.external (hx.resolve_left (by simp [exchanging_of_caching hi]))
    rw [State.reply_ed, hed]; exact ⟨rfl, rfl⟩
  | serve hd _ _ => rw [hd] at h; cases h
  | _ => exact ⟨rfl, rfl⟩

theorem Effect.keeps_cache (e : Effect i s t) (h : caching i = false) : t.reader.cache = s.reader.cache := by
  cases e with
  | exchange r _ k => rw [State.reply_reader, k.reader]
  | sequence r hc _ => rw [hc] at h; cases h
  | serve _ k _ => rw [k.reader]
  | _ => rfl

theorem Effect.keeps_serviceCodes (e : Effect i s t) :
    t.reader.svcRd = s.reader.svcRd ∧ t.reader.svcWr = s.reader.svcWr := by
  cases e with
  | exchange r _ k => rw [State.reply_reader, k.reader]; exact ⟨rfl, rfl⟩
  | sequence r _ k => obtain ⟨c, k⟩ := k; rw [State.reply_reader, k.reader]; exact ⟨rfl, rfl⟩
  | serve _ k _ => rw [k.reader]; exact ⟨rfl, rfl⟩
  | _ => exact ⟨rfl, rfl⟩

/-! ## The results delivered (R37) -/

theorem Effect.reader_results (e : Effect i s t) (hs : 0x10 ≤ i.selector.toNat) (hi : emulationSide i = false) :
    ∃ r, t.reader.results = s.reader.results ++ [r] := by
  cases e with
  | result r _ => exact ⟨r, rfl⟩
  | refused r h => rw [h] at hi; cases hi
  | loadTag idm pmm r => exact ⟨r, rfl⟩
  | loadIdentity idm pmm sys r => cases hi
  | registerService code rd wr r => cases hi
  | exchange r _ k => exact ⟨r, by rw [State.reply_reader, k.reader]⟩
  | sequence r _ k => obtain ⟨c, k⟩ := k; exact ⟨r, by rw [State.reply_reader, k.reader]; rfl⟩
  | serve h _ _ => rw [emulationSide_of_dispatching h] at hi; cases hi
  | wait tr h => exact absurd hs (Nat.not_le.2 (selector_lt_of_responseFrame h))
  | complete w r h => exact ⟨r, rfl⟩

theorem Effect.emulator_results (e : Effect i s t) (hs : 0x10 ≤ i.selector.toNat) (hi : emulationSide i = true) :
    ∃ r, t.emulator.results = s.emulator.results ++ [r] := by
  cases e with
  | result r h => rw [h] at hi; cases hi
  | refused r _ => exact ⟨r, rfl⟩
  | loadTag idm pmm r => cases hi
  | loadIdentity idm pmm sys r => exact ⟨r, rfl⟩
  | registerService code rd wr r => exact ⟨r, rfl⟩
  | exchange r h _ => rw [not_emulationSide_of_exchanging h] at hi; cases hi
  | sequence r h _ => rw [not_emulationSide_of_exchanging (exchanging_of_caching h)] at hi; cases hi
  | serve _ _ h => exact h hs
  | wait tr h => exact absurd hs (Nat.not_le.2 (selector_lt_of_responseFrame h))
  | complete w r h => exact absurd hs (Nat.not_le.2 (selector_lt_of_responseFrame h))

/-! ## Good states (R264) -/

/-- A good state stays good when only what `Good` does not speak of changes. -/
theorem State.Good.congr (g : s.Good) (hre : t.re = s.re) (hed : t.ed = s.ed) (hmem : t.app.mem = s.app.mem) : t.Good :=
  ⟨by rw [State.unitsIdle, hre, hed]; exact g.idle, by rw [State.tagPaired, hre]; exact g.tag,
    by rw [State.identityPaired, hed]; exact g.identity, by rw [hed]; exact g.services, by rw [hmem]; exact g.store,
    by rw [hed]; exact g.work⟩

/-- Fresh working registers within their widths leave ED as good as it was. -/
theorem State.Good.serve (g : s.Good) (hre : s.re.phase = .idle → t.re.phase = .idle) (hidm : t.re.idm = s.re.idm)
    (hpmm : t.re.pmm = s.re.pmm) (hed : t.ed = { s.ed with work := t.ed.work }) (hfits : t.ed.work.fits)
    (hstore : Memory.wf t.app.mem) : t.Good := by
  refine ⟨⟨hre g.idle.1, ?_⟩, ?_, ?_, ?_, hstore, hfits⟩
  · rw [hed]; exact g.idle.2
  · rw [State.tagPaired, hidm, hpmm]; exact g.tag
  · rw [State.identityPaired, hed]; exact g.identity
  · rw [hed]; exact g.services

theorem InsideExchange.good (k : InsideExchange s t) (g : s.Good) : t.Good :=
  g.serve k.phase k.idm k.pmm k.ed (k.fits g.work) (k.store g.store)

theorem InsideArrival.good (k : InsideArrival s t) (g : s.Good) : t.Good :=
  g.serve (fun h => by rw [k.re]; exact h) (by rw [k.re]) (by rw [k.re]) k.ed (k.fits g.work) (k.store g.store)

/-- Every instruction keeps the good-state invariant. -/
theorem Effect.good (e : Effect i s t) (g : s.Good) : t.Good := by
  cases e with
  | result r _ => exact g.congr rfl rfl rfl
  | refused r _ => exact g.congr rfl rfl rfl
  | loadTag idm pmm r => exact ⟨g.idle, rfl, g.identity, g.services, g.store, g.work⟩
  | loadIdentity idm pmm sys r => exact ⟨g.idle, g.tag, ⟨rfl, rfl⟩, g.services, g.store, g.work⟩
  | registerService code rd wr r => exact ⟨g.idle, g.tag, g.identity, sorted_insertService g.services, g.store, g.work⟩
  | exchange r _ k => exact (k.good g).congr rfl rfl rfl
  | sequence r _ k =>
    obtain ⟨c, k⟩ := k
    have gc : (s.setCache c).Good := g.congr rfl rfl rfl
    exact (k.good gc).congr rfl rfl rfl
  | serve _ k _ => exact k.good g
  | wait tr _ => exact g.congr rfl rfl rfl
  | complete w r _ => exact ⟨⟨rfl, g.idle.2⟩, g.tag, g.identity, g.services, g.store, g.work⟩

/-! ## A step (R29) -/

/-- When a step goes on, it has run the instruction at the program index. -/
theorem step_next (h : step s = .next t) : ∃ i u, exec i s = .next u ∧ t = u.advance := by
  unfold step at h
  split at h
  · unfold atProgramEnd at h
    split at h <;> cases h
  split at h
  · cases h
  rename_i i _
  obtain ⟨u, hu, -⟩ := exec_effect i s
  rw [hu] at h
  cases h
  exact ⟨i, u, hu, rfl⟩

theorem step_of_decode {item : List Byte} (hItem : fetchItem s = some item) (hDecode : decode item = .ok i)
    (hExec : exec i s = .next t) : step s = .next t.advance := by
  simp only [step, hItem, hDecode, hExec]

end Sys2Proof.Machine

namespace Sys2Proof.Claims

open Machine

/-- Settles O48: `exec_effect` lists what each instruction can write, and each register is looked up there. -/
theorem registersHaveTheirWriters : Obligations.RegistersHaveTheirWriters := by
  unfold Obligations.RegistersHaveTheirWriters
  intro i s t h
  have e := effect_of_exec h
  exact ⟨e.keeps_tag, e.keeps_pend, e.keeps_identity, e.keeps_services, e.keeps_work,
    fun hGet hRead hSet => e.keeps_cache (caching_of_ne hGet hRead hSet), e.keeps_serviceCodes⟩

/-- Settles O59: a step runs one instruction, and each effect of `exec_effect` keeps the invariant. -/
theorem stepKeepsGood : Obligations.StepKeepsGood := by
  unfold Obligations.StepKeepsGood
  intro s t g h
  obtain ⟨i, u, hExec, rfl⟩ := step_next h
  exact ((effect_of_exec hExec).good g).congr rfl rfl rfl

/-- Settles O56, by `exec_effect`. -/
theorem everyInstructionReturns : Obligations.EveryInstructionReturns := by
  unfold Obligations.EveryInstructionReturns
  intro i s
  obtain ⟨t, h, e⟩ := exec_effect i s
  exact ⟨t, h, rfl, e.reader_results, e.emulator_results⟩

/-- Settles O55. -/
theorem stepRunsTheDecodedInstruction : Obligations.StepRunsTheDecodedInstruction := by
  unfold Obligations.StepRunsTheDecodedInstruction
  intro s i item hItem hDecode t hExec
  exact step_of_decode hItem hDecode hExec

/-- Settles O57: each register of `State.reset` by evaluation. -/
theorem resetValues : Obligations.ResetValues := by
  unfold Obligations.ResetValues
  exact ⟨rfl, rfl, rfl, rfl, rfl, rfl, rfl, rfl, rfl, rfl, rfl⟩

/-- Settles O58: at reset every identity is UNLOADED and every list is empty. -/
theorem resetIsGood : Obligations.ResetIsGood := by
  unfold Obligations.ResetIsGood
  exact ⟨⟨rfl, rfl⟩, rfl, ⟨rfl, rfl⟩, .nil, ⟨.nil, by simp [State.reset]⟩, cleared_fits⟩

end Sys2Proof.Claims
end

section
/-! The DISPATCH of one frame (R193 to R203): what the framing checks and the routing make of it, what the host does
with the result, and the frames that arrive: O30, O31, O44 and O32. -/

namespace Sys2Proof.Machine

open Claims

/-! ## How a DISPATCH ends -/

/-- The transport calls of the statements are the ones the host makes (R37). -/
theorem sentAfter_eq (r : HostResult) : sentAfter r = (responseOf r).toList.map WireEvent.response := by
  cases r <;> rfl

theorem deliverResult_transport_sentAfter (r : HostResult) (s : State) :
    (deliverResult r s).transport = { s.transport with log := s.transport.log ++ sentAfter r } := by
  rw [deliverResult_transport, sentAfter_eq]

/-- Delivering a result after a DISPATCH that left `w` and `a` behind. -/
theorem deliverResult_leaveDispatch {s : State} (h : s.ed.phase = .idle) (w : Work) (a : App) (r : HostResult) :
    deliverResult r ((s.enterDispatch.setWork w).setApp a).leaveDispatch = afterDispatch s w a r := by
  obtain ⟨re, ⟨idm, pmm, sys, svc, phase, work⟩, reader, emulator, transport, app, program, index⟩ := s
  obtain rfl : phase = .idle := h
  cases r with
  | respond frame calls => rfl
  | _ => simp [deliverResult, responseOf, afterDispatch, sentAfter, State.replyEmulator, State.leaveDispatch,
      State.enterDispatch, State.setWork, State.setApp]

/-- A DISPATCH that ED accepts ends as its handler does. -/
theorem exec_dispatch_of_handle {s : State} {idm : Bytes 8} {F : List Byte} {e : DispatchEnd} {w : Work} {a : App}
    (hs : EdReady s idm) (h : handleFrame idm F s.enterDispatch = (e, (s.enterDispatch.setWork w).setApp a)) :
    exec (.dispatch F) s = .next (afterDispatch s w a (endResult e a.calls)) := by
  have hd : dispatchFrame F s = (endResult e a.calls, ((s.enterDispatch.setWork w).setApp a).leaveDispatch) := by
    simp only [dispatchFrame, edGate_idle hs.idle, hs.identity, h, State.setApp_app]
  rw [exec_dispatch, hd, deliverResult_leaveDispatch hs.idle]

/-- As `exec_dispatch_of_handle`, for a handler that leaves the state as it found it. -/
theorem exec_dispatch_plain {s : State} {idm : Bytes 8} {F : List Byte} {e : DispatchEnd} (hs : EdReady s idm)
    (h : handleFrame idm F s.enterDispatch = (e, s.enterDispatch)) :
    exec (.dispatch F) s = .next (afterPlain s (endResult e [])) :=
  exec_dispatch_of_handle hs (w := Work.cleared) (a := { s.app with calls := [] }) h

/-- As `exec_dispatch_of_handle`, for a handler that changes nothing but the working registers. -/
theorem exec_dispatch_of_work {s : State} {idm : Bytes 8} {F : List Byte} {e : DispatchEnd} {w : Work}
    (hs : EdReady s idm) (h : handleFrame idm F s.enterDispatch = (e, s.enterDispatch.setWork w)) :
    exec (.dispatch F) s = .next (afterDispatch s w { s.app with calls := [] } (endResult e [])) :=
  exec_dispatch_of_handle hs (w := w) (a := { s.app with calls := [] }) h

theorem exec_dispatch_unconfigured {s : State} (hp : s.ed.phase = .idle) (hi : s.ed.idm = none) (F : List Byte) :
    exec (.dispatch F) s = .next (s.replyEmulator (.err (.unconfigured .edIdentity))) := by
  have hd : dispatchFrame F s = (.err (.unconfigured .edIdentity), s) := by
    simp only [dispatchFrame, edGate_idle hp, hi]
  rw [exec_dispatch, hd, deliverResult_err]

/-! ## The framing checks and the routing (R193, R195, R199) -/

section Framing

variable {idm : Bytes 8} {F : List Byte} {s : State}

theorem identifiedCode_iff {c : Byte} : identifiedCode c = true ↔ c ∈ [0x04, 0x06, 0x08, 0x0C] := by
  simp [identifiedCode, or_assoc]

theorem handleFrame_tooShort (h : F.length < 2) : handleFrame idm F s = (.drop .tooShort, s) := by
  rw [handleFrame, if_pos h]

theorem handleFrame_lengthMismatch (h2 : 2 ≤ F.length) (hl : (byteAt F 0).toNat ≠ F.length) :
    handleFrame idm F s = (.drop .lengthMismatch, s) := by
  rw [handleFrame, if_neg (by omega), if_pos hl]

theorem handleFrame_polling (h2 : 2 ≤ F.length) (hl : (byteAt F 0).toNat = F.length) (hc : byteAt F 1 = 0x00) :
    handleFrame idm F s = (polling s.ed idm F, s) := by
  rw [handleFrame, if_neg (by omega), if_neg (not_not_intro hl), if_pos hc]

theorem handleFrame_unknownCode (h2 : 2 ≤ F.length) (hl : (byteAt F 0).toNat = F.length)
    (hc : byteAt F 1 ∉ [0x00, 0x04, 0x06, 0x08, 0x0C]) : handleFrame idm F s = (.drop .unknownCode, s) := by
  obtain ⟨hPoll, hOther⟩ := not_or.1 (mt List.mem_cons.2 hc)
  rw [handleFrame, if_neg (by omega), if_neg (not_not_intro hl), if_neg hPoll, if_neg (mt identifiedCode_iff.1 hOther)]

/-- A frame with one of the four codes that carry an identifier: its length and its identifier are checked next. -/
theorem handleFrame_identified (h2 : 2 ≤ F.length) (hl : (byteAt F 0).toNat = F.length)
    (hc : byteAt F 1 ∈ [0x04, 0x06, 0x08, 0x0C]) :
    handleFrame idm F s =
      if F.length < 10 then (.drop .tooShort, s)
      else if slice F 2 10 ≠ idm.val then (.drop .idMismatch, s)
      else routeIdentified idm F s := by
  have hPoll : byteAt F 1 ≠ 0x00 := fun h0 => by rw [h0] at hc; simp at hc
  rw [handleFrame, if_neg (by omega), if_neg (not_not_intro hl), if_neg hPoll, if_pos (identifiedCode_iff.2 hc)]

theorem handleFrame_route (h10 : 10 ≤ F.length) (hl : (byteAt F 0).toNat = F.length)
    (hc : byteAt F 1 ∈ [0x04, 0x06, 0x08, 0x0C]) (hi : slice F 2 10 = idm.val) :
    handleFrame idm F s = routeIdentified idm F s := by
  rw [handleFrame_identified (by omega) hl hc, if_neg (by omega), if_neg (not_not_intro hi)]

/-! ## The commands that touch no block (R196 to R198) -/

variable {pmm : Bytes 8} {sys : Bytes 2} {ed : Ed}

theorem polling_tooShort (h : F.length < 6) : polling ed idm F = .drop .tooShort := by
  rw [polling, if_pos h]

theorem polling_scMismatch (h : 6 ≤ F.length) (hs : ed.sys = some sys) (hp : ed.pmm = some pmm)
    (h1 : slice F 2 4 ≠ sys.val) (h2 : slice F 2 4 ≠ [0xFF, 0xFF]) : polling ed idm F = .drop .scMismatch := by
  simp only [polling, if_neg (Nat.not_lt.2 h), hs, hp]
  rw [if_pos ⟨h1, h2⟩]

theorem polling_respond (h : 6 ≤ F.length) (hs : ed.sys = some sys) (hp : ed.pmm = some pmm)
    (hm : slice F 2 4 = sys.val ∨ slice F 2 4 = [0xFF, 0xFF]) :
    polling ed idm F =
      .respond (framed ([0x01] ++ idm.val ++ pmm.val ++ (if byteAt F 4 = 0x01 then sys.val else []))) := by
  simp only [polling, if_neg (Nat.not_lt.2 h), hs, hp]
  rw [if_neg fun hn => hm.elim hn.1 hn.2]

/-- A response is its bytes behind their length (R200). -/
theorem framed_of_length {l : List Byte} {n : Nat} (h : l.length + 1 = n) : framed l = byteOf n :: l := by
  rw [framed, h]

end Framing

/-! ## The emulation host's loop (R203) -/

variable {F G : List Byte} {q : List (Option (List Byte))} {s : State}

/-- One turn of the loop is DISPATCH after wait_command has returned. -/
theorem exec_dispatch_waited (F : List Byte) (s : State) :
    exec (.dispatch F) (s.waited (some F)) = .next (serveFrame F s).2 := rfl

/-- A turn delivers one record, and makes the calls that follow from it. -/
theorem serveFrame_delivers (F : List Byte) (s : State) :
    ∃ r, (serveFrame F s).2.emulator.results = s.emulator.results ++ [r] ∧
      (serveFrame F s).2.transport.log = (s.waited (some F)).transport.log ++ sentAfter r := by
  have h := dispatchFrame_inside F (s.waited (some F))
  have hturn : (serveFrame F s).2 =
      deliverResult (dispatchFrame F (s.waited (some F))).1 (dispatchFrame F (s.waited (some F))).2 := rfl
  refine ⟨(dispatchFrame F (s.waited (some F))).1, ?_, ?_⟩
  · rw [hturn, deliverResult_emulator, h.emulator]; rfl
  · rw [hturn, deliverResult_transport_sentAfter, h.transport]

theorem commandArrives_last (h : s.transport.waitScript = []) : commandArrives F s = (serveFrame F s).2 := by
  rw [commandArrives, h, serveTurns]

theorem commandArrives_none (h : s.transport.waitScript = none :: q) :
    commandArrives F s = commandArrives F ((s.setTransport { s.transport with waitScript := q }).waited none) := by
  rw [commandArrives, h, serveTurns]
  rfl

theorem commandArrives_some (h : s.transport.waitScript = some G :: q) :
    commandArrives F s = commandArrives F (serveFrame G (s.setTransport { s.transport with waitScript := q })).2 := by
  have hq : (serveFrame G (s.setTransport { s.transport with waitScript := q })).2.transport.waitScript = q := by
    rw [(serveFrame_inside G _).transport]
    rfl
  rw [commandArrives, h, serveTurns, commandArrives, hq]

end Sys2Proof.Machine

namespace Sys2Proof.Claims

open Machine

/-- Settles O30, by the checks of `handleFrame` in their order. -/
theorem dispatchDropsMalformedFrames : Obligations.DispatchDropsMalformedFrames := by
  unfold Obligations.DispatchDropsMalformedFrames
  intro F s hPhase
  refine ⟨fun hNone => exec_dispatch_unconfigured hPhase hNone F, fun idm pmm sys hIdm hPmm hSys => ?_⟩
  have hs : EdReady s idm := ⟨hPhase, hIdm⟩
  refine ⟨fun h => exec_dispatch_plain hs (handleFrame_tooShort h),
    fun h2 hl => exec_dispatch_plain hs (handleFrame_lengthMismatch h2 hl), fun h2 hl => ⟨?_, ?_, ?_, ?_, ?_⟩⟩
  · exact fun hc => exec_dispatch_plain hs (handleFrame_unknownCode h2 hl hc)
  · intro hc h10
    exact exec_dispatch_plain hs (by rw [handleFrame_identified h2 hl hc, if_pos h10])
  · intro hc h10 hi
    exact exec_dispatch_plain hs (by rw [handleFrame_identified h2 hl hc, if_neg (by omega), if_pos hi])
  · intro hc h6
    exact exec_dispatch_plain hs (by rw [handleFrame_polling h2 hl hc, polling_tooShort h6])
  · intro hc h6 hm1 hm2
    have hp := polling_scMismatch (idm := idm) (ed := s.enterDispatch.ed) h6 hSys hPmm hm1 hm2
    exact exec_dispatch_plain hs ((handleFrame_polling h2 hl hc).trans (congrArg (·, s.enterDispatch) hp))

/-- Settles O31: the frame passes the checks, and each handler's response is written out. -/
theorem plainCommandsAnswered : Obligations.PlainCommandsAnswered := by
  unfold Obligations.PlainCommandsAnswered
  intro F s idm pmm sys hs hPmm hSys hl
  have hIdm8 := idm.property
  have hPmm8 := pmm.property
  have hSys2 := sys.property
  refine ⟨fun h6 hc hm => ?_, fun h10 hi => ⟨fun hc => ?_, fun hc => ?_⟩⟩
  · have hp := polling_respond (idm := idm) (ed := s.enterDispatch.ed) h6 hSys hPmm hm
    have hh := (handleFrame_polling (by omega) hl hc).trans (congrArg (·, s.enterDispatch) hp)
    refine ⟨fun h1 => ?_, fun h1 => ?_⟩
    · rw [exec_dispatch_plain hs hh, if_pos h1, framed_of_length (n := 20) (by simp [hIdm8, hPmm8, hSys2])]
      rfl
    · rw [exec_dispatch_plain hs hh, if_neg h1, framed_of_length (n := 18) (by simp [hIdm8, hPmm8]), List.append_nil]
      rfl
  · have hh : handleFrame idm F s.enterDispatch = (requestResponse idm, s.enterDispatch) := by
      rw [handleFrame_route h10 hl (by simp [hc]) hi, routeIdentified, if_pos hc]
    rw [exec_dispatch_plain hs hh, requestResponse, framed_of_length (n := 11) (by simp [hIdm8])]
    rfl
  · have hh : handleFrame idm F s.enterDispatch = (requestSystemCode s.ed idm, s.enterDispatch) := by
      rw [handleFrame_route h10 hl (by simp [hc]) hi, routeIdentified, hc]
      rfl
    rw [exec_dispatch_plain hs hh, requestSystemCode, hSys]
    simp only
    rw [framed_of_length (n := 13) (by simp [hIdm8, hSys2])]
    rfl

/-- Settles O44, from what a DISPATCH can change and what the host does with its result. -/
theorem dispatchKeepsRegisters : Obligations.DispatchKeepsRegisters := by
  unfold Obligations.DispatchKeepsRegisters
  intro F s _
  have h := dispatchFrame_inside F s
  refine ⟨_, (dispatchFrame F s).1, exec_dispatch F s, ?_, ?_, ?_, ?_, ?_, ?_, ?_⟩
  · rw [deliverResult_ed]; exact h.ed
  · rw [deliverResult_emulator, h.emulator]
  · rw [deliverResult_transport_sentAfter, h.transport]
  · rw [deliverResult_re]; exact h.re
  · rw [deliverResult_reader]; exact h.reader
  · rw [deliverResult_program]; exact h.program
  · rw [deliverResult_index]; exact h.index

/-- Settles O32: the turns of the loop, one for each answer of wait_command. -/
theorem commandFramesAreDispatched : Obligations.CommandFramesAreDispatched := by
  unfold Obligations.CommandFramesAreDispatched
  intro len rest s code i hi
  have hExec : ∀ u : State, exec i u = .next (commandArrives (len :: code :: rest) u) := by
    intro u
    rcases hi with ⟨rfl, rfl⟩ | ⟨rfl, rfl⟩ | ⟨rfl, rfl⟩ | ⟨rfl, rfl⟩ | ⟨rfl, rfl⟩ <;> rfl
  refine ⟨fun hEmpty => ?_, ?_⟩
  · obtain ⟨r, hResult, hLog⟩ := serveFrame_delivers (len :: code :: rest) s
    exact ⟨_, r, by rw [hExec, commandArrives_last hEmpty], exec_dispatch_waited _ s, hResult, hLog⟩
  · rintro q u rfl
    refine ⟨fun hNone => by rw [hExec, hExec, commandArrives_none hNone], fun F hSome => ?_⟩
    obtain ⟨r, hResult, hLog⟩ := serveFrame_delivers F (s.setTransport { s.transport with waitScript := q })
    exact ⟨_, r, exec_dispatch_waited F _, hResult, hLog, by rw [hExec, hExec, commandArrives_some hSome]⟩

end Sys2Proof.Claims
end

section
/-! PARSE_LISTS over the layout of R85 and R86 (R210 to R216): what it makes of a service list whose first codes are
registered and of a block list whose first entries are sound, and the statuses of O40, O41 and O43. -/

namespace Sys2Proof.Machine

open Claims

/-! ## Bytes at a place of a frame -/

section Bytes

variable {F rest : List Byte} {c : Nat} {b : Byte}

theorem byteAt_of_drop (h : F.drop c = b :: rest) : byteAt F c = b := by
  rw [byteAt, List.getD_eq_getElem?_getD, ← Nat.add_zero c, ← List.getElem?_drop, h]
  rfl

theorem byteAt_succ_of_drop {b' : Byte} (h : F.drop c = b :: b' :: rest) : byteAt F (c + 1) = b' :=
  byteAt_of_drop (rest := rest) (by rw [← List.drop_drop, h]; rfl)

theorem drop_add_of_drop {l : List Byte} (h : F.drop c = l ++ rest) : F.drop (c + l.length) = rest := by
  rw [← List.drop_drop, h, List.drop_left]

/-- `need(k)` holds when at least `k` bytes follow CUR (R211). -/
theorem not_missing_of_drop {w : Work} {k : Nat} {l : List Byte} (h : F.drop w.cur = l ++ rest) (hk : 0 < k)
    (hl : k ≤ l.length) : ¬ missing F w k = true := by
  have hlen := congrArg List.length h
  simp only [List.length_drop, List.length_append] at hlen
  simp only [missing, decide_eq_true_eq]
  omega

end Bytes

theorem toNat_byte {n : Nat} (h : n ≤ 255) : (byte n).toNat = n := by
  rw [byte, BitVec.toNat_ofNat, Nat.mod_eq_of_lt (by omega)]

/-- `le16` read back (R92). -/
theorem pair16_lowHigh (v : BitVec 16) : pair16 (byte (v.toNat / 256)) (byte v.toNat) = v := by
  apply BitVec.eq_of_toNat_eq
  have hv := v.isLt
  simp only [pair16_toNat, byte, BitVec.toNat_ofNat]
  omega

theorem le16At_of_drop {F rest : List Byte} {c : Nat} {v : BitVec 16} (h : F.drop c = lowHigh v ++ rest) :
    le16At F c = v := by
  rw [le16At, byteAt_succ_of_drop h, byteAt_of_drop h, pair16_lowHigh]

@[simp] theorem length_lowHigh (v : BitVec 16) : (lowHigh v).length = 2 := rfl

/-- A block number of the short form (R86). -/
theorem setWidth_byte {v : BitVec 16} (h : v.toNat < 256) : (byte v.toNat).setWidth 16 = v := by
  apply BitVec.eq_of_toNat_eq
  simp only [byte, BitVec.toNat_setWidth, BitVec.toNat_ofNat]
  omega

theorem entryIndex_eq (h : Byte) : entryIndex h = h.toNat % 16 := by
  rw [entryIndex, BitVec.toNat_and]
  exact Nat.and_two_pow_sub_one_eq_mod h.toNat 4

theorem entryShort_iff (h : Byte) : entryShort h = true ↔ h.toNat / 128 = 1 := by
  have hlt := h.isLt
  rw [entryShort, BitVec.getLsbD, Nat.testBit_eq_decide_div_mod_eq, decide_eq_true_eq]
  omega

/-! ## The service list (R212) -/

section Services

variable {table : SvcTable} {F : List Byte}

theorem parseServices_known {k : Nat} {svcs : List Svc} {w : Work} {rest : List Byte}
    (hk : ∀ c ∈ svcs, (lookupService table c).isSome) (hd : F.drop w.cur = svcs.flatMap lowHigh ++ rest) :
    parseServices table F (svcs.length + k) w =
      parseServices table F k
        { w with cur := w.cur + (svcs.flatMap lowHigh).length, sl := w.sl ++ svcs } := by
  induction svcs generalizing w with
  | nil => simp
  | cons v svcs ih =>
    rw [List.flatMap_cons, List.append_assoc] at hd
    have hv : ¬ (lookupService table v).isNone = true := by
      simp [Option.isNone_iff_eq_none, Option.ne_none_iff_isSome.2 (hk v (by simp))]
    rw [List.length_cons, Nat.add_right_comm, parseServices, if_neg (not_missing_of_drop hd (by omega) (by simp)),
      le16At_of_drop hd, if_neg hv, ih (fun c hc => hk c (by simp [hc])) (drop_add_of_drop hd)]
    simp [Nat.add_assoc]

theorem parseServices_unknown {k : Nat} {w : Work} {bad : Svc} {rest : List Byte}
    (hb : lookupService table bad = none) (hd : F.drop w.cur = lowHigh bad ++ rest) :
    parseServices table F (k + 1) w = ({ w with cur := w.cur + 2 }, some (.status [0xFF, 0xA1])) := by
  rw [parseServices, if_neg (not_missing_of_drop hd (by omega) (by simp)), le16At_of_drop hd, if_pos (by simp [hb])]

/-- The count byte NS, and the codes before anything else is looked at. -/
theorem parseServiceList_known {ns : Nat} {svcs : List Svc} {w : Work} {rest : List Byte} (hns : ns ≤ 255)
    (hlen : svcs.length ≤ ns) (hk : ∀ c ∈ svcs, (lookupService table c).isSome)
    (hd : F.drop w.cur = byte ns :: (svcs.flatMap lowHigh ++ rest)) :
    ∃ cur, parseServiceList table F w =
        parseServices table F (ns - svcs.length) { w with ns := byte ns, cur := cur, sl := w.sl ++ svcs } ∧
      F.drop cur = rest := by
  have hd1 : F.drop (w.cur + 1) = svcs.flatMap lowHigh ++ rest := drop_add_of_drop (l := [byte ns]) hd
  refine ⟨w.cur + 1 + (svcs.flatMap lowHigh).length, ?_, drop_add_of_drop hd1⟩
  rw [parseServiceList, if_neg (not_missing_of_drop (l := [byte ns]) hd (by omega) (by simp)), byteAt_of_drop hd,
    toNat_byte hns, ← Nat.add_sub_of_le hlen, parseServices_known hk hd1, Nat.add_sub_cancel_left]

end Services

/-! ## The block list (R213) -/

section Entries

variable {F : List Byte}

/-- One sound entry, in either form and with any access mode bits. -/
theorem parseEntries_cons {k i : Nat} {w : Work} {e : Byte × BitVec 16} {rest : List Byte}
    (he : EntryOk w.ns.toNat e) (hd : F.drop w.cur = entryWire e ++ rest) :
    parseEntries F (k + 1) i w = parseEntries F k (i + 1)
      { w with i := i, cur := w.cur + (entryWire e).length, bl := w.bl ++ [(w.sl.getD (e.1.toNat % 16) 0, e.2)] } := by
  obtain ⟨h, v⟩ := e
  obtain ⟨hIndex, hNumber⟩ := he
  dsimp only at hIndex hNumber
  unfold entryWire at hd ⊢
  by_cases hShort : h.toNat / 128 = 1
  · simp only [if_pos hShort] at hd ⊢
    rw [parseEntries, if_neg (not_missing_of_drop hd (by omega) (by simp)), byteAt_of_drop hd, entryIndex_eq,
      if_neg (by omega), if_pos ((entryShort_iff h).2 hShort), if_neg (not_missing_of_drop hd (by omega) (by simp)),
      byteAt_succ_of_drop hd, setWidth_byte (hNumber hShort)]
    rfl
  · simp only [if_neg hShort] at hd ⊢
    have hd1 : F.drop (w.cur + 1) = lowHigh v ++ rest := drop_add_of_drop (l := [h]) hd
    rw [parseEntries, if_neg (not_missing_of_drop hd (by omega) (by simp)), byteAt_of_drop hd, entryIndex_eq,
      if_neg (by omega), if_neg (mt (entryShort_iff h).1 hShort), if_neg (not_missing_of_drop hd (by omega) (by simp)),
      le16At_of_drop hd1]
    rfl

/-- The sound entries at the front of a block list. -/
theorem parseEntries_sound {k i : Nat} {entries : List (Byte × BitVec 16)} {w : Work} {rest : List Byte}
    (he : ∀ e ∈ entries, EntryOk w.ns.toNat e) (hd : F.drop w.cur = entries.flatMap entryWire ++ rest) :
    ∃ j, parseEntries F (entries.length + k) i w = parseEntries F k (i + entries.length)
      { w with i := j, cur := w.cur + (entries.flatMap entryWire).length, bl := w.bl ++ resolved w.sl entries } := by
  induction entries generalizing i w with
  | nil => exact ⟨w.i, by simp [resolved]⟩
  | cons e entries ih =>
    rw [List.flatMap_cons, List.append_assoc] at hd
    obtain ⟨j, hj⟩ := ih (i := i + 1)
      (w := { w with i := i, cur := w.cur + (entryWire e).length, bl := w.bl ++ [(w.sl.getD (e.1.toNat % 16) 0, e.2)] })
      (fun e' h' => he e' (by simp [h'])) (drop_add_of_drop hd)
    refine ⟨j, ?_⟩
    rw [List.length_cons, Nat.add_right_comm, parseEntries_cons (he e (by simp)) hd, hj]
    simp [resolved, Nat.add_assoc, Nat.add_comm 1]

/-- An entry whose service index lies outside the service list (R213, R216). -/
theorem parseEntries_outside {k i : Nat} {w : Work} {h : Byte} {rest : List Byte} (hi : w.ns.toNat ≤ h.toNat % 16)
    (hd : F.drop w.cur = h :: rest) :
    parseEntries F (k + 1) i w = ({ w with i := i }, some (.status [positionBit i, 0xA3])) := by
  rw [parseEntries, if_neg (not_missing_of_drop (l := [h]) hd (by omega) (by simp)), byteAt_of_drop hd, entryIndex_eq,
    if_pos hi]

/-- The count byte NB, and the entries before anything else is looked at. -/
theorem parseBlockList_sound {nb : Nat} {entries : List (Byte × BitVec 16)} {w : Work} {rest : List Byte}
    (hnb : nb ≤ 255) (hlen : entries.length ≤ nb) (he : ∀ e ∈ entries, EntryOk w.ns.toNat e)
    (hd : F.drop w.cur = byte nb :: (entries.flatMap entryWire ++ rest)) :
    ∃ cur j, parseBlockList F w = parseEntries F (nb - entries.length) entries.length
        { w with nb := byte nb, cur := cur, i := j, bl := w.bl ++ resolved w.sl entries } ∧
      F.drop cur = rest := by
  have hd1 : F.drop (w.cur + 1) = entries.flatMap entryWire ++ rest := drop_add_of_drop (l := [byte nb]) hd
  obtain ⟨j, hj⟩ := parseEntries_sound (k := nb - entries.length) (i := 0)
    (w := { w with nb := byte nb, cur := w.cur + 1 }) he hd1
  refine ⟨w.cur + 1 + (entries.flatMap entryWire).length, j, ?_, drop_add_of_drop hd1⟩
  rw [parseBlockList, if_neg (not_missing_of_drop (l := [byte nb]) hd (by omega) (by simp)), byteAt_of_drop hd,
    toNat_byte hnb]
  rw [Nat.add_sub_of_le hlen, Nat.zero_add] at hj
  exact hj

end Entries

/-! ## PARSE_LISTS (R210) -/

section Lists

variable {table : SvcTable} {F : List Byte} {svcs : List Svc}

/-- A registered service list: the block list is parsed next. -/
theorem parseLists_services {rest : List Byte} (hlen : svcs.length ≤ 255)
    (hk : ∀ c ∈ svcs, (lookupService table c).isSome)
    (hd : F.drop 10 = byte svcs.length :: (svcs.flatMap lowHigh ++ rest)) :
    ∃ cur, parseLists table F Work.cleared =
        Parse.next (parseBlockList F { Work.cleared with ns := byte svcs.length, cur := cur, sl := svcs })
          (fun w => (countEntries w, none)) ∧
      F.drop cur = rest := by
  obtain ⟨cur, hParse, hRest⟩ :=
    parseServiceList_known (w := { Work.cleared with cur := 10 }) hlen (Nat.le_refl _) hk hd
  refine ⟨cur, ?_, hRest⟩
  rw [parseLists, hParse, Nat.sub_self]
  rfl

/-- The first code that is not registered (R212). -/
theorem parseLists_unknown {ns : Nat} {bad : Svc} {rest : List Byte} (hns : ns ≤ 255) (hlen : svcs.length < ns)
    (hk : ∀ c ∈ svcs, (lookupService table c).isSome) (hb : lookupService table bad = none)
    (hd : F.drop 10 = byte ns :: (svcs.flatMap lowHigh ++ (lowHigh bad ++ rest))) :
    ∃ w, parseLists table F Work.cleared = (w, some (.status [0xFF, 0xA1])) := by
  obtain ⟨cur, hParse, hRest⟩ :=
    parseServiceList_known (w := { Work.cleared with cur := 10 }) hns (Nat.le_of_lt hlen) hk hd
  obtain ⟨k, hsucc⟩ := Nat.exists_eq_succ_of_ne_zero (Nat.sub_ne_zero_of_lt hlen)
  rw [parseLists, hParse, hsucc, parseServices_unknown hb hRest]
  exact ⟨_, rfl⟩

/-- The first entry whose service index lies outside the service list (R213, R216). -/
theorem parseLists_outside {nb : Nat} {entries : List (Byte × BitVec 16)} {h : Byte} {rest : List Byte}
    (hlen : svcs.length ≤ 255) (hnb : nb ≤ 255) (hpre : entries.length < nb) (hok : ListsOk table svcs entries)
    (hi : svcs.length ≤ h.toNat % 16)
    (hd : F.drop 10 =
      byte svcs.length :: (svcs.flatMap lowHigh ++ byte nb :: (entries.flatMap entryWire ++ h :: rest))) :
    ∃ w, parseLists table F Work.cleared = (w, some (.status [positionBit entries.length, 0xA3])) := by
  obtain ⟨cur, hParse, hRest⟩ := parseLists_services hlen hok.services hd
  obtain ⟨cur', j, hBlocks, hRest'⟩ :=
    parseBlockList_sound (w := { Work.cleared with ns := byte svcs.length, cur := cur, sl := svcs }) hnb
      (Nat.le_of_lt hpre) (by rw [toNat_byte hlen]; exact hok.entries) hRest
  obtain ⟨k, hsucc⟩ := Nat.exists_eq_succ_of_ne_zero (Nat.sub_ne_zero_of_lt hpre)
  rw [hParse, hBlocks, hsucc, parseEntries_outside (by simpa only [toNat_byte hlen] using hi) hRest']
  exact ⟨_, rfl⟩

/-- Sound lists are parsed to their end, and nothing behind them is read. -/
theorem parseLists_sound {entries : List (Byte × BitVec 16)} {tail : List Byte} (hlen : svcs.length ≤ 255)
    (hnb : entries.length ≤ 255) (hok : ListsOk table svcs entries) (hd : F.drop 10 = listsWire svcs entries ++ tail) :
    ∃ w, parseLists table F Work.cleared = (w, none) ∧ w.ns = byte svcs.length ∧ w.sl = svcs ∧
      w.nb = byte entries.length ∧ w.bl = resolved svcs entries ∧ F.drop w.cur = tail := by
  have hd' : F.drop 10 =
      byte svcs.length :: (svcs.flatMap lowHigh ++ byte entries.length :: (entries.flatMap entryWire ++ tail)) := by
    rw [hd, listsWire]
    simp
  obtain ⟨cur, hParse, hRest⟩ := parseLists_services hlen hok.services hd'
  obtain ⟨cur', j, hBlocks, hRest'⟩ :=
    parseBlockList_sound (w := { Work.cleared with ns := byte svcs.length, cur := cur, sl := svcs }) hnb
      (Nat.le_refl _) (by rw [toNat_byte hlen]; exact hok.entries) hRest
  rw [hParse, hBlocks, Nat.sub_self]
  exact ⟨_, rfl, rfl, rfl, rfl, rfl, hRest'⟩

end Lists

/-! ## A command frame that carries an identifier (R81) -/

section Command

variable {code : Byte} {idm : Bytes 8} {body : List Byte} {s : State}

theorem length_commandFrame (code : Byte) (idm : Bytes 8) (body : List Byte) :
    (commandFrame code idm body).length = 10 + body.length := by
  simp only [commandFrame, withLength, List.length_cons, List.length_append, idm.property]
  omega

theorem drop_commandFrame (code : Byte) (idm : Bytes 8) (body : List Byte) :
    (commandFrame code idm body).drop 10 = body := by
  have h : (commandFrame code idm body).drop 2 = idm.val ++ body := rfl
  have h8 : (idm.val ++ body).drop 8 = body := List.drop_left' idm.property
  rw [← h, List.drop_drop] at h8
  exact h8

theorem slice_commandFrame (code : Byte) (idm : Bytes 8) (body : List Byte) :
    slice (commandFrame code idm body) 2 10 = idm.val := by
  have h : (commandFrame code idm body).drop 2 = idm.val ++ body := rfl
  rw [slice, h]
  exact List.take_left' idm.property

/-- A command frame that fits its length byte and carries ED.IDM gets to its handler. -/
theorem handleFrame_commandFrame (hc : code ∈ [0x04, 0x06, 0x08, 0x0C])
    (hl : (commandFrame code idm body).length ≤ 255) :
    handleFrame idm (commandFrame code idm body) s = routeIdentified idm (commandFrame code idm body) s := by
  have hlen := length_commandFrame code idm body
  have hnum : (byteAt (commandFrame code idm body) 0).toNat = (commandFrame code idm body).length := by
    rw [← toNat_byte hl]
    rfl
  exact handleFrame_route (by omega) hnum hc (slice_commandFrame code idm body)

theorem handleFrame_read (hl : (commandFrame 0x06 idm body).length ≤ 255) :
    handleFrame idm (commandFrame 0x06 idm body) s = readWoEnc idm (commandFrame 0x06 idm body) s :=
  handleFrame_commandFrame (by simp) hl

theorem handleFrame_write (hl : (commandFrame 0x08 idm body).length ≤ 255) :
    handleFrame idm (commandFrame 0x08 idm body) s = writeWoEnc idm (commandFrame 0x08 idm body) s :=
  handleFrame_commandFrame (by simp) hl

/-- An error response of the model is the one of the statements (R87, R89, R210). -/
theorem errorResponse_eq (idm : Bytes 8) (rc : Byte) (st : List Byte) :
    errorResponse idm rc st = statusResponse idm rc st := by
  rw [errorResponse, framed_of_length (n := 10 + st.length)]
  · rfl
  · simp only [List.length_cons, List.length_append, idm.property]
    omega

theorem positionBit_eq (i : Nat) : positionBit i = positionByte i := by
  rw [positionBit, positionByte, Nat.one_shiftLeft]
  rfl

/-- A parse that stops with a status ends a 0x06 or 0x08 command with that status, and no callback is called. -/
theorem exec_dispatch_stopped {w : Work} {st : List Byte} (hs : EdReady s idm) (hc : code = 0x06 ∨ code = 0x08)
    (hl : (commandFrame code idm body).length ≤ 255)
    (hp : parseLists s.ed.svc (commandFrame code idm body) Work.cleared = (w, some (.status st))) :
    exec (.dispatch (commandFrame code idm body)) s =
      .next (afterDispatch s w { s.app with calls := [] } (.respond (statusResponse idm (code + 1) st) [])) := by
  have hh : handleFrame idm (commandFrame code idm body) s.enterDispatch =
      (.respond (statusResponse idm (code + 1) st), s.enterDispatch.setWork w) := by
    rcases hc with rfl | rfl
    · simp only [handleFrame_read hl, readWoEnc, State.enterDispatch_ed, hp, stopEnd, errorResponse_eq]
      rfl
    · simp only [handleFrame_write hl, writeWoEnc, State.enterDispatch_ed, hp, stopEnd, errorResponse_eq]
      rfl
  exact exec_dispatch_of_work hs hh

end Command

end Sys2Proof.Machine

namespace Sys2Proof.Claims

open Machine

/-- Settles O40: the parse stops at the code, whatever follows it. -/
theorem unknownServiceStatus : Obligations.UnknownServiceStatus := by
  unfold Obligations.UnknownServiceStatus
  intro s idm code ns pre bad rest hs hc hpre hns hl hKnown hBad
  obtain ⟨w, hw⟩ := parseLists_unknown
    (F := commandFrame code idm ([byte ns] ++ pre.flatMap lowHigh ++ lowHigh bad ++ rest)) (rest := rest)
    hns hpre hKnown hBad (by rw [drop_commandFrame]; simp)
  exact ⟨w, exec_dispatch_stopped hs hc hl hw⟩

/-- Settles O41: the parse stops at the header, whatever follows it. -/
theorem serviceIndexStatus : Obligations.ServiceIndexStatus := by
  unfold Obligations.ServiceIndexStatus
  intro s idm code svcs nb pre h rest hs hc hpre hnb hl hOk hIndex
  have hlen : svcs.length ≤ 255 := by have := Nat.mod_lt h.toNat (show 16 > 0 by decide); omega
  obtain ⟨w, hw⟩ := parseLists_outside (F := commandFrame code idm ([byte svcs.length] ++ svcs.flatMap lowHigh ++
    [byte nb] ++ pre.flatMap entryWire ++ [h] ++ rest)) (rest := rest) hlen hnb hpre hOk hIndex
    (by rw [drop_commandFrame]; simp)
  rw [positionBit_eq] at hw
  exact ⟨w, exec_dispatch_stopped hs hc hl hw⟩

end Sys2Proof.Claims
end

section
/-! Read and Write Without Encryption over sound lists (R214 to R222): the callbacks as a run of the application, and
what DISPATCH answers for the callbacks that read and write the store or whose answers are draws: O43 and O35 to O39. -/

namespace Sys2Proof.Machine

open Claims

/-! ## Sound lists in a frame -/

theorem length_le_flatMap {α : Type} (f : α → List Byte) (l : List α) (h : ∀ a ∈ l, 1 ≤ (f a).length) :
    l.length ≤ (l.flatMap f).length := by
  induction l with
  | nil => simp
  | cons a l ih =>
    have ha := h a (by simp)
    have hl := ih fun b hb => h b (by simp [hb])
    simp only [List.flatMap_cons, List.length_append, List.length_cons]
    omega

theorem length_entryWire_pos (e : Byte × BitVec 16) : 1 ≤ (entryWire e).length := by
  unfold entryWire
  split <;> simp

/-- Lists that stand in a frame have no more entries than a count byte can say. -/
theorem lists_length_le {code : Byte} {idm : Bytes 8} {svcs : List Svc} {entries : List (Byte × BitVec 16)}
    {tail : List Byte} (hl : (commandFrame code idm (listsWire svcs entries ++ tail)).length ≤ 255) :
    svcs.length ≤ 255 ∧ entries.length ≤ 255 := by
  have hs := length_le_flatMap lowHigh svcs fun c _ => by simp
  have he := length_le_flatMap entryWire entries fun e _ => length_entryWire_pos e
  simp only [length_commandFrame, listsWire, List.length_append] at hl
  omega

/-- What ED has in its working registers when it has parsed sound lists. -/
structure ListsParsed (table : SvcTable) (F : List Byte) (svcs : List Svc) (entries : List (Byte × BitVec 16))
    (tail : List Byte) (w : Work) : Prop where
  parse : parseLists table F Work.cleared = (w, none)
  count : w.nb = byte entries.length
  bound : entries.length ≤ 255
  list : w.bl = resolved svcs entries
  rest : F.drop w.cur = tail
  empty : w.data = []
  counts : CountsAt w [] (resolved svcs entries)

theorem listsParsed_of_sound {table : SvcTable} {code : Byte} {idm : Bytes 8} {svcs : List Svc}
    {entries : List (Byte × BitVec 16)} {tail : List Byte}
    (hl : (commandFrame code idm (listsWire svcs entries ++ tail)).length ≤ 255) (hok : ListsOk table svcs entries) :
    ∃ w, ListsParsed table (commandFrame code idm (listsWire svcs entries ++ tail)) svcs entries tail w := by
  obtain ⟨hsvcs, hentries⟩ := lists_length_le hl
  obtain ⟨w, hParse, -, -, hCount, hList, hRest⟩ :=
    parseLists_sound hsvcs hentries hok (drop_commandFrame code idm (listsWire svcs entries ++ tail))
  have h10 := length_commandFrame code idm (listsWire svcs entries ++ tail)
  obtain ⟨-, hEmpty, hCounts, -⟩ := entries_of_parse (by omega) hl hParse
  exact ⟨w, hParse, hCount, hentries, hList, hRest, hEmpty, hList ▸ hCounts⟩

/-! ## The markers of the statements (R215) -/

/-- A block-list entry with its markers. -/
abbrev Mark := Svc × BitVec 16 × Bool × Bool

/-- The entry that is marked. -/
def markEntry (m : Mark) : Svc × BitVec 16 := (m.1, m.2.1)

theorem marksFrom_eq (done rest : List (Svc × BitVec 16)) :
    marksFrom done rest = (rest.zipIdx done.length).map fun x =>
      (x.1.1, x.1.2, !((done ++ rest).take x.2).any (fun f => f.1 == x.1.1),
        !((done ++ rest).drop (x.2 + 1)).any (fun f => f.1 == x.1.1)) := by
  induction rest generalizing done with
  | nil => rfl
  | cons e rest ih =>
    have htake : (done ++ e :: rest).take done.length = done := List.take_left
    have hdrop : (done ++ e :: rest).drop (done.length + 1) = rest := by
      rw [← List.drop_drop, List.drop_left]
      rfl
    rw [marksFrom, ih, List.zipIdx_cons, List.map_cons, htake, hdrop]
    simp

/-- The markers that ED computes one by one are those of R215 over the whole list. -/
theorem marksFrom_nil (bl : List (Svc × BitVec 16)) : marksFrom [] bl = marked bl := marksFrom_eq [] bl

theorem map_markEntry_marked (bl : List (Svc × BitVec 16)) : (marked bl).map markEntry = bl := by
  have h : ∀ done rest : List (Svc × BitVec 16), (marksFrom done rest).map markEntry = rest := by
    intro done rest
    induction rest generalizing done with
    | nil => rfl
    | cons e rest ih => rw [marksFrom, List.map_cons, ih]; rfl
  rw [← marksFrom_nil]
  exact h [] bl

theorem length_marked (bl : List (Svc × BitVec 16)) : (marked bl).length = bl.length := by
  rw [← marksFrom_nil, length_marksFrom]

/-- What holds of every entry holds of every marked entry. -/
theorem forall_marked {P : Svc × BitVec 16 → Prop} {bl : List (Svc × BitVec 16)} (h : ∀ e ∈ bl, P e) :
    ∀ m ∈ marked bl, P (markEntry m) := fun m hm =>
  h _ (by rw [← map_markEntry_marked bl]; exact List.mem_map_of_mem hm)

/-- The marked list around one entry. -/
theorem marked_split {bl pre post : List (Svc × BitVec 16)} {bad : Svc × BitVec 16} (h : bl = pre ++ bad :: post) :
    ∃ ms m rest, marked bl = ms ++ m :: rest ∧ ms.map markEntry = pre ∧ markEntry m = bad ∧ ms.length = pre.length ∧
      (marked bl).take (pre.length + 1) = ms ++ [m] := by
  have hmap := map_markEntry_marked bl
  rw [h] at hmap
  obtain ⟨ms, mrest, hsplit, hpre, hrest⟩ := List.map_eq_append_iff.1 hmap
  obtain ⟨m, rest, rfl, hm, -⟩ := List.map_eq_cons_iff.1 hrest
  have hlen : ms.length = pre.length := by rw [← hpre, List.length_map]
  rw [← h] at hsplit
  refine ⟨ms, m, rest, hsplit, hpre, hm, hlen, ?_⟩
  rw [hsplit, ← hlen, List.take_length_add_append]
  rfl

/-! ## Read callbacks that answer, in a row -/

/-- The read callbacks of `ms` all give data, `D` together, and take the application from the first state to the
second. -/
inductive ReadsAnswer (t : SvcTable) : List Mark → App → List Byte → App → Prop
  | nil (a : App) : ReadsAnswer t [] a [] a
  | cons {m : Mark} {ms : List Mark} {a b c : App} {d : Block} {D : List Byte} :
    appRead t m a = (some d, b) → ReadsAnswer t ms b D c → ReadsAnswer t (m :: ms) a (d.val ++ D) c

section Reads

variable {t : SvcTable} {m : Mark} {ms : List Mark} {a b c : App} {D : List Byte} {i : Nat}

theorem ReadsAnswer.readRun_append (h : ReadsAnswer t ms a D b) (rest : List Mark) (i : Nat) :
    readRun t (ms ++ rest) i a = ((readRun t rest (i + ms.length) b).1, D ++ (readRun t rest (i + ms.length) b).2.1,
      (readRun t rest (i + ms.length) b).2.2) := by
  induction h generalizing i with
  | nil a => rfl
  | cons hm _ ih =>
    rw [List.cons_append, readRun, hm]
    simp only [ih, List.length_cons, List.append_assoc, Nat.add_assoc, Nat.add_comm 1]

/-- All callbacks answer. -/
theorem ReadsAnswer.readRun_eq (h : ReadsAnswer t ms a D b) (i : Nat) : readRun t ms i a = (none, D, b) := by
  have := h.readRun_append [] i
  simpa [readRun] using this

/-- The first callback that gives no data ends the run (R222). -/
theorem ReadsAnswer.readRun_fails (h : ReadsAnswer t ms a D b) (hm : appRead t m b = (none, c)) (rest : List Mark)
    (i : Nat) : readRun t (ms ++ m :: rest) i a = (some (i + ms.length), D, c) := by
  rw [h.readRun_append, readRun, hm]
  simp

theorem length_readRun_of_none (h : readRun t ms i a = (none, D, b)) : D.length = 16 * ms.length := by
  induction ms generalizing i a D with
  | nil => cases h; rfl
  | cons m ms ih =>
    rw [readRun] at h
    split at h
    · cases h
    · rename_i d a1 _
      obtain ⟨hpos, hD, hb⟩ := by simpa only [Prod.mk.injEq] using h
      have := ih (i := i + 1) (a := a1) (Prod.ext hpos (Prod.ext rfl hb))
      rw [← hD, List.length_append, this, d.property, List.length_cons]
      omega

end Reads

/-! ## Write callbacks that succeed, in a row -/

/-- The write callbacks of `ms` all succeed with the successive blocks of `data`, from position `i` on, and take the
application from the first state to the second. -/
inductive WritesSucceed (t : SvcTable) (data : List Byte) : Nat → List Mark → App → App → Prop
  | nil (i : Nat) (a : App) : WritesSucceed t data i [] a a
  | cons {i : Nat} {m : Mark} {ms : List Mark} {a b c : App} :
    appWrite t m (blockSlice data i) a = (true, b) → WritesSucceed t data (i + 1) ms b c →
    WritesSucceed t data i (m :: ms) a c

section Writes

variable {t : SvcTable} {data : List Byte} {m : Mark} {ms : List Mark} {a b c : App} {i : Nat}

theorem WritesSucceed.writeRun_append (h : WritesSucceed t data i ms a b) (rest : List Mark) :
    writeRun t data (ms ++ rest) i a = writeRun t data rest (i + ms.length) b := by
  induction h with
  | nil i a => rfl
  | cons hm _ ih =>
    rw [List.cons_append, writeRun, hm]
    simp only [ih, List.length_cons, Nat.add_assoc, Nat.add_comm 1]

theorem WritesSucceed.writeRun_eq (h : WritesSucceed t data i ms a b) : writeRun t data ms i a = (none, b) := by
  have := h.writeRun_append []
  simpa [writeRun] using this

/-- The first callback that fails ends the run (R222). -/
theorem WritesSucceed.writeRun_fails (h : WritesSucceed t data i ms a b)
    (hm : appWrite t m (blockSlice data (i + ms.length)) b = (false, c)) (rest : List Mark) :
    writeRun t data (ms ++ m :: rest) i a = (some (i + ms.length), c) := by
  rw [h.writeRun_append, writeRun, hm]

end Writes

/-! ## READ_WO_ENC and WRITE_WO_ENC with sound lists (R217 to R220) -/

/-- The response of a read: its data, or the status of the position that failed. -/
def readAnswer (idm : Bytes 8) (n : Nat) (failed : Option Nat) (D : List Byte) : List Byte :=
  match failed with
  | none => readResponse idm n D
  | some i => statusResponse idm 0x07 [positionByte i, 0xA2, 0x00]

/-- The response of a write, as `readAnswer`. -/
def writeAnswer (idm : Bytes 8) (failed : Option Nat) : List Byte :=
  match failed with
  | none => writeResponse idm
  | some i => statusResponse idm 0x09 [positionByte i, 0xA2, 0x00]

section Serve

variable {s : State} {idm : Bytes 8} {svcs : List Svc} {entries : List (Byte × BitVec 16)} {tail F : List Byte}
  {w : Work} {failed : Option Nat} {D : List Byte} {a : App}

@[simp] theorem State.setWork_setWork (s : State) (w v : Work) : (s.setWork w).setWork v = s.setWork v := rfl

theorem framed_readResponse {n : Nat} (h : D.length = 16 * n) :
    framed ([0x07] ++ idm.val ++ [0x00, 0x00, byte n] ++ D) = readResponse idm n D := by
  rw [framed_of_length (n := 13 + 16 * n)]
  · rfl
  · simp only [List.length_append, List.length_cons, List.length_nil, idm.property, h]
    omega

theorem framed_writeResponse : framed ([0x09] ++ idm.val ++ [0x00, 0x00]) = writeResponse idm := by
  rw [framed_of_length (n := 12) (by simp [idm.property])]
  rfl

/-- A read of more blocks than a response can hold (R218). -/
theorem readWoEnc_tooMany (h : ListsParsed s.ed.svc F svcs entries tail w) (hw : s.ed.work = Work.cleared)
    (hn : 16 ≤ entries.length) :
    readWoEnc idm F s = (.respond (statusResponse idm 0x07 [0xFF, 0xA2]), s.setWork w) := by
  simp only [readWoEnc, hw, h.parse, h.count, toNat_byte h.bound, Config.maxFrame_eq]
  rw [if_pos (by omega), errorResponse_eq]

/-- A read of 15 blocks or fewer is what its callbacks answer. -/
theorem readWoEnc_serve (h : ListsParsed s.ed.svc F svcs entries tail w) (hp : s.ed.phase = .busy)
    (hw : s.ed.work = Work.cleared) (hn : entries.length ≤ 15)
    (hr : readRun s.ed.svc (marked (resolved svcs entries)) 0 s.app = (failed, D, a)) :
    ∃ v, readWoEnc idm F s = (.respond (readAnswer idm entries.length failed D), (s.setWork v).setApp a) := by
  obtain ⟨v, hRun, hData, hTaken⟩ := readEntries_eq (i := 0) (s := s.setWork w) hp h.counts
  rw [State.setWork_ed, State.setWork_app, marksFrom_nil, hr] at hRun hData
  rw [State.setWork_setWork] at hRun
  simp only [h.empty, List.nil_append] at hData
  refine ⟨v, ?_⟩
  simp only [readWoEnc, hw, h.parse, h.list, hRun, h.count, toNat_byte h.bound, Config.maxFrame_eq]
  rw [if_neg (by omega)]
  cases failed with
  | some i => simp only [Option.map_some, errorResponse_eq, positionStatus, positionBit_eq, readAnswer]
  | none =>
    have hlen := length_readRun_of_none hr
    rw [length_marked, resolved, List.length_map] at hlen
    simp only [Option.map_none, State.setApp_ed, State.setWork_ed, hData, framed_readResponse hlen, readAnswer]

/-- Write data of another length than 16 bytes per entry (R220). -/
theorem writeWoEnc_dataLength (h : ListsParsed s.ed.svc F svcs entries tail w) (hw : s.ed.work = Work.cleared)
    (hn : tail.length ≠ 16 * entries.length) :
    writeWoEnc idm F s = (.respond (statusResponse idm 0x09 [0xFF, 0xA2]), s.setWork w) := by
  simp only [writeWoEnc, hw, h.parse, h.count, h.rest, toNat_byte h.bound]
  rw [if_pos (Or.inr hn), errorResponse_eq]

/-- A write of 16 bytes per entry is what its callbacks answer. -/
theorem writeWoEnc_serve (h : ListsParsed s.ed.svc F svcs entries tail w) (hp : s.ed.phase = .busy)
    (hw : s.ed.work = Work.cleared) (hn : tail.length = 16 * entries.length)
    (hr : writeRun s.ed.svc tail (marked (resolved svcs entries)) 0 s.app = (failed, a)) :
    ∃ v, writeWoEnc idm F s = (.respond (writeAnswer idm failed), (s.setWork v).setApp a) := by
  obtain ⟨v, hRun, -, -⟩ := writeEntries_eq (data := tail) (i := 0) (s := s.setWork w) hp h.counts
  rw [State.setWork_ed, State.setWork_app, marksFrom_nil, hr, State.setWork_setWork] at hRun
  refine ⟨v, ?_⟩
  simp only [writeWoEnc, hw, h.parse, h.list, h.rest, hRun, h.count, toNat_byte h.bound]
  rw [if_neg (by omega)]
  cases failed with
  | some i => simp only [Option.map_some, errorResponse_eq, positionStatus, positionBit_eq, writeAnswer]
  | none => simp only [Option.map_none, framed_writeResponse, writeAnswer]

/-- DISPATCH of a read with sound lists, in terms of the run of its callbacks. -/
theorem exec_dispatch_read (hs : EdReady s idm)
    (hl : (commandFrame 0x06 idm (listsWire svcs entries ++ tail)).length ≤ 255) (hok : ListsOk s.ed.svc svcs entries)
    (hn : entries.length ≤ 15)
    (hr : readRun s.ed.svc (marked (resolved svcs entries)) 0 { s.app with calls := [] } = (failed, D, a)) :
    ∃ v, exec (.dispatch (commandFrame 0x06 idm (listsWire svcs entries ++ tail))) s =
      .next (afterDispatch s v a (.respond (readAnswer idm entries.length failed D) a.calls)) := by
  obtain ⟨w, h⟩ := listsParsed_of_sound hl hok
  obtain ⟨v, hv⟩ := readWoEnc_serve (s := s.enterDispatch) (idm := idm) h rfl rfl hn hr
  exact ⟨v, exec_dispatch_of_handle hs ((handleFrame_read hl).trans hv)⟩

/-- DISPATCH of a write with sound lists, as `exec_dispatch_read`. -/
theorem exec_dispatch_write (hs : EdReady s idm)
    (hl : (commandFrame 0x08 idm (listsWire svcs entries ++ tail)).length ≤ 255) (hok : ListsOk s.ed.svc svcs entries)
    (hn : tail.length = 16 * entries.length)
    (hr : writeRun s.ed.svc tail (marked (resolved svcs entries)) 0 { s.app with calls := [] } = (failed, a)) :
    ∃ v, exec (.dispatch (commandFrame 0x08 idm (listsWire svcs entries ++ tail))) s =
      .next (afterDispatch s v a (.respond (writeAnswer idm failed) a.calls)) := by
  obtain ⟨w, h⟩ := listsParsed_of_sound hl hok
  obtain ⟨v, hv⟩ := writeWoEnc_serve (s := s.enterDispatch) (idm := idm) h rfl rfl hn hr
  exact ⟨v, exec_dispatch_of_handle hs ((handleFrame_write hl).trans hv)⟩

end Serve

end Sys2Proof.Machine

namespace Sys2Proof.Claims

open Machine

/-- Settles O43: the length checks stand between the parse and the first callback. -/
theorem lengthStatuses : Obligations.LengthStatuses := by
  unfold Obligations.LengthStatuses
  intro s idm svcs entries tail hs hok
  refine ⟨fun hl hn => ?_, fun hl hn => ?_⟩
  · obtain ⟨w, h⟩ := listsParsed_of_sound hl hok
    exact ⟨w, exec_dispatch_of_work hs
      ((handleFrame_read hl).trans (readWoEnc_tooMany (s := s.enterDispatch) h rfl hn))⟩
  · obtain ⟨w, h⟩ := listsParsed_of_sound hl hok
    exact ⟨w, exec_dispatch_of_work hs
      ((handleFrame_write hl).trans (writeWoEnc_dataLength (s := s.enterDispatch) h rfl hn))⟩

end Sys2Proof.Claims
end

section
/-! The callbacks over the store and the callbacks whose answers are draws (R26, R58; logs 8 and 9): what a row of them
does, and with it O35 to O39. -/

namespace Sys2Proof.Machine

open Claims

/-- The application with calls reported (R37). -/
def App.report (a : App) (calls : List CallbackCall) : App := { a with calls := a.calls ++ calls }

theorem App.report_nil (a : App) : a.report [] = a := by simp [App.report]
theorem App.report_cons (a : App) (c : CallbackCall) (calls : List CallbackCall) :
    a.report (c :: calls) = (a.report [c]).report calls := by simp [App.report]

/-! ## Callbacks over the store (log 8) -/

section Store

variable {s : State} {e : Svc × BitVec 16} {m : Mark} {ms : List Mark} {a : App} {data : List Byte}

theorem readBank_isSome (h : (readBank s e).isSome) :
    ∃ bank size wr, lookupService s.ed.svc e.1 = some { rd := .store bank size, wr := wr } ∧ e.2.toNat < size ∧
      readBank s e = some bank := by
  unfold readBank at h ⊢
  split at h
  · split at h
    · exact ⟨_, _, _, by assumption, by assumption, if_pos (by assumption)⟩
    · cases h
  · cases h

theorem writeBank_isSome (h : (writeBank s e).isSome) :
    ∃ bank size rd, lookupService s.ed.svc e.1 = some { rd := rd, wr := .store bank size } ∧ e.2.toNat < size ∧
      writeBank s e = some bank := by
  unfold writeBank at h ⊢
  split at h
  · split at h
    · exact ⟨_, _, _, by assumption, by assumption, if_pos (by assumption)⟩
    · cases h
  · cases h

/-- A read callback that holds its block answers it, and changes nothing. -/
theorem appRead_store (h : (readBank s (markEntry m)).isSome) (hMem : a.mem = s.app.mem) :
    ∃ c d, callKey c = m ∧ d.val = blockOf s (markEntry m) ∧ appRead s.ed.svc m a = (some d, a.report [c]) := by
  obtain ⟨bank, size, wr, hLookup, hSize, hBank⟩ := readBank_isSome h
  dsimp only [markEntry] at hLookup hSize
  refine ⟨.read m.1 (.store bank size) m.2.1 m.2.2.1 m.2.2.2 (some (Memory.readBlock a.mem bank m.2.1)) [],
    Memory.readBlock a.mem bank m.2.1, rfl, ?_, ?_⟩
  · rw [blockOf, hBank, hMem]; rfl
  · simp [appRead, hLookup, runReadCb, hSize, App.report]

theorem appRead_misses (h : readMisses s (markEntry m)) :
    ∃ c, callKey c = m ∧ appRead s.ed.svc m a = (none, a.report [c]) := by
  obtain ⟨bank, size, wr, hLookup, hSize⟩ := h
  dsimp only [markEntry] at hLookup hSize
  refine ⟨.read m.1 (.store bank size) m.2.1 m.2.2.1 m.2.2.2 none [], rfl, ?_⟩
  simp [appRead, hLookup, runReadCb, Nat.not_lt.2 hSize, App.report]

/-- A write callback that holds its block stores it. -/
theorem appWrite_store (h : (writeBank s (markEntry m)).isSome) (d : List Byte) :
    ∃ c bank, callKey c = m ∧ writeBank s (markEntry m) = some bank ∧
      appWrite s.ed.svc m d a = (true, ({ a with mem := Memory.writeBlock a.mem bank m.2.1 d } : App).report [c]) := by
  obtain ⟨bank, size, rd, hLookup, hSize, hBank⟩ := writeBank_isSome h
  dsimp only [markEntry] at hLookup hSize
  refine ⟨.write m.1 (.store bank size) m.2.1 d m.2.2.1 m.2.2.2 true [], bank, rfl, hBank, ?_⟩
  simp [appWrite, hLookup, runWriteCb, hSize, App.report]

/-- A write callback that fails stores nothing. -/
theorem appWrite_fails (h : writeFails s (markEntry m)) (d : List Byte) :
    ∃ c, callKey c = m ∧ appWrite s.ed.svc m d a = (false, a.report [c]) := by
  rcases h with ⟨bank, size, rd, hLookup, hSize⟩ | ⟨rd, hLookup⟩
  · dsimp only [markEntry] at hLookup hSize
    refine ⟨.write m.1 (.store bank size) m.2.1 d m.2.2.1 m.2.2.2 false [], rfl, ?_⟩
    simp [appWrite, hLookup, runWriteCb, Nat.not_lt.2 hSize, App.report]
  · dsimp only [markEntry] at hLookup
    refine ⟨.write m.1 .readOnly m.2.1 d m.2.2.1 m.2.2.2 false [], rfl, ?_⟩
    simp [appWrite, hLookup, runWriteCb, App.report]

/-- Read callbacks that hold their blocks answer them in order, and change nothing. -/
theorem readsAnswer_store (h : ∀ m ∈ ms, (readBank s (markEntry m)).isSome) (hMem : a.mem = s.app.mem) :
    ∃ calls, calls.map callKey = ms ∧
      ReadsAnswer s.ed.svc ms a ((ms.map markEntry).flatMap (blockOf s)) (a.report calls) := by
  induction ms generalizing a with
  | nil => exact ⟨[], rfl, by rw [App.report_nil]; exact .nil a⟩
  | cons m ms ih =>
    obtain ⟨c, d, hKey, hBlock, hm⟩ := appRead_store (h m (by simp)) hMem
    obtain ⟨calls, hKeys, hRest⟩ := ih (a := a.report [c]) (fun m' h' => h m' (by simp [h'])) hMem
    refine ⟨c :: calls, by rw [List.map_cons, hKey, hKeys], ?_⟩
    rw [List.map_cons, List.flatMap_cons, ← hBlock, App.report_cons]
    exact .cons hm hRest

/-- Write callbacks that hold their blocks store them in order. -/
theorem writesSucceed_store {i : Nat} (h : ∀ m ∈ ms, (writeBank s (markEntry m)).isSome) :
    ∃ calls, calls.map callKey = ms ∧ WritesSucceed s.ed.svc data i ms a
      (({ a with mem := storeAfter s (ms.map markEntry) (data.drop (16 * i)) a.mem } : App).report calls) := by
  induction ms generalizing a i with
  | nil => exact ⟨[], rfl, by rw [App.report_nil]; exact .nil i a⟩
  | cons m ms ih =>
    obtain ⟨c, bank, hKey, hBank, hm⟩ := appWrite_store (a := a) (h m (by simp)) (blockSlice data i)
    obtain ⟨calls, hKeys, hRest⟩ := ih (i := i + 1) (fun m' h' => h m' (by simp [h']))
    refine ⟨c :: calls, by rw [List.map_cons, hKey, hKeys], ?_⟩
    have hSlice : (data.drop (16 * i)).take 16 = blockSlice data i := by simp [blockSlice, slice]
    rw [List.map_cons, storeAfter, hBank, hSlice, List.drop_drop, App.report_cons]
    exact .cons hm hRest

/-- The store outside the blocks that are written. -/
theorem readByte_storeAfter_outside {bl : List (Svc × BitVec 16)} {mem : Memory} {x : Nat}
    (h : ∀ e ∈ bl, ∀ bank, writeBank s e = some bank → ¬ inBlock bank e.2 x) :
    Memory.readByte (storeAfter s bl data mem) x = Memory.readByte mem x := by
  induction bl generalizing data mem with
  | nil => rfl
  | cons e bl ih =>
    rw [storeAfter, ih fun e' h' => h e' (by simp [h'])]
    cases hBank : writeBank s e with
    | none => rfl
    | some bank =>
      have hOut := h e (by simp) bank hBank
      have hLen := List.length_take_le 16 data
      unfold inBlock at hOut
      exact Memory.readByte_writeBytes_outside (by omega)

end Store

/-! ## Callbacks whose answers are draws (log 9) -/

/-- What the attempts of a drawn callback get (R244). -/
def refusals (attempts : Nat) : List (Option Err) := List.replicate attempts (some .refused)

/-- The reply of a read callback that gives data. -/
def dataReply (x : Block × Nat) : ReadReply := { data := some x.1, attempts := x.2 }

/-- The reply of a write callback that returns true. -/
def trueReply (attempts : Nat) : WriteReply := { ok := true, attempts := attempts }

section Drawn

variable {t : SvcTable} {m : Mark} {ms : List Mark} {a : App} {data : List Byte}

/-- A drawn read callback takes the next reply. -/
theorem appRead_drawn {r : ReadReply} {q : List ReadReply}
    (h : ∃ handle wr, lookupService t m.1 = some { rd := .drawn handle, wr := wr }) (hq : a.readScript = r :: q) :
    ∃ c, callKey c = m ∧ callReentries c = refusals r.attempts ∧
      appRead t m a = (r.data, ({ a with readScript := q } : App).report [c]) := by
  obtain ⟨handle, wr, hLookup⟩ := h
  refine ⟨.read m.1 (.drawn handle) m.2.1 m.2.2.1 m.2.2.2 r.data (refusals r.attempts), rfl, rfl, ?_⟩
  simp [appRead, hLookup, runReadCb, drawRead, hq, App.report, refusals]

/-- A drawn write callback takes the next reply. -/
theorem appWrite_drawn {r : WriteReply} {q : List WriteReply}
    (h : ∃ handle rd, lookupService t m.1 = some { rd := rd, wr := .drawn handle }) (hq : a.writeScript = r :: q)
    (d : List Byte) :
    ∃ c, callKey c = m ∧ callData c = d ∧ callReentries c = refusals r.attempts ∧
      appWrite t m d a = (r.ok, ({ a with writeScript := q } : App).report [c]) := by
  obtain ⟨handle, rd, hLookup⟩ := h
  refine ⟨.write m.1 (.drawn handle) m.2.1 d m.2.2.1 m.2.2.2 r.ok (refusals r.attempts), rfl, rfl, rfl, ?_⟩
  simp [appWrite, hLookup, runWriteCb, drawWrite, hq, App.report, refusals]

/-- Read callbacks whose replies give data: each takes the next reply, and every attempt meanwhile is refused. -/
theorem readsAnswer_drawn {answers : List (Block × Nat)} {q : List ReadReply} (hLen : answers.length = ms.length)
    (h : ∀ m ∈ ms, ∃ handle wr, lookupService t m.1 = some { rd := .drawn handle, wr := wr })
    (hq : a.readScript = answers.map dataReply ++ q) :
    ∃ calls, calls.map callKey = ms ∧ calls.flatMap callReentries = (answers.map (·.2)).flatMap refusals ∧
      ReadsAnswer t ms a (answers.flatMap (fun x => x.1.val)) (({ a with readScript := q } : App).report calls) := by
  induction ms generalizing a answers with
  | nil =>
    obtain rfl := List.length_eq_zero_iff.1 hLen
    obtain rfl : a.readScript = q := hq
    exact ⟨[], rfl, rfl, by rw [App.report_nil]; exact .nil a⟩
  | cons m ms ih =>
    obtain ⟨x, answers, rfl⟩ := List.exists_cons_of_length_eq_add_one hLen
    obtain ⟨c, hKey, hRefused, hm⟩ := appRead_drawn (h m (by simp)) hq
    obtain ⟨calls, hKeys, hRefusals, hRest⟩ :=
      ih (a := ({ a with readScript := answers.map dataReply ++ q } : App).report [c]) (Nat.succ.inj hLen)
        (fun m' h' => h m' (by simp [h'])) rfl
    refine ⟨c :: calls, by rw [List.map_cons, hKey, hKeys], ?_, ?_⟩
    · rw [List.flatMap_cons, hRefused, hRefusals]; rfl
    · rw [List.flatMap_cons, App.report_cons]
      exact .cons hm hRest

/-- Write callbacks whose replies are true, as `readsAnswer_drawn`; each gets its 16 bytes of the data. -/
theorem writesSucceed_drawn {oks : List Nat} {q : List WriteReply} {i : Nat} (hLen : oks.length = ms.length)
    (h : ∀ m ∈ ms, ∃ handle rd, lookupService t m.1 = some { rd := rd, wr := .drawn handle })
    (hq : a.writeScript = oks.map trueReply ++ q) :
    ∃ calls, calls.map callKey = ms ∧ calls.flatMap callData = (data.drop (16 * i)).take (16 * ms.length) ∧
      calls.flatMap callReentries = oks.flatMap refusals ∧
      WritesSucceed t data i ms a (({ a with writeScript := q } : App).report calls) := by
  induction ms generalizing a oks i with
  | nil =>
    obtain rfl := List.length_eq_zero_iff.1 hLen
    obtain rfl : a.writeScript = q := hq
    exact ⟨[], rfl, by simp, rfl, by rw [App.report_nil]; exact .nil i a⟩
  | cons m ms ih =>
    obtain ⟨k, oks, rfl⟩ := List.exists_cons_of_length_eq_add_one hLen
    obtain ⟨c, hKey, hBlock, hRefused, hm⟩ := appWrite_drawn (h m (by simp)) hq (blockSlice data i)
    obtain ⟨calls, hKeys, hData, hRefusals, hRest⟩ :=
      ih (a := ({ a with writeScript := oks.map trueReply ++ q } : App).report [c]) (i := i + 1) (Nat.succ.inj hLen)
        (fun m' h' => h m' (by simp [h'])) rfl
    refine ⟨c :: calls, by rw [List.map_cons, hKey, hKeys], ?_, ?_, ?_⟩
    · rw [List.flatMap_cons, hBlock, hData, List.length_cons, Nat.mul_succ 16 ms.length, Nat.add_comm _ 16,
        List.take_add, List.drop_drop]
      simp [blockSlice, slice, Nat.mul_succ]
    · rw [List.flatMap_cons, hRefused, hRefusals]; rfl
    · rw [App.report_cons]
      exact .cons hm hRest

end Drawn

/-- A list around one of its places. -/
theorem exists_split_at {α : Type} {l : List α} {k : Nat} (h : k < l.length) :
    ∃ pre x post, l = pre ++ x :: post ∧ pre.length = k :=
  ⟨l.take k, l[k], l.drop (k + 1), by rw [List.getElem_cons_drop, List.take_append_drop],
    List.length_take_of_le (Nat.le_of_lt h)⟩

end Sys2Proof.Machine

namespace Sys2Proof.Claims

open Machine

/-- Settles O35: every callback answers from the store. -/
theorem readServedFromTheStore : Obligations.ReadServedFromTheStore := by
  unfold Obligations.ReadServedFromTheStore
  intro s idm svcs entries tail hs hl hok hn hBanks
  obtain ⟨calls, hKeys, hReads⟩ := readsAnswer_store (a := { s.app with calls := [] }) (forall_marked hBanks) rfl
  obtain ⟨w, hExec⟩ := exec_dispatch_read hs hl hok hn (hReads.readRun_eq 0)
  rw [map_markEntry_marked] at hExec
  exact ⟨w, calls, hExec, hKeys⟩

/-- Settles O36: the replies are taken in order, up to the first that gives no data. -/
theorem readServedFromDraws : Obligations.ReadServedFromDraws := by
  unfold Obligations.ReadServedFromDraws
  intro s idm svcs entries tail answers q hs hl hok hn hDrawn
  have hMarks := forall_marked hDrawn
  have hCount : (marked (resolved svcs entries)).length = entries.length := by
    rw [length_marked, resolved, List.length_map]
  refine ⟨fun hLen hScript => ?_, fun k hLen hScript => ?_⟩
  · obtain ⟨calls, hKeys, hRefused, hReads⟩ :=
      readsAnswer_drawn (a := { s.app with calls := [] }) (hLen.trans hCount.symm) hMarks hScript
    obtain ⟨w, hExec⟩ := exec_dispatch_read hs hl hok hn (hReads.readRun_eq 0)
    exact ⟨w, calls, hExec, hKeys, hRefused⟩
  · obtain ⟨ms, m, rest, hMarked, hPlace⟩ := exists_split_at (hCount ▸ hLen)
    obtain ⟨calls, hKeys, hRefused, hReads⟩ :=
      readsAnswer_drawn (a := { s.app with calls := [] }) hPlace.symm
        (fun m' h' => hMarks m' (by simp [hMarked, h'])) hScript
    obtain ⟨c, hKey, hLast, hm⟩ := appRead_drawn (hMarks m (by simp [hMarked])) (a := (
      { s.app with readScript := { data := none, attempts := k } :: q, calls := [] } : App).report calls) rfl
    have hRun := hReads.readRun_fails hm rest 0
    rw [← hMarked] at hRun
    obtain ⟨w, hExec⟩ := exec_dispatch_read hs hl hok hn hRun
    refine ⟨w, calls ++ [c], ?_, ?_, ?_⟩
    · rw [hExec, Nat.zero_add, hPlace]; rfl
    · rw [hMarked, ← hPlace, List.take_length_add_append, List.map_append, hKeys, List.map_singleton, hKey]; rfl
    · simp only [List.flatMap_append, hRefused, List.flatMap_singleton, hLast]; rfl

/-- Settles O37: every callback stores its block. -/
theorem writeServedToTheStore : Obligations.WriteServedToTheStore := by
  unfold Obligations.WriteServedToTheStore
  intro s idm svcs entries data hs hl hok hn hBanks
  obtain ⟨calls, hKeys, hWrites⟩ :=
    writesSucceed_store (a := { s.app with calls := [] }) (data := data) (i := 0) (forall_marked hBanks)
  obtain ⟨w, hExec⟩ := exec_dispatch_write hs hl hok hn hWrites.writeRun_eq
  rw [map_markEntry_marked] at hExec
  exact ⟨w, calls, hExec, hKeys, fun x hx => readByte_storeAfter_outside hx⟩

/-- Settles O38: the entries before the failing one are served, it fails, and the run ends there. -/
theorem failingCallbackStops : Obligations.FailingCallbackStops := by
  unfold Obligations.FailingCallbackStops
  intro s idm svcs entries tail pre post bad hs hok hList
  obtain ⟨ms, m, rest, hMarked, hPre, hBad, hLen, hTake⟩ := marked_split hList
  refine ⟨fun hl hn hBanks hMiss => ?_, fun hl hn hBanks hFails => ?_⟩
  · rw [← hBad] at hMiss
    obtain ⟨calls, hKeys, hReads⟩ := readsAnswer_store (s := s) (a := { s.app with calls := [] }) (ms := ms)
      (fun m' h' => hBanks _ (by rw [← hPre]; exact List.mem_map_of_mem h')) rfl
    obtain ⟨c, hKey, hm⟩ := appRead_misses hMiss
    have hRun := hReads.readRun_fails hm rest 0
    rw [← hMarked] at hRun
    obtain ⟨w, hExec⟩ := exec_dispatch_read hs hl hok hn hRun
    refine ⟨w, calls ++ [c], ?_, by rw [hTake, List.map_append, hKeys, List.map_singleton, hKey]⟩
    rw [hExec, Nat.zero_add, hLen]; rfl
  · rw [← hBad] at hFails
    obtain ⟨calls, hKeys, hWrites⟩ := writesSucceed_store (s := s) (a := { s.app with calls := [] }) (ms := ms)
      (data := tail) (i := 0) (fun m' h' => hBanks _ (by rw [← hPre]; exact List.mem_map_of_mem h'))
    obtain ⟨c, hKey, hm⟩ := appWrite_fails hFails (blockSlice tail (0 + ms.length))
    have hRun := hWrites.writeRun_fails hm rest
    rw [← hMarked] at hRun
    obtain ⟨w, hExec⟩ := exec_dispatch_write hs hl hok hn hRun
    refine ⟨w, calls ++ [c], ?_, by rw [hTake, List.map_append, hKeys, List.map_singleton, hKey]⟩
    rw [hExec, Nat.zero_add, hLen, hPre]; rfl

/-- Settles O39: the replies are taken in order, up to the first that is false. -/
theorem writeServedFromDraws : Obligations.WriteServedFromDraws := by
  unfold Obligations.WriteServedFromDraws
  intro s idm svcs entries data oks q hs hl hok hn hDrawn
  have hMarks := forall_marked hDrawn
  have hCount : (marked (resolved svcs entries)).length = entries.length := by
    rw [length_marked, resolved, List.length_map]
  refine ⟨fun hLen hScript => ?_, fun k hLen hScript => ?_⟩
  · obtain ⟨calls, hKeys, hData, hRefused, hWrites⟩ :=
      writesSucceed_drawn (a := { s.app with calls := [] }) (data := data) (i := 0) (hLen.trans hCount.symm) hMarks
        hScript
    obtain ⟨w, hExec⟩ := exec_dispatch_write hs hl hok hn hWrites.writeRun_eq
    refine ⟨w, calls, hExec, hKeys, ?_, hRefused⟩
    rw [hData, hCount, ← hn]
    exact List.take_length
  · obtain ⟨ms, m, rest, hMarked, hPlace⟩ := exists_split_at (hCount ▸ hLen)
    obtain ⟨calls, hKeys, hData, hRefused, hWrites⟩ :=
      writesSucceed_drawn (a := { s.app with calls := [] }) (data := data) (i := 0) hPlace.symm
        (fun m' h' => hMarks m' (by simp [hMarked, h'])) hScript
    obtain ⟨c, hKey, hBlock, hLast, hm⟩ := appWrite_drawn (hMarks m (by simp [hMarked])) (a := (
      { s.app with writeScript := { ok := false, attempts := k } :: q, calls := [] } : App).report calls) rfl
      (blockSlice data (0 + ms.length))
    have hRun := hWrites.writeRun_fails hm rest
    rw [← hMarked] at hRun
    obtain ⟨w, hExec⟩ := exec_dispatch_write hs hl hok hn hRun
    refine ⟨w, calls ++ [c], ?_, ?_, ?_, ?_⟩
    · rw [hExec, Nat.zero_add, hPlace]; rfl
    · rw [hMarked, ← hPlace, List.take_length_add_append, List.map_append, hKeys, List.map_singleton, hKey]; rfl
    · rw [List.flatMap_append, hData, List.flatMap_singleton, hBlock, hPlace, Nat.mul_succ, List.take_add]
      simp [blockSlice, slice]
    · simp only [List.flatMap_append, hRefused, List.flatMap_singleton, hLast]; rfl

end Sys2Proof.Claims
end

section
/-! What the store answers after a block write (R53; log 10): O60. -/

namespace Sys2Proof.Machine

open Claims

/-- A block write leaves every byte outside the block alone. -/
theorem Memory.readByte_writeBlock_outside {m : Memory} {bank blk : BitVec 16} {d : Block} {a : Nat}
    (h : ¬ inBlock bank blk a) :
    Memory.readByte (Memory.writeBlock m bank blk d.val) a = Memory.readByte m a := by
  refine Memory.readByte_writeBytes_outside ?_
  rw [d.property]
  simp only [inBlock] at h
  omega

end Sys2Proof.Machine

namespace Sys2Proof.Claims

open Machine

/-- Settles O60, from the laws of the store: a block is 16 addresses, and two blocks share none. -/
theorem storeReadAfterWrite : Obligations.StoreReadAfterWrite := by
  unfold Obligations.StoreReadAfterWrite
  intro m bank blk d hm
  exact ⟨Memory.wf_writeBlock hm, Memory.readBlock_writeBlock_self hm,
    fun _ _ hne => Memory.readBlock_writeBlock_ne d.property hne, fun _ => Memory.readByte_writeBlock_outside⟩

end Sys2Proof.Claims
end

section
/-! The arrival of a response frame (R61, R93): with no exchange in flight it waits behind the answers of Receive, with
one it ends the exchange: O33. -/

namespace Sys2Proof.Machine

variable {s : State} {F : List Byte}

/-! ## No exchange in flight -/

theorem responseArrives_idle (h : s.re.phase = .idle) (F : List Byte) :
    responseArrives F s =
      s.setTransport { s.transport with recvScript := s.transport.recvScript ++ [some F] } := by
  rw [responseArrives, h]

/-- Over an external transport Receive takes the first of the answers that wait. -/
theorem receiveFrame_waiting {a : Option (List Byte)} {q : List (Option (List Byte))}
    (hLink : s.transport.link = .external) (hScript : s.transport.recvScript = a :: q) (n : Nat) :
    receiveFrame n s = (a, (s.setTransport { s.transport with recvScript := q }).logWire (.received n a)) := by
  simp only [receiveFrame, hLink, drawReceive, hScript]

/-- An answer put where none waits is the next that Receive takes, and Receive leaves none again. -/
theorem receiveFrame_arrived (hLink : s.transport.link = .external) (hNone : s.transport.recvScript = [])
    (F : List Byte) (n : Nat) :
    receiveFrame n (s.setTransport { s.transport with recvScript := s.transport.recvScript ++ [some F] }) =
      (some F, s.logWire (.received n (some F))) := by
  rw [receiveFrame_waiting (a := some F) (q := [])]
  · rw [← hNone]
    rfl
  · exact hLink
  · rw [State.setTransport_transport, hNone]
    rfl

/-! ## An exchange in flight (R150, R151) -/

/-- RE idle, and the Receive in flight answered by `F`. -/
def State.receivedReply (s : State) (F : List Byte) : State :=
  s.endAwait.logWire (.received s.re.pend.t.toNat (some F))

theorem responseArrives_await (h : s.re.phase = .await) (F : List Byte) :
    responseArrives F s = completeExchange F s := by
  rw [responseArrives, h]

/-- A read in flight ends with the result of PARSE_READ_RSP. -/
theorem completeExchange_read (h : s.re.pend.code = 0x07) (F : List Byte) :
    completeExchange F s =
      (s.receivedReply F).reply (resultOf .bytes (parseReadRsp s F s.re.pend.n.toNat)) := by
  rw [completeExchange, if_pos h, State.finish_eq_reply]
  rfl

/-- A write in flight ends with the result of PARSE_WRITE_RSP. -/
theorem completeExchange_write (h : s.re.pend.code = 0x09) (F : List Byte) :
    completeExchange F s = (s.receivedReply F).reply (resultOf (fun _ => .unit) (parseWriteRsp s F)) := by
  have hOther : s.re.pend.code ≠ 0x07 := by rw [h]; decide
  rw [completeExchange, if_neg hOther, State.finish_eq_reply]
  rfl

theorem exec_parseReadRsp (F : List Byte) (n : Nat) (s : State) :
    exec (.parseReadRsp F n) s = .next (s.reply (resultOf .bytes (parseReadRsp s F n))) := by
  rw [← State.finish_eq_reply]
  rfl

theorem exec_parseWriteRsp (F : List Byte) (s : State) :
    exec (.parseWriteRsp F) s = .next (s.reply (resultOf (fun _ => .unit) (parseWriteRsp s F))) := by
  rw [← State.finish_eq_reply]
  rfl

end Sys2Proof.Machine

namespace Sys2Proof.Claims

open Machine

/-- Settles O33: the five response frames arrive alike, and RE.PHASE and RE.PEND say what the arrival does. -/
theorem responseFramesReachTheReader : Obligations.ResponseFramesReachTheReader := by
  unfold Obligations.ResponseFramesReachTheReader
  intro len rest s code i hi
  have hExec : exec i s = .next (responseArrives (len :: code :: rest) s) := by
    rcases hi with ⟨rfl, rfl⟩ | ⟨rfl, rfl⟩ | ⟨rfl, rfl⟩ | ⟨rfl, rfl⟩ | ⟨rfl, rfl⟩ <;> rfl
  refine ⟨fun hIdle => ?_, fun hIdle hNone hLink n => ?_, ?_⟩
  · rw [hExec, responseArrives_idle hIdle]
    rfl
  · rw [hExec, responseArrives_idle hIdle]
    exact ⟨_, rfl, receiveFrame_arrived hLink hNone _ n⟩
  · rintro hAwait t rfl
    rw [hExec, responseArrives_await hAwait]
    refine ⟨fun hRead => ⟨_, exec_parseReadRsp _ _ s, ?_⟩, fun hWrite => ⟨_, exec_parseWriteRsp _ s, ?_⟩⟩
    · rw [completeExchange_read hRead]
      rfl
    · rw [completeExchange_write hWrite]
      rfl

end Sys2Proof.Claims
end

section
/-! The callback calls of a DISPATCH (R37) follow the block list (R215, R222), whatever the callbacks are and answer:
O46. -/

namespace Sys2Proof.Machine

open Claims

/-! ## The calls that a run of callbacks makes -/

/-- Service, block number and markers of the calls reported so far (R37). -/
def App.keys (a : App) : List Mark := a.calls.map callKey

@[simp] theorem drawRead_calls (a : App) : (drawRead a).2.calls = a.calls := by unfold drawRead; split <;> rfl
@[simp] theorem drawWrite_calls (a : App) : (drawWrite a).2.calls = a.calls := by unfold drawWrite; split <;> rfl

/-- A read callback itself reports nothing. -/
@[simp] theorem runReadCb_calls (cb : ReadCb) (blk : BitVec 16) (a : App) :
    (runReadCb cb blk a).2.calls = a.calls := by
  cases cb with
  | drawn _ => exact drawRead_calls a
  | store _ _ => rfl

/-- A write callback itself reports nothing. -/
@[simp] theorem runWriteCb_calls (cb : WriteCb) (blk : BitVec 16) (d : List Byte) (a : App) :
    (runWriteCb cb blk d a).2.calls = a.calls := by
  cases cb with
  | drawn _ => exact drawWrite_calls a
  | store _ _ => simp only [runWriteCb]; split <;> rfl
  | readOnly => rfl

/-- From `a` to `b` the callbacks of an initial part of `ms` were called and reported, each once and in order. -/
def App.CallsAlong (a b : App) (ms : List Mark) : Prop := ∃ ks, ks <+: ms ∧ b.keys = a.keys ++ ks

theorem App.CallsAlong.refl (a : App) (ms : List Mark) : a.CallsAlong a ms :=
  ⟨[], List.nil_prefix, (List.append_nil _).symm⟩

theorem App.CallsAlong.cons {a b c : App} {m : Mark} {ms : List Mark} (hCall : b.keys = a.keys ++ [m])
    (h : b.CallsAlong c ms) : a.CallsAlong c (m :: ms) := by
  obtain ⟨ks, hks, hKeys⟩ := h
  exact ⟨m :: ks, List.cons_prefix_cons.2 ⟨rfl, hks⟩, by rw [hKeys, hCall, List.append_assoc, List.singleton_append]⟩

/-- A read callback is called for its entry and reported, or its service has none and the run ends there. -/
theorem appRead_keys (t : SvcTable) (m : Mark) (a : App) :
    appRead t m a = (none, a) ∨ (appRead t m a).2.keys = a.keys ++ [m] := by
  unfold appRead
  cases lookupService t m.1 with
  | none => exact .inl rfl
  | some p => exact .inr (by simp [App.keys, callKey])

/-- A write callback, as `appRead_keys`. -/
theorem appWrite_keys (t : SvcTable) (m : Mark) (d : List Byte) (a : App) :
    appWrite t m d a = (false, a) ∨ (appWrite t m d a).2.keys = a.keys ++ [m] := by
  unfold appWrite
  cases lookupService t m.1 with
  | none => exact .inl rfl
  | some p => exact .inr (by simp [App.keys, callKey])

theorem readRun_callsAlong (t : SvcTable) (ms : List Mark) (i : Nat) (a : App) :
    a.CallsAlong (readRun t ms i a).2.2 ms := by
  induction ms generalizing i a with
  | nil => exact .refl a []
  | cons m ms ih =>
    rw [readRun]
    rcases appRead_keys t m a with hNone | hCall
    · rw [hNone]
      exact .refl a _
    · split <;> rename_i b hb <;> rw [hb] at hCall
      · exact .cons hCall (.refl b ms)
      · exact .cons hCall (ih (i + 1) b)

theorem writeRun_callsAlong (t : SvcTable) (data : List Byte) (ms : List Mark) (i : Nat) (a : App) :
    a.CallsAlong (writeRun t data ms i a).2 ms := by
  induction ms generalizing i a with
  | nil => exact .refl a []
  | cons m ms ih =>
    rw [writeRun]
    rcases appWrite_keys t m (blockSlice data i) a with hNone | hCall
    · rw [hNone]
      exact .refl a _
    · split <;> rename_i b hb <;> rw [hb] at hCall
      · exact .cons hCall (.refl b ms)
      · exact .cons hCall (ih (i + 1) b)

/-! ## The handlers -/

/-- The calls reported follow the block list in BL, from its first entry on. -/
def State.CallsFollow (s : State) : Prop := s.app.keys <+: marked s.ed.work.bl

section Handlers

variable {s : State} {F : List Byte} {idm : Bytes 8}

theorem State.callsFollow_of_noCalls (h : s.app.calls = []) : s.CallsFollow := by
  rw [State.CallsFollow, App.keys, h]
  exact List.nil_prefix

/-- A run of callbacks along the marked block list, when BL stays and no call stood before. -/
theorem App.CallsAlong.callsFollow {a : App} {w : Work} (h : s.app.CallsAlong a (marksFrom [] s.ed.work.bl))
    (hNoCalls : s.app.calls = []) (hList : w.bl = s.ed.work.bl) : ((s.setWork w).setApp a).CallsFollow := by
  obtain ⟨ks, hks, hKeys⟩ := h
  have hKeys : a.keys = ks := by simpa [App.keys, hNoCalls] using hKeys
  simpa only [State.CallsFollow, State.setApp_app, State.setApp_ed, State.setWork_ed, hKeys, hList, marksFrom_nil]
    using hks

theorem readEntries_callsFollow (hp : s.ed.phase = .busy) (hCounts : CountsAt s.ed.work [] s.ed.work.bl)
    (hNoCalls : s.app.calls = []) : (readEntries s.ed.work.bl 0 s).2.CallsFollow := by
  obtain ⟨w, hRun, -, hTaken⟩ := readEntries_eq (i := 0) hp hCounts
  rw [hRun]
  exact (readRun_callsAlong _ _ _ _).callsFollow hNoCalls hTaken.bl

theorem writeEntries_callsFollow (hp : s.ed.phase = .busy) (hCounts : CountsAt s.ed.work [] s.ed.work.bl)
    (hNoCalls : s.app.calls = []) (data : List Byte) : (writeEntries data s.ed.work.bl 0 s).2.CallsFollow := by
  obtain ⟨w, hRun, -, hTaken⟩ := writeEntries_eq (data := data) (i := 0) hp hCounts
  rw [hRun]
  exact (writeRun_callsAlong _ _ _ _ _).callsFollow hNoCalls hTaken.bl

theorem readWoEnc_callsFollow (hp : s.ed.phase = .busy) (hw : s.ed.work = Work.cleared)
    (hNoCalls : s.app.calls = []) (h10 : 10 ≤ F.length) (h255 : F.length ≤ 255) :
    (readWoEnc idm F s).2.CallsFollow := by
  unfold readWoEnc
  rw [hw]
  split
  case h_1 => exact State.callsFollow_of_noCalls hNoCalls
  case h_2 w hParse =>
    obtain ⟨-, -, hCounts, -⟩ := entries_of_parse h10 h255 hParse
    have h := readEntries_callsFollow (s := s.setWork w) hp hCounts hNoCalls
    split
    · exact State.callsFollow_of_noCalls hNoCalls
    · split <;> rename_i hRun <;> simpa only [State.setWork_ed, hRun] using h

theorem writeWoEnc_callsFollow (hp : s.ed.phase = .busy) (hw : s.ed.work = Work.cleared)
    (hNoCalls : s.app.calls = []) (h10 : 10 ≤ F.length) (h255 : F.length ≤ 255) :
    (writeWoEnc idm F s).2.CallsFollow := by
  unfold writeWoEnc
  rw [hw]
  split
  case h_1 => exact State.callsFollow_of_noCalls hNoCalls
  case h_2 w hParse =>
    obtain ⟨-, -, hCounts, -⟩ := entries_of_parse h10 h255 hParse
    have h := writeEntries_callsFollow (s := s.setWork w) hp hCounts hNoCalls (F.drop w.cur)
    split
    · exact State.callsFollow_of_noCalls hNoCalls
    · split <;> rename_i hRun <;> simpa only [State.setWork_ed, hRun] using h

/-- A handler leaves the state as it found it, or is one of the two that parse a block list, in a frame whose length the
framing checks have bounded (R193). -/
theorem handleFrame_state (idm : Bytes 8) (F : List Byte) (s : State) :
    (handleFrame idm F s).2 = s ∨ (10 ≤ F.length ∧ F.length ≤ 255 ∧
      (handleFrame idm F s = readWoEnc idm F s ∨ handleFrame idm F s = writeWoEnc idm F s)) := by
  by_cases h2 : F.length < 2
  · rw [handleFrame_tooShort h2]
    exact .inl rfl
  by_cases hl : (byteAt F 0).toNat = F.length
  case neg =>
    rw [handleFrame_lengthMismatch (by omega) hl]
    exact .inl rfl
  have h255 : F.length ≤ 255 := by have := (byteAt F 0).isLt; omega
  by_cases hPoll : byteAt F 1 = 0x00
  · rw [handleFrame_polling (by omega) hl hPoll]
    exact .inl rfl
  by_cases hc : byteAt F 1 ∈ [0x04, 0x06, 0x08, 0x0C]
  case neg =>
    rw [handleFrame_unknownCode (by omega) hl (mt List.mem_cons.1 (not_or.2 ⟨hPoll, hc⟩))]
    exact .inl rfl
  rw [handleFrame_identified (by omega) hl hc, routeIdentified]
  split_ifs
  · exact .inl rfl
  · exact .inl rfl
  · exact .inl rfl
  · exact .inr ⟨by omega, h255, .inl rfl⟩
  · exact .inr ⟨by omega, h255, .inr rfl⟩
  · exact .inl rfl

theorem handleFrame_callsFollow (idm : Bytes 8) (F : List Byte) (s : State) :
    (handleFrame idm F s.enterDispatch).2.CallsFollow := by
  rcases handleFrame_state idm F s.enterDispatch with h | ⟨h10, h255, h | h⟩ <;> rw [h]
  · exact State.callsFollow_of_noCalls rfl
  · exact readWoEnc_callsFollow rfl rfl rfl h10 h255
  · exact writeWoEnc_callsFollow rfl rfl rfl h10 h255

end Handlers

/-! ## The record of a DISPATCH (R37) -/

/-- A Respond or a Drop that reports these calls. -/
def HostResult.Reports (r : HostResult) (calls : List CallbackCall) : Prop :=
  (∃ g, r = .respond g calls) ∨ ∃ d, r = .drop d calls

/-- The record of an end reports the calls made. -/
theorem endResult_reports {e : DispatchEnd} {made calls : List CallbackCall}
    (h : (endResult e made).Reports calls) : calls = made := by
  cases e with
  | respond frame => simpa [HostResult.Reports, endResult, eq_comm] using h
  | drop reason => simpa [HostResult.Reports, endResult, eq_comm] using h
  | raise err => simp [HostResult.Reports, endResult] at h

/-- The calls that an accepted DISPATCH reports follow the block list that it leaves in BL. -/
theorem dispatchFrame_callsFollow {F : List Byte} {s : State} {calls : List CallbackCall}
    (hIdle : s.ed.phase = .idle) (h : (dispatchFrame F s).1.Reports calls) :
    calls.map callKey <+: marked (dispatchFrame F s).2.ed.work.bl := by
  simp only [dispatchFrame, edGate_idle hIdle] at h ⊢
  cases hIdm : s.ed.idm with
  | none => simp [hIdm, HostResult.Reports] at h
  | some idm =>
    simp only [hIdm] at h ⊢
    rw [endResult_reports h]
    exact handleFrame_callsFollow idm F s

/-- The record that the host gets for a DISPATCH is the one that DISPATCH ended with. -/
theorem deliverResult_dispatchFrame_results {F : List Byte} {s : State} {r : HostResult}
    (h : (deliverResult (dispatchFrame F s).1 (dispatchFrame F s).2).emulator.results =
      s.emulator.results ++ [r]) : (dispatchFrame F s).1 = r := by
  rw [deliverResult_emulator, (dispatchFrame_inside F s).emulator] at h
  simpa using h

end Sys2Proof.Machine

namespace Sys2Proof.Claims

open Machine

/-- Settles O46: ED's counts give the markers of R215, the callbacks are called along the marked list up to the first
that fails, and the other commands call none. -/
theorem callsFollowTheBlockList : Obligations.CallsFollowTheBlockList := by
  unfold Obligations.CallsFollowTheBlockList
  intro F s t r calls hIdle hExec hResult hReports
  rw [exec_dispatch] at hExec
  obtain rfl := Host.Outcome.next.inj hExec
  obtain rfl := deliverResult_dispatchFrame_results hResult
  rw [deliverResult_ed]
  exact dispatchFrame_callsFollow hIdle hReports

end Sys2Proof.Claims
end

section
/-! The decoder (R80, R93, R98; logs 3 and 4): it reads back every well-formed instruction, refuses what goes on after
one, and refuses by name what begins with no selector: O52, O53, O54. -/

namespace Sys2Proof.Laws.OperandsReadBack

/-- The operands of every instruction are read back. -/
theorem all : ∀ i : Instr, Statement i
  | .loadTag idm pmm => loadTag idm pmm
  | .timeoutRd n => timeoutRd n
  | .timeoutWr n => timeoutWr n
  | .serRead svc blocks => serRead svc blocks
  | .serWrite svc blocks data => serWrite svc blocks data
  | .parseReadRsp frame n => parseReadRsp frame n
  | .parseWriteRsp frame => parseWriteRsp frame
  | .readBlocks svc blocks => readBlocks svc blocks
  | .writeBlocks svc blocks data => writeBlocks svc blocks data
  | .attrParse b => attrParse b
  | .attrSerialize ab => attrSerialize ab
  | .attrCheck b => attrCheck b
  | .loadIdentity idm pmm sys => loadIdentity idm pmm sys
  | .registerService code rd wr => registerService code rd wr
  | .dispatch frame => dispatch frame
  | .getAttr => getAttr
  | .readChunked blocks limit => readChunked blocks limit
  | .writeChunked blocks data limit => writeChunked blocks data limit
  | .ndefGet => ndefGet
  | .ndefSet data => ndefSet data
  | .pollingCmd len rest => pollingCmd len rest
  | .pollingRsp len rest => pollingRsp len rest
  | .requestResponseCmd len rest => requestResponseCmd len rest
  | .requestResponseRsp len rest => requestResponseRsp len rest
  | .readWoEncCmd len rest => readWoEncCmd len rest
  | .readWoEncRsp len rest => readWoEncRsp len rest
  | .writeWoEncCmd len rest => writeWoEncCmd len rest
  | .writeWoEncRsp len rest => writeWoEncRsp len rest
  | .requestSystemCodeCmd len rest => requestSystemCodeCmd len rest
  | .requestSystemCodeRsp len rest => requestSystemCodeRsp len rest

end Sys2Proof.Laws.OperandsReadBack

namespace Sys2Proof

open Machine

/-! ## Items that the encoder writes -/

theorem decode_encode {i : Instr} (hWf : i.wf = true) : decode (encode i) = .ok i := by
  obtain ⟨j, left, hRead, hExact, -⟩ := Laws.OperandsReadBack.all i []
  obtain ⟨rfl, rfl⟩ := hExact rfl
  rw [List.append_nil] at hRead
  rw [encode, decode_cons hRead, if_pos hWf, if_pos rfl]

/-- Bytes after an item are left over, or make its last operand ill formed. -/
theorem decode_encode_append {i : Instr} (hWf : i.wf = true) {rest : List Byte} (hRest : rest ≠ []) :
    ∃ e, decode (encode i ++ rest) = .error e := by
  obtain ⟨j, left, hRead, -, hLonger⟩ := Laws.OperandsReadBack.all i rest
  rw [encode, List.cons_append, decode_cons hRead]
  rcases hLonger hRest hWf with hLeft | hIll
  · rw [if_neg hLeft]
    split
    · exact ⟨_, rfl⟩
    · exact ⟨_, rfl⟩
  · exact ⟨.illFormed, by rw [hIll]; rfl⟩

/-- An item is decoded by finding the instruction that it is the encoding of. -/
theorem decode_of_encode {i : Instr} {item : List Byte} (hItem : encode i = item) (hWf : i.wf = true) :
    decode item = .ok i := hItem ▸ decode_encode hWf

/-! ## Items that no operation begins -/

/-- The selectors: the operation numbers of R80, the frame codes of R93, and those of the sequences (log 4). -/
def selectors : List Byte :=
  [0x10, 0x11, 0x12, 0x20, 0x21, 0x22, 0x23, 0x24, 0x25, 0x30, 0x31, 0x32, 0x40, 0x41, 0x42,
    0x00, 0x01, 0x04, 0x05, 0x06, 0x07, 0x08, 0x09, 0x0C, 0x0D, 0x80, 0x81, 0x82, 0x83, 0x84]

/-- A byte that is no selector meets the last arm of the decoder's match. -/
theorem decOperands_unknown {selector : Byte} (h : selector ∉ selectors) :
    decOperands selector = Dec.fail (.noSuchOperation selector) := by
  have hNum : selector.toNat ∉ selectors.map BitVec.toNat := fun hMem => by
    obtain ⟨b, hb, hEq⟩ := List.mem_map.1 hMem
    exact h (BitVec.eq_of_toNat_eq hEq ▸ hb)
  unfold decOperands
  split
  case h_31 => rfl
  all_goals
    rename_i hArm
    rw [hArm] at hNum
    exact absurd (by decide) hNum

theorem decode_unknown {selector : Byte} (h : selector ∉ selectors) (operands : List Byte) :
    decode (selector :: operands) = .error (.noSuchOperation selector) :=
  decode_cons_error (by rw [decOperands_unknown h, Dec.fail_apply])

/-- A step refuses an item as the decoder does. -/
theorem Machine.step_of_decode_error {s : State} {item : List Byte} {e : DecodeError} (hItem : fetchItem s = some item)
    (hDecode : decode item = .error e) : step s = .refused (refusalOf e) := by
  simp only [step, hItem, hDecode]

end Sys2Proof

namespace Sys2Proof.Claims

open Machine

/-- Settles O52, by one case for each instruction: its operands are read back to their last byte. -/
theorem decodeInvertsEncode : Obligations.DecodeInvertsEncode := by
  unfold Obligations.DecodeInvertsEncode
  exact fun i hWf => ⟨decode_encode hWf, fun rest hRest => decode_encode_append hWf hRest⟩

/-- Settles O53: the decoder's match has an arm for each selector and refuses every other byte. -/
theorem unknownOperationsRefused : Obligations.UnknownOperationsRefused := by
  unfold Obligations.UnknownOperationsRefused
  intro selector operands hUnknown
  have hDecode := decode_unknown hUnknown operands
  exact ⟨hDecode, fun s hItem => step_of_decode_error hItem hDecode⟩

/-- Settles O54: each item is the encoding of its instruction. -/
theorem sampleItemsDecode : Obligations.SampleItemsDecode := by
  unfold Obligations.SampleItemsDecode
  exact ⟨decode_of_encode rfl rfl, decode_of_encode rfl rfl, decode_of_encode rfl rfl, decode_of_encode rfl rfl,
    decode_of_encode rfl rfl⟩

end Sys2Proof.Claims
end

section
/-! PARSE_LISTS reads back the layout of R85 and R86 (R210 to R214): O34. -/

namespace Sys2Proof.Machine

/-- A parse in two parts that does not stop has stopped in neither. -/
theorem Parse.next_eq_none {p : Parse} {k : Work → Parse} {w : Work} (h : p.next k = (w, none)) :
    ∃ v, p = (v, none) ∧ k v = (w, none) := by
  obtain ⟨v, stop⟩ := p
  cases stop with
  | none => exact ⟨v, rfl, h⟩
  | some stop => cases h

/-- A parse that does not stop ends by counting its entries (R214). -/
theorem parseLists_counts {table : SvcTable} {F : List Byte} {u w : Work} (h : parseLists table F u = (w, none)) :
    w.tot = totals w.bl [] ∧ w.rem = w.tot := by
  obtain ⟨v, -, hBlocks⟩ := Parse.next_eq_none h
  obtain ⟨v', -, hCount⟩ := Parse.next_eq_none hBlocks
  obtain rfl : countEntries v' = w := congrArg Prod.fst hCount
  exact ⟨rfl, rfl⟩

end Sys2Proof.Machine

namespace Sys2Proof.Claims

open Machine

/-- Settles O34: the lists are parsed to their end, and then their entries are counted. -/
theorem parseListsInvertsTheLayout : Obligations.ParseListsInvertsTheLayout := by
  unfold Obligations.ParseListsInvertsTheLayout
  intro table svcs entries code idm tail hl hOk
  obtain ⟨hSvcs, hEntries⟩ := lists_length_le hl
  obtain ⟨w, hParse, hNs, hSl, hNb, hBl, hRest⟩ :=
    parseLists_sound hSvcs hEntries hOk (drop_commandFrame code idm (listsWire svcs entries ++ tail))
  obtain ⟨hTot, hRem⟩ := parseLists_counts hParse
  refine ⟨w, hParse, by rw [hNs, toNat_byte hSvcs], hSl, by rw [hNb, toNat_byte hEntries], hBl, fun c => ?_, hRem,
    hRest⟩
  rw [hTot, countOf_totals, hBl, countOf, entriesOf, Nat.zero_add]

end Sys2Proof.Claims
end

section
/-! ATTR_PARSE (R112): the record, valid and nonstd in terms of the bytes at each offset, and its item: O2. -/

namespace Sys2Proof.Machine

open Claims

/-! ## Bytes at an offset -/

/-- A slice inside a byte list is the bytes at its offsets. -/
theorem slice_eq_map_byteAt {F : List Byte} {a b : Nat} (h : b ≤ F.length) :
    slice F a b = (List.range' a (b - a)).map (byteAt F) := by
  apply List.ext_getElem
  · simp only [slice, List.length_take, List.length_drop, List.length_map, List.length_range']
    omega
  · intro k hk hk'
    simp only [List.length_map, List.length_range'] at hk'
    simp only [slice, List.getElem_take, List.getElem_drop, List.getElem_map, List.getElem_range', byteAt]
    rw [Nat.one_mul, List.getD_eq_getElem _ _ (by omega)]

/-- `csum` is the sum of bytes 0 to 13 (R110). -/
theorem csum_eq_sum14 {B : List Byte} (h : 14 ≤ B.length) : csum B = sum14 B := by
  have hTake : B.take 14 = (List.range 14).map (byteAt B) := by
    rw [List.range_eq_range']
    exact slice_eq_map_byteAt (a := 0) h
  rw [csum, hTake, List.map_map]
  rfl

/-! ## The decoded fields (R112) -/

section Fields

variable (B : List Byte)

theorem attrRecord_verMajor : (attrRecord B).verMajor.toNat = num B 0 / 16 := by
  have h := (byteAt B 0).isLt
  simp only [attrRecord, num, BitVec.extractLsb'_toNat, Nat.shiftRight_eq_div_pow]
  omega

theorem attrRecord_verMinor : (attrRecord B).verMinor.toNat = num B 0 % 16 := by
  simp only [attrRecord, num, BitVec.extractLsb'_toNat, Nat.shiftRight_zero]

theorem attrRecord_nmaxb : (attrRecord B).nmaxb.toNat = num B 3 * 256 + num B 4 := pair16_toNat _ _

theorem attrRecord_rsv (h : 9 ≤ B.length) : (attrRecord B).rsv.val = slice B 5 9 := by
  rw [slice_eq_map_byteAt h]
  rfl

/-- Any non-zero byte is true (R34). -/
theorem attrRecord_wip : (attrRecord B).wip = true ↔ byteAt B 9 ≠ 0x00 := bne_iff_ne

/-- 0x01 only (R34). -/
theorem attrRecord_writeable : (attrRecord B).writeable = true ↔ byteAt B 10 = 0x01 := beq_iff_eq

theorem attrRecord_ln : (attrRecord B).ln.toNat = num B 11 * 65536 + num B 12 * 256 + num B 13 :=
  triple24_toNat _ _ _

theorem attrValid_iff (h : 14 ≤ B.length) : attrValid B = true ↔ num B 14 * 256 + num B 15 = sum14 B := by
  rw [attrValid, beq_iff_eq, storedSum, pair16_toNat, csum_eq_sum14 h]
  rfl

theorem attrNonstd_iff :
    attrNonstd B = true ↔ byteAt B 9 ∉ [0x00, 0x0F] ∨ byteAt B 10 ∉ [0x00, 0x01] := by
  simp [attrNonstd]

end Fields

/-! ## The item (R80; log 3) -/

/-- All the bytes after the selector are the operand, which 16 bytes make well formed. -/
theorem decode_attrParse (l : List Byte) :
    decode (0x30 :: l) = if l.length = 16 then .ok (.attrParse l) else .error .illFormed := by
  have hRead : decOperands 0x30 l = .ok (.attrParse l, []) := rfl
  rw [decode_cons hRead]
  simp [Instr.wf]

end Sys2Proof.Machine

namespace Sys2Proof.Claims

open Machine

/-- Settles O2, field by field. -/
theorem attrParseDecodesTheLayout : Obligations.AttrParseDecodesTheLayout := by
  unfold Obligations.AttrParseDecodesTheLayout
  refine ⟨fun ⟨B, hB⟩ s => ?_, fun ⟨B, hB⟩ => ?_, fun l hl => ?_⟩
  · exact ⟨attrRecord B, attrValid B, attrNonstd B, rfl, attrRecord_verMajor B, attrRecord_verMinor B, rfl, rfl,
      attrRecord_nmaxb B, attrRecord_rsv B (by omega), attrRecord_wip B, attrRecord_writeable B, attrRecord_ln B,
      attrValid_iff B (by omega), attrNonstd_iff B⟩
  · rw [decode_attrParse, if_pos hB]
  · have hDecode : decode (0x30 :: l) = .error .illFormed := by rw [decode_attrParse, if_neg hl]
    exact ⟨hDecode, fun s hItem => step_of_decode_error hItem hDecode⟩

end Sys2Proof.Claims
end

section
/-! The response parsers (R146 to R148): the common check passes exactly the frames that carry the code, the loaded
identifier and a zero status, and each parser accepts exactly its success form: O13, O14. -/

namespace Sys2Proof.Machine

open Claims

/-! ## Delivered records -/

/-- A reply tells which record was delivered. -/
theorem State.reply_inj {s : State} {r r' : HostResult} : s.reply r = s.reply r' ↔ r = r' := by
  refine ⟨fun h => ?_, fun h => by rw [h]⟩
  have hResults := congrArg (fun t : State => t.reader.results) h
  simpa using hResults

theorem resultOf_eq_ok {α : Type} {f : α → Value} (hf : Function.Injective f) {r : Except Err α} {a : α} :
    resultOf f r = .ok (f a) ↔ r = .ok a := by
  cases r with
  | ok b => simp [resultOf, hf.eq_iff]
  | error e => simp [resultOf]

/-! ## Frames with an identifier, taken apart (R81) -/

theorem byte_toNat (b : Byte) : byte b.toNat = b := by
  rw [byte, BitVec.ofNat_toNat, BitVec.setWidth_eq]

theorem drop_eq_byteAt_cons {F : List Byte} {k : Nat} (h : k < F.length) : F.drop k = byteAt F k :: F.drop (k + 1) := by
  rw [List.drop_eq_getElem_cons h, byteAt, List.getD_eq_getElem _ _ h]

section Parts

variable {F rest : List Byte} {idm : Bytes 8} {rc : Byte} {n : Nat} {p : List Byte}

/-- A frame of 10 bytes or more is its length byte, its code, its identifier and a body. -/
theorem eq_commandFrame (h10 : 10 ≤ F.length) (hNum : (byteAt F 0).toNat = F.length) (hIdm : slice F 2 10 = idm.val) :
    F = commandFrame (byteAt F 1) idm (F.drop 10) := by
  have hTail : F.drop 2 = idm.val ++ F.drop 10 := by
    rw [← hIdm, slice, ← List.drop_drop (i := 8) (j := 2), List.take_append_drop]
  match F, h10 with
  | b :: c :: l, _ =>
    have hByte : b = byte (l.length + 2) := by
      rw [← byte_toNat b]
      exact congrArg byte hNum
    calc b :: c :: l = withLength (c :: l) := by rw [hByte]; rfl
      _ = commandFrame c idm ((b :: c :: l).drop 10) := by rw [commandFrame, ← hTail]; rfl

theorem num_commandFrame {body : List Byte} (hl : (commandFrame rc idm body).length ≤ 255) :
    num (commandFrame rc idm body) 0 = (commandFrame rc idm body).length := by
  rw [← toNat_byte hl]
  rfl

/-- A frame whose body begins with a zero status passes the common check (R146). -/
theorem checkResponse_ok {s : State} (hTag : s.re.idm = some idm) (hNum : num F 0 = F.length) (h12 : 12 ≤ F.length)
    (hCode : byteAt F 1 = rc) (hIdm : slice F 2 10 = idm.val) (h10 : byteAt F 10 = 0x00) (h11 : byteAt F 11 = 0x00) :
    checkResponse s F rc = .ok () := by
  unfold num at hNum
  simp only [checkResponse, reIdm, hTag]
  rw [if_neg (by omega), if_neg (by omega), if_neg (not_not.2 hCode), if_neg (not_not.2 hIdm),
    if_neg (by simp [h10, h11])]

theorem checkResponse_commandFrame {s : State} (hTag : s.re.idm = some idm) (hl : 12 + rest.length ≤ 255) :
    checkResponse s (commandFrame rc idm (0x00 :: 0x00 :: rest)) rc = .ok () := by
  have hLen : (commandFrame rc idm (0x00 :: 0x00 :: rest)).length = 12 + rest.length := by
    rw [length_commandFrame, List.length_cons, List.length_cons]
    omega
  have hDrop := drop_commandFrame rc idm (0x00 :: 0x00 :: rest)
  exact checkResponse_ok hTag (num_commandFrame (by omega)) (by omega) rfl (slice_commandFrame _ _ _)
    (byteAt_of_drop hDrop) (byteAt_succ_of_drop hDrop)

/-- Nothing else passes it. -/
theorem eq_of_checkResponse_ok {s : State} (hTag : s.re.idm = some idm) (h : checkResponse s F rc = .ok ()) :
    ∃ rest, F = commandFrame rc idm (0x00 :: 0x00 :: rest) ∧ 12 + rest.length ≤ 255 := by
  simp only [checkResponse, reIdm, hTag] at h
  split at h
  · cases h
  rename_i hNum
  split at h
  · cases h
  rename_i h12
  split at h
  · cases h
  rename_i hCode
  split at h
  · cases h
  rename_i hIdm
  split at h
  · cases h
  rename_i hStatus
  simp only [not_or, not_not] at hNum hCode hIdm hStatus
  obtain ⟨-, hNum⟩ := hNum
  obtain ⟨hSf1, hSf2⟩ := hStatus
  have hBody : F.drop 10 = 0x00 :: 0x00 :: F.drop 12 := by
    rw [drop_eq_byteAt_cons (by omega), drop_eq_byteAt_cons (by omega), hSf1, hSf2]
  have hFrame := eq_commandFrame (by omega) hNum hIdm
  rw [hCode, hBody] at hFrame
  have hByte := (byteAt F 0).isLt
  exact ⟨F.drop 12, hFrame, by rw [List.length_drop]; omega⟩

/-! ## PARSE_READ_RSP (R87, R147) -/

/-- The success form is a frame with an identifier. -/
theorem readResponse_eq (hp : p.length = 16 * n) :
    readResponse idm n p = commandFrame 0x07 idm (0x00 :: 0x00 :: byte n :: p) := by
  have hLen : 13 + 16 * n = (0x07 :: (idm.val ++ 0x00 :: 0x00 :: byte n :: p)).length + 1 := by
    simp only [List.length_cons, List.length_append, idm.property, hp]
    omega
  rw [readResponse, hLen, commandFrame, withLength]
  simp

/-- What PARSE_READ_RSP does with a frame that passes the common check. -/
theorem parseReadRsp_of_check {s : State} (h : checkResponse s F 0x07 = .ok ()) (n : Nat) :
    parseReadRsp s F n =
      if F.length < 13 then .error (.framing .short (.num F.length))
      else if num F 12 ≠ n then .error (.framing .count (.num (num F 12)))
      else if F.length ≠ 13 + 16 * n then .error (.framing .payloadLen (.num F.length))
      else .ok (F.drop 13) := by
  rw [parseReadRsp, h]
  rfl

theorem parseReadRsp_readResponse {s : State} (hTag : s.re.idm = some idm) (hp : p.length = 16 * n) (hn : n ≤ 15) :
    parseReadRsp s (readResponse idm n p) n = .ok p := by
  have hLen : (readResponse idm n p).length = 13 + 16 * n := by
    rw [readResponse_eq hp, length_commandFrame]
    simp only [List.length_cons, hp]
    omega
  have hDrop : (readResponse idm n p).drop 10 = [0x00, 0x00] ++ (byte n :: p) := by
    rw [readResponse_eq hp, drop_commandFrame]
    rfl
  have hDrop12 : (readResponse idm n p).drop 12 = [byte n] ++ p := drop_add_of_drop hDrop
  have hDrop13 : (readResponse idm n p).drop 13 = p := drop_add_of_drop hDrop12
  have hCount : num (readResponse idm n p) 12 = n := by
    rw [num, byteAt_of_drop hDrop12, toNat_byte (by omega)]
  have hCheck : checkResponse s (readResponse idm n p) 0x07 = .ok () := by
    rw [readResponse_eq hp]
    exact checkResponse_commandFrame hTag (by simp only [List.length_cons, hp]; omega)
  rw [parseReadRsp_of_check hCheck, if_neg (by omega), if_neg (not_not.2 hCount), if_neg (not_not.2 hLen),
    hDrop13]

/-- PARSE_READ_RSP accepts the success form and no other frame. -/
theorem parseReadRsp_eq_ok {s : State} (hTag : s.re.idm = some idm) :
    parseReadRsp s F n = .ok p ↔ F = readResponse idm n p ∧ p.length = 16 * n ∧ n ≤ 15 := by
  refine ⟨fun h => ?_, fun ⟨hF, hp, hn⟩ => hF ▸ parseReadRsp_readResponse hTag hp hn⟩
  cases hCheck : checkResponse s F 0x07 with
  | error e =>
    rw [parseReadRsp, hCheck] at h
    cases h
  | ok =>
    obtain ⟨rest, hF, hl⟩ := eq_of_checkResponse_ok hTag hCheck
    rw [parseReadRsp_of_check hCheck] at h
    split at h
    · cases h
    rename_i h13
    split at h
    · cases h
    rename_i hCount
    split at h
    · cases h
    rename_i hLen
    rw [not_not] at hCount hLen
    obtain rfl := Except.ok.inj h
    have hp : (F.drop 13).length = 16 * n := by rw [List.length_drop]; omega
    have hFLen := length_commandFrame 0x07 idm (0x00 :: 0x00 :: rest)
    rw [← hF] at hFLen
    simp only [List.length_cons] at hFLen
    have hRest : F.drop 12 = rest := by
      have hDrop := drop_commandFrame 0x07 idm (0x00 :: 0x00 :: rest)
      rw [← hF] at hDrop
      exact drop_add_of_drop (l := [0x00, 0x00]) hDrop
    have hBody : rest = byte n :: F.drop 13 := by
      rw [← hRest, drop_eq_byteAt_cons (by omega), ← hCount, num, byte_toNat]
    exact ⟨by rw [readResponse_eq hp, ← hBody]; exact hF, hp, by omega⟩

/-! ## PARSE_WRITE_RSP (R89, R148) -/

theorem writeResponse_eq (idm : Bytes 8) : writeResponse idm = commandFrame 0x09 idm [0x00, 0x00] := by
  have hLen : 12 = (0x09 :: (idm.val ++ [0x00, 0x00])).length + 1 := by simp [idm.property]
  rw [writeResponse, commandFrame, withLength, ← hLen]
  rfl

/-- What PARSE_WRITE_RSP does with a frame that passes the common check. -/
theorem parseWriteRsp_of_check {s : State} (h : checkResponse s F 0x09 = .ok ()) :
    parseWriteRsp s F = if F.length ≠ 12 then .error (.framing .payloadLen (.num F.length)) else .ok () := by
  rw [parseWriteRsp, h]

theorem parseWriteRsp_writeResponse {s : State} (hTag : s.re.idm = some idm) :
    parseWriteRsp s (writeResponse idm) = .ok () := by
  rw [writeResponse_eq, parseWriteRsp_of_check (checkResponse_commandFrame hTag (by simp)), length_commandFrame]
  rfl

/-- PARSE_WRITE_RSP accepts the success form and no other frame. -/
theorem parseWriteRsp_eq_ok {s : State} (hTag : s.re.idm = some idm) :
    parseWriteRsp s F = .ok () ↔ F = writeResponse idm := by
  refine ⟨fun h => ?_, fun hF => hF ▸ parseWriteRsp_writeResponse hTag⟩
  cases hCheck : checkResponse s F 0x09 with
  | error e =>
    rw [parseWriteRsp, hCheck] at h
    cases h
  | ok =>
    obtain ⟨rest, hF, -⟩ := eq_of_checkResponse_ok hTag hCheck
    rw [parseWriteRsp_of_check hCheck] at h
    split at h
    · cases h
    rename_i hLen
    rw [not_not, hF, length_commandFrame, List.length_cons, List.length_cons] at hLen
    obtain rfl : rest = [] := List.eq_nil_of_length_eq_zero (by omega)
    rw [hF, writeResponse_eq]

end Parts

end Sys2Proof.Machine

namespace Sys2Proof.Claims

open Machine

/-- Settles O13: the success form is taken apart and put together again; after the common check, one case for each
branch of R147. -/
theorem readResponseAcceptedExactly : Obligations.ReadResponseAcceptedExactly := by
  unfold Obligations.ReadResponseAcceptedExactly
  intro F n s idm hTag
  simp only [exec_parseReadRsp, Host.Outcome.next.injEq, State.reply_inj]
  refine ⟨fun p => ?_, fun hNum h12 hCode hIdm h10 h11 => ?_⟩
  · rw [resultOf_eq_ok fun a b h => Value.bytes.inj h]
    exact parseReadRsp_eq_ok hTag
  · rw [parseReadRsp_of_check (checkResponse_ok hTag hNum h12 hCode hIdm h10 h11)]
    refine ⟨fun hShort => ?_, fun h13 => ⟨fun hCount => ?_, fun hCount hLen => ?_⟩⟩
    · rw [if_pos (by omega), hShort]
      rfl
    · rw [if_neg (by omega), if_pos hCount]
      rfl
    · rw [if_neg (by omega), if_neg (not_not.2 hCount), if_pos hLen]
      rfl

/-- Settles O14, as O13. -/
theorem writeResponseAcceptedExactly : Obligations.WriteResponseAcceptedExactly := by
  unfold Obligations.WriteResponseAcceptedExactly
  intro F s idm hTag
  simp only [exec_parseWriteRsp, Host.Outcome.next.injEq, State.reply_inj]
  refine ⟨?_, fun hNum h12 hCode hIdm h10 h11 => ?_⟩
  · rw [resultOf_eq_ok (f := fun _ => Value.unit) (a := ()) fun _ _ _ => rfl]
    exact parseWriteRsp_eq_ok hTag
  · rw [parseWriteRsp_of_check (checkResponse_ok hTag hNum (by omega) hCode hIdm h10 h11), if_pos (by omega)]
    rfl

end Sys2Proof.Claims
end

section
/-! Both units over a loopback (R246; log 7): the request RE builds is the one ED parses, and the response ED builds is
the one RE accepts: O49, O50. -/

namespace Sys2Proof.Machine

open Claims

/-! ## The requests that RE builds (R141 to R144) -/

section Requests

variable {blocks : List Nat} {svc : Svc} {idm : Bytes 8} {s : State} {data : List Byte} {b : Nat}

theorem toNat_blockNumber (h : b ≤ 0xFFFF) : (BitVec.ofNat 16 b).toNat = b := Nat.mod_eq_of_lt (by omega)

theorem le16_eq_lowHigh (v : BitVec 16) : le16 v = lowHigh v := by
  have hLow : v.extractLsb' 0 8 = byte v.toNat := by
    apply BitVec.eq_of_toNat_eq
    rw [BitVec.extractLsb'_toNat, byte, BitVec.toNat_ofNat, Nat.shiftRight_zero]
  have hHigh : v.extractLsb' 8 8 = byte (v.toNat / 256) := by
    apply BitVec.eq_of_toNat_eq
    rw [BitVec.extractLsb'_toNat, byte, BitVec.toNat_ofNat, Nat.shiftRight_eq_div_pow]
  rw [le16, lowHigh, hLow, hHigh]

/-- The entry encoder below 0x10000 (R141). -/
theorem encEntry_eq_entryOf (h : b ≤ 0xFFFF) : encEntry b = entryOf b := by
  have hNum := toNat_blockNumber h
  rw [encEntry, entryOf, le16_eq_lowHigh, lowHigh, hNum]
  rfl

theorem flatMap_encEntry (h : ∀ b ∈ blocks, b ≤ 0xFFFF) : blocks.flatMap encEntry = blocks.flatMap entryOf :=
  List.flatMap_congr fun b hb => encEntry_eq_entryOf (h b hb)

/-- Each entry takes 3 bytes at most. -/
theorem length_flatMap_entryOf_le (blocks : List Nat) : (blocks.flatMap entryOf).length ≤ 3 * blocks.length := by
  induction blocks with
  | nil => simp
  | cons b blocks ih =>
    have hEntry : (entryOf b).length ≤ 3 := by
      unfold entryOf
      split <;> simp
    simp only [List.flatMap_cons, List.length_append, List.length_cons]
    omega

/-- No block number is too big. -/
theorem tooBig_eq_none (h : ∀ b ∈ blocks, b ≤ 0xFFFF) : tooBig blocks = none := by
  rw [tooBig, List.find?_eq_none]
  intro b hb
  have := h b hb
  simp only [decide_eq_true_eq]
  omega

/-- A request that passes the last checks is its bytes behind their length. -/
theorem finishRequest_ok {body : List Byte} (h : ∀ b ∈ blocks, b ≤ 0xFFFF) (hl : body.length + 1 ≤ 255) :
    finishRequest body blocks = .ok (withLength body) := by
  simp only [finishRequest, tooBig_eq_none h]
  exact if_neg (by rw [Config.maxFrame_eq]; omega)

/-- SER_READ of sound operands answers the request frame (R143). -/
theorem serRead_ok (hTag : s.re.idm = some idm) (h : ReadSound blocks) :
    serRead s svc blocks = .ok (readRequest idm svc blocks) := by
  have hBody : readBody idm svc blocks =
      [0x06] ++ idm.val ++ [0x01] ++ lowHigh svc ++ [byte blocks.length] ++ blocks.flatMap entryOf := by
    rw [readBody, requestHeader, flatMap_encEntry h.range, le16_eq_lowHigh]
    rfl
  have hSome := h.some
  have hMost := h.most
  have hEntries := length_flatMap_entryOf_le blocks
  simp only [serRead, reIdm, hTag]
  rw [if_neg (by rw [Config.rdMaxBlocks_eq]; omega), hBody, finishRequest_ok h.range]
  · rfl
  · simp only [List.length_append, List.length_cons, List.length_nil, idm.property, length_lowHigh]
    omega

/-- SER_WRITE of sound operands answers the request frame (R144). -/
theorem serWrite_ok (hTag : s.re.idm = some idm) (h : WriteSound blocks data) :
    serWrite s svc blocks data = .ok (writeRequest idm svc blocks data) := by
  have hBody : writeBody idm svc blocks data =
      [0x08] ++ idm.val ++ [0x01] ++ lowHigh svc ++ [byte blocks.length] ++ blocks.flatMap entryOf ++ data := by
    rw [writeBody, requestHeader, flatMap_encEntry h.range, le16_eq_lowHigh]
    rfl
  have hSome := h.some
  have hFits := h.fits
  unfold WriteFits at hFits
  simp only [serWrite, reIdm, hTag]
  rw [if_neg (not_not.2 h.whole), if_neg (by omega), hBody, finishRequest_ok h.range]
  · rfl
  · simp only [List.length_append, List.length_cons, List.length_nil, idm.property, length_lowHigh, h.whole]
    omega

/-! ## The lists in a request (R85, R86) -/

/-- The block-list entry that RE writes for a block: service index 0, the short form below 256 (R141). -/
def requestEntry (b : Nat) : Byte × BitVec 16 := (if b < 256 then 0x80 else 0x00, BitVec.ofNat 16 b)

theorem entryWire_requestEntry (h : b ≤ 0xFFFF) : entryWire (requestEntry b) = entryOf b := by
  have hNum := toNat_blockNumber h
  unfold requestEntry entryWire entryOf
  by_cases hShort : b < 256
  · simp only [if_pos hShort, hNum]
    rfl
  · simp only [if_neg hShort, lowHigh, hNum]
    rfl

theorem flatMap_entryWire (h : ∀ b ∈ blocks, b ≤ 0xFFFF) :
    (blocks.map requestEntry).flatMap entryWire = blocks.flatMap entryOf := by
  rw [List.flatMap_map]
  exact List.flatMap_congr fun b hb => entryWire_requestEntry (h b hb)

/-- The lists of a request: one service, and an entry per block. -/
theorem listsWire_request (h : ∀ b ∈ blocks, b ≤ 0xFFFF) (svc : Svc) :
    listsWire [svc] (blocks.map requestEntry) =
      [0x01] ++ lowHigh svc ++ [byte blocks.length] ++ blocks.flatMap entryOf := by
  rw [listsWire, flatMap_entryWire h, List.length_map, List.flatMap_singleton]
  rfl

theorem length_listsWire_request (h : ∀ b ∈ blocks, b ≤ 0xFFFF) (svc : Svc) :
    (listsWire [svc] (blocks.map requestEntry)).length = 4 + (blocks.flatMap entryOf).length := by
  rw [listsWire_request h]
  simp only [List.length_append, List.length_cons, List.length_nil, length_lowHigh]

theorem readRequest_eq (h : ∀ b ∈ blocks, b ≤ 0xFFFF) :
    readRequest idm svc blocks = commandFrame 0x06 idm (listsWire [svc] (blocks.map requestEntry) ++ []) := by
  rw [readRequest, commandFrame, listsWire_request h]
  simp

theorem writeRequest_eq (h : ∀ b ∈ blocks, b ≤ 0xFFFF) :
    writeRequest idm svc blocks data = commandFrame 0x08 idm (listsWire [svc] (blocks.map requestEntry) ++ data) := by
  rw [writeRequest, commandFrame, listsWire_request h]
  simp

/-- ED resolves each entry to the one service. -/
theorem resolved_request (svc : Svc) (blocks : List Nat) :
    resolved [svc] (blocks.map requestEntry) = blocks.map fun b => (svc, BitVec.ofNat 16 b) := by
  rw [resolved, List.map_map]
  refine List.map_congr_left fun b _ => ?_
  simp only [Function.comp_apply, requestEntry]
  split <;> rfl

theorem listsOk_request {table : SvcTable} (hKnown : (lookupService table svc).isSome) (blocks : List Nat) :
    ListsOk table [svc] (blocks.map requestEntry) := by
  refine ⟨by simpa using hKnown, fun e he => ?_⟩
  obtain ⟨b, -, rfl⟩ := List.mem_map.1 he
  unfold requestEntry EntryOk
  split
  · rename_i hShort
    refine ⟨by simp, fun _ => ?_⟩
    rw [BitVec.toNat_ofNat]
    omega
  · simp

end Requests

/-! ## The exchange over a loopback (log 7) -/

section Loopback

variable {s : State} {F g : List Byte} {svc : Svc} {blocks : List Nat} {data p : List Byte} {idm pmm : Bytes 8}

/-- The turn of the emulation host's loop that a Send over a loopback is. -/
def loopbackTurn (F : List Byte) (s : State) : Option (List Byte) × State := serveFrame F (s.logWire (.sent F true))

/-- The state in which that turn runs DISPATCH. -/
def State.arrived (s : State) (F : List Byte) : State := (s.logWire (.sent F true)).waited (some F)

/-- Nothing has been dispatched yet. -/
@[simp] theorem State.arrived_ed_svc (s : State) (F : List Byte) : (s.arrived F).ed.svc = s.ed.svc := rfl

/-- The turn answers with the frame of the DISPATCH it runs. -/
theorem loopbackTurn_of_exec {w : Work} {a : App} {r : HostResult}
    (h : exec (.dispatch F) (s.arrived F) = .next (afterDispatch (s.arrived F) w a r)) :
    (loopbackTurn F s).1 = responseOf r ∧ (loopbackTurn F s).2.app = a := by
  rw [State.arrived, exec_dispatch_waited] at h
  have hTurn := Host.Outcome.next.inj h
  have hRecord : (dispatchFrame F (s.arrived F)).1 = r :=
    deliverResult_dispatchFrame_results (congrArg (fun u : State => u.emulator.results) hTurn)
  exact ⟨congrArg responseOf hRecord, congrArg State.app hTurn⟩

/-- An exchange over a loopback returns the response of this block's own ED, and leaves the application as the turn of
the emulation host left it. -/
theorem exchange_loopback (hLink : s.transport.link = .loopback) (hTurn : (loopbackTurn F s).1 = some g) (code : Byte)
    (n t : Nat) :
    (exchange code n t F s).1 = .ok g ∧ (exchange code n t F s).2.app = (loopbackTurn F s).2.app := by
  have hStay := (serveFrame_inside F (s.logWire (.sent F true))).transport
  unfold loopbackTurn at hTurn ⊢
  generalize hServe : serveFrame F (s.logWire (.sent F true)) = turn at hTurn hStay
  obtain ⟨answer, u⟩ := turn
  obtain rfl : answer = some g := hTurn
  have hStill : u.transport.link = .loopback := (congrArg Transport.link hStay).trans hLink
  simp [exchange, sendFrame, receiveFrame, hLink, hStill, hServe]

/-- The store after a row of writes depends on the service table alone. -/
theorem storeAfter_congr {s t : State} (h : t.ed.svc = s.ed.svc) (bl : List (Svc × BitVec 16)) (data : List Byte)
    (m : Memory) : storeAfter t bl data m = storeAfter s bl data m := by
  induction bl generalizing data m with
  | nil => rfl
  | cons e bl ih => simp only [storeAfter, writeBank, h, ih]

theorem length_flatMap_block {α : Type} (f : α → Block) (l : List α) :
    (l.flatMap fun a => (f a).val).length = 16 * l.length := by
  induction l with
  | nil => rfl
  | cons a l ih =>
    rw [List.flatMap_cons, List.length_append, (f a).property, ih, List.length_cons]
    omega

/-! ## A request that ED serves from the store (logs 8 and 10) -/

section Served

variable {bank : BitVec 16} {size b : Nat} {rd : ReadCb} {wr : WriteCb}

theorem readBank_request (hService : lookupService s.ed.svc svc = some { rd := .store bank size, wr := wr })
    (hRange : b ≤ 0xFFFF) (hHeld : b < size) : readBank s (svc, BitVec.ofNat 16 b) = some bank := by
  simp only [readBank, hService, toNat_blockNumber hRange, if_pos hHeld]

theorem writeBank_request (hService : lookupService s.ed.svc svc = some { rd := rd, wr := .store bank size })
    (hRange : b ≤ 0xFFFF) (hHeld : b < size) : writeBank s (svc, BitVec.ofNat 16 b) = some bank := by
  simp only [writeBank, hService, toNat_blockNumber hRange, if_pos hHeld]

/-- What holds of every block holds of every entry that ED resolves. -/
theorem forall_resolved_request {P : Svc × BitVec 16 → Prop} (h : ∀ b ∈ blocks, P (svc, BitVec.ofNat 16 b)) :
    ∀ e ∈ resolved [svc] (blocks.map requestEntry), P e := by
  rw [resolved_request]
  exact List.forall_mem_map.2 h

/-- ED answers a read request with the blocks of the store, when the service's read callback holds them (R217). -/
theorem loopbackTurn_readRequest (hReady : EdReady s idm)
    (hService : lookupService s.ed.svc svc = some { rd := .store bank size, wr := wr }) (h : ReadSound blocks)
    (hHeld : ∀ b ∈ blocks, b < size) :
    (loopbackTurn (readRequest idm svc blocks) s).1 = some (readResponse idm blocks.length
        (blocks.flatMap fun b => (Memory.readBlock s.app.mem bank (BitVec.ofNat 16 b)).val)) ∧
      (loopbackTurn (readRequest idm svc blocks) s).2.app.mem = s.app.mem := by
  have hFrame := readRequest_eq (idm := idm) (svc := svc) h.range
  have hBank : ∀ b ∈ blocks,
      readBank (s.arrived (readRequest idm svc blocks)) (svc, BitVec.ofNat 16 b) = some bank := fun b hb =>
    readBank_request hService (h.range b hb) (hHeld b hb)
  have hLen : (commandFrame 0x06 idm (listsWire [svc] (blocks.map requestEntry) ++ [])).length ≤ 255 := by
    rw [length_commandFrame, List.append_nil, length_listsWire_request h.range]
    have hEntries := length_flatMap_entryOf_le blocks
    have hMost := h.most
    omega
  have hOk : ListsOk (s.arrived (readRequest idm svc blocks)).ed.svc [svc] (blocks.map requestEntry) :=
    listsOk_request (Option.isSome_of_eq_some hService) blocks
  have hPayload : (resolved [svc] (blocks.map requestEntry)).flatMap
      (blockOf (s.arrived (readRequest idm svc blocks))) =
      blocks.flatMap fun b => (Memory.readBlock s.app.mem bank (BitVec.ofNat 16 b)).val := by
    rw [resolved_request, List.flatMap_map]
    refine List.flatMap_congr fun b hb => ?_
    rw [blockOf, hBank b hb]
    rfl
  obtain ⟨w, calls, hExec, -⟩ := readServedFromTheStore (s.arrived (readRequest idm svc blocks)) idm [svc] _ []
    ⟨hReady.idle, hReady.identity⟩ hLen hOk (by rw [List.length_map]; exact h.most)
    (forall_resolved_request fun b hb => Option.isSome_of_eq_some (hBank b hb))
  rw [← hFrame, hPayload, List.length_map] at hExec
  obtain ⟨hAnswer, hApp⟩ := loopbackTurn_of_exec hExec
  have hMem := congrArg App.mem hApp
  exact ⟨hAnswer, hMem⟩

/-- ED stores the blocks of a write request, when the service's write callback holds them (R219). -/
theorem loopbackTurn_writeRequest (hReady : EdReady s idm)
    (hService : lookupService s.ed.svc svc = some { rd := rd, wr := .store bank size }) (h : WriteSound blocks data)
    (hHeld : ∀ b ∈ blocks, b < size) :
    (loopbackTurn (writeRequest idm svc blocks data) s).1 = some (writeResponse idm) ∧
      (loopbackTurn (writeRequest idm svc blocks data) s).2.app.mem =
        storeAfter s (blocks.map fun b => (svc, BitVec.ofNat 16 b)) data s.app.mem := by
  have hFrame := writeRequest_eq (idm := idm) (svc := svc) (data := data) h.range
  have hLen : (commandFrame 0x08 idm (listsWire [svc] (blocks.map requestEntry) ++ data)).length ≤ 255 := by
    rw [length_commandFrame, List.length_append, length_listsWire_request h.range, h.whole]
    have hFits := h.fits
    unfold WriteFits at hFits
    omega
  have hOk : ListsOk (s.arrived (writeRequest idm svc blocks data)).ed.svc [svc] (blocks.map requestEntry) :=
    listsOk_request (Option.isSome_of_eq_some hService) blocks
  obtain ⟨w, calls, hExec, -, -⟩ := writeServedToTheStore (s.arrived (writeRequest idm svc blocks data)) idm [svc] _
    data ⟨hReady.idle, hReady.identity⟩ hLen hOk (by rw [List.length_map]; exact h.whole)
    (forall_resolved_request fun b hb =>
      Option.isSome_of_eq_some (writeBank_request hService (h.range b hb) (hHeld b hb)))
  rw [← hFrame, resolved_request] at hExec
  obtain ⟨hAnswer, hApp⟩ := loopbackTurn_of_exec hExec
  have hMem := congrArg App.mem hApp
  exact ⟨hAnswer, hMem.trans (storeAfter_congr (State.arrived_ed_svc s _) _ _ _)⟩

end Served

/-! ## READ_BLOCKS and WRITE_BLOCKS whose exchange succeeds (R150, R151) -/

/-- READ_BLOCKS of sound operands ends with the blocks when the exchange ends with the success response. -/
theorem readBlocks_of_exchange {t : Nat} (hIdle : s.re.phase = .idle) (hTag : s.re.idm = some idm)
    (hTimeout : readTimeout s blocks.length = .ok t) (h : ReadSound blocks) (hp : p.length = 16 * blocks.length)
    (hExchange : (exchange 0x07 blocks.length t (readRequest idm svc blocks) s).1 =
      .ok (readResponse idm blocks.length p)) :
    readBlocks svc blocks s = (.ok p, (exchange 0x07 blocks.length t (readRequest idm svc blocks) s).2) := by
  have hInside := exchange_inside 0x07 blocks.length t (readRequest idm svc blocks) s
  rw [readBlocks_eq hIdle (serRead_ok hTag h) hTimeout, ← Prod.mk.eta (p := exchange _ _ _ _ s), hExchange,
    Run.next_ok, parseReadRsp_readResponse (hInside.idm.trans hTag) hp h.most]

/-- WRITE_BLOCKS, as `readBlocks_of_exchange`. -/
theorem writeBlocks_of_exchange {t : Nat} (hIdle : s.re.phase = .idle) (hTag : s.re.idm = some idm)
    (hTimeout : writeTimeout s blocks.length = .ok t) (h : WriteSound blocks data)
    (hExchange : (exchange 0x09 blocks.length t (writeRequest idm svc blocks data) s).1 = .ok (writeResponse idm)) :
    writeBlocks svc blocks data s =
      (.ok (), (exchange 0x09 blocks.length t (writeRequest idm svc blocks data) s).2) := by
  have hInside := exchange_inside 0x09 blocks.length t (writeRequest idm svc blocks data) s
  rw [writeBlocks_eq hIdle (serWrite_ok hTag h) hTimeout, ← Prod.mk.eta (p := exchange _ _ _ _ s), hExchange,
    Run.next_ok, parseWriteRsp_writeResponse (hInside.idm.trans hTag)]

theorem readTimeout_ok (hPmm : s.re.pmm = some pmm) (n : Nat) :
    readTimeout s n = .ok (timeout (readTiming pmm) n) := by
  simp only [readTimeout, rePmm, hPmm]

theorem writeTimeout_ok (hPmm : s.re.pmm = some pmm) (n : Nat) :
    writeTimeout s n = .ok (timeout (writeTiming pmm) n) := by
  simp only [writeTimeout, rePmm, hPmm]

theorem exec_readBlocks_ok {t : State} (h : readBlocks svc blocks s = (.ok p, t)) :
    exec (.readBlocks svc blocks) s = .next (t.reply (.ok (.bytes p))) := by
  simp only [exec, execReadBlocks, h, State.finish_ok]

theorem exec_writeBlocks_ok {t : State} (h : writeBlocks svc blocks data s = (.ok (), t)) :
    exec (.writeBlocks svc blocks data) s = .next (t.reply (.ok .unit)) := by
  simp only [exec, execWriteBlocks, h, State.finish_ok]

/-- An exchange leaves idle units idle. -/
theorem InsideExchange.unitsIdle {s t : State} (h : InsideExchange s t) (hIdle : s.unitsIdle) : t.unitsIdle :=
  ⟨h.phase hIdle.1, by rw [h.ed]; exact hIdle.2⟩

theorem InsideExchange.services {s t : State} (h : InsideExchange s t) : t.ed.svc = s.ed.svc := by rw [h.ed]

end Loopback

end Sys2Proof.Machine

namespace Sys2Proof.Claims

open Machine

/-- Settles O49: RE's request is a read with sound lists, ED answers it from the store, and RE accepts the answer. -/
theorem loopbackReadReturnsTheBlocks : Obligations.LoopbackReadReturnsTheBlocks := by
  unfold Obligations.LoopbackReadReturnsTheBlocks
  intro s idm pmm svc bank size wr blocks hIdle hLink hTag hPmm hIdentity hService hSome hMost hBlocks
  have hSound : ReadSound blocks := ⟨hSome, hMost, fun b hb => (hBlocks b hb).2⟩
  obtain ⟨hTurn, hMem⟩ :=
    loopbackTurn_readRequest ⟨hIdle.2, hIdentity⟩ hService hSound fun b hb => (hBlocks b hb).1
  obtain ⟨hExchange, hApp⟩ :=
    exchange_loopback hLink hTurn 0x07 blocks.length (timeout (readTiming pmm) blocks.length)
  have hRead := readBlocks_of_exchange hIdle.1 hTag (readTimeout_ok hPmm _) hSound (length_flatMap_block _ blocks)
    hExchange
  have hInside := exchange_inside 0x07 blocks.length (timeout (readTiming pmm) blocks.length)
    (readRequest idm svc blocks) s
  refine ⟨_, exec_readBlocks_ok hRead, ?_, ?_, ?_, ?_⟩
  · rw [State.reply_reader, hInside.reader]
  · rw [State.reply_app, hApp, hMem]
  · exact hInside.unitsIdle hIdle
  · exact hInside.services

/-- Settles O50: as O49; a byte outside the blocks written is outside every entry's block. -/
theorem loopbackWriteStoresTheBlocks : Obligations.LoopbackWriteStoresTheBlocks := by
  unfold Obligations.LoopbackWriteStoresTheBlocks
  intro s idm pmm svc bank size rd blocks data hIdle hLink hTag hPmm hIdentity hService hSome hFits hWhole hBlocks
  have hSound : WriteSound blocks data := ⟨hSome, fun b hb => (hBlocks b hb).2, hWhole, hFits⟩
  obtain ⟨hTurn, hMem⟩ :=
    loopbackTurn_writeRequest ⟨hIdle.2, hIdentity⟩ hService hSound fun b hb => (hBlocks b hb).1
  obtain ⟨hExchange, hApp⟩ :=
    exchange_loopback hLink hTurn 0x09 blocks.length (timeout (writeTiming pmm) blocks.length)
  have hWrite := writeBlocks_of_exchange hIdle.1 hTag (writeTimeout_ok hPmm _) hSound hExchange
  have hInside := exchange_inside 0x09 blocks.length (timeout (writeTiming pmm) blocks.length)
    (writeRequest idm svc blocks data) s
  refine ⟨_, exec_writeBlocks_ok hWrite, ?_, ?_, fun a hOut => ?_, ?_, ?_⟩
  · rw [State.reply_reader, hInside.reader]
  · rw [State.reply_app, hApp, hMem]
  · rw [State.reply_app, hApp, hMem]
    refine readByte_storeAfter_outside fun e he bank' hBank => ?_
    obtain ⟨b, hb, rfl⟩ := List.mem_map.1 he
    rw [writeBank_request hService (hBlocks b hb).2 (hBlocks b hb).1] at hBank
    obtain rfl := Option.some.inj hBank
    exact hOut b hb
  · exact hInside.unitsIdle hIdle
  · exact hInside.services

end Sys2Proof.Claims
end

section
/-! The codec AC (R110 to R117): the serialized layout, the round trip, what the checksum detects and its bounds,
and the block count of a capacity: O1, O3, O4, O5, O6. -/

namespace Sys2Proof.Machine

open Claims

/-! ## The operations of AC -/

theorem exec_attrSerialize (ab : AttributeBlock) (s : State) :
    exec (.attrSerialize ab) s = .next (s.reply (.ok (.bytes (attrSerialize ab)))) := rfl

theorem exec_attrParse (B : List Byte) (s : State) :
    exec (.attrParse B) s = .next (s.reply (.ok (.parsed (attrRecord B) (attrValid B) (attrNonstd B)))) := rfl

theorem exec_attrCheck (B : List Byte) (s : State) :
    exec (.attrCheck B) s = .next (s.reply (.ok (.valid (attrValid B)))) := rfl

/-- What ATTR_PARSE answers determines the record and its two flags. -/
theorem exec_attrParse_eq_iff {B : List Byte} {s : State} {ab : AttributeBlock} {valid nonstd : Bool} :
    exec (.attrParse B) s = .next (s.reply (.ok (.parsed ab valid nonstd))) ↔
      attrRecord B = ab ∧ attrValid B = valid ∧ attrNonstd B = nonstd := by
  rw [exec_attrParse, Host.Outcome.next.injEq, State.reply_inj, HostResult.ok.injEq, Value.parsed.injEq]

/-! ## The flag bytes (R33, R34) -/

@[simp] theorem wipOf_wipByte (b : Bool) : wipOf (wipByte b) = b := by cases b <;> rfl

@[simp] theorem writeableOf_writeableByte (b : Bool) : writeableOf (writeableByte b) = b := by cases b <;> rfl

theorem wipByte_wipOf {b : Byte} (h : b ∈ [0x00, 0x0F]) : wipByte (wipOf b) = b := by
  rcases List.mem_pair.1 h with rfl | rfl <;> rfl

theorem writeableByte_writeableOf {b : Byte} (h : b ∈ [0x00, 0x01]) : writeableByte (writeableOf b) = b := by
  rcases List.mem_pair.1 h with rfl | rfl <;> rfl

theorem attrNonstd_eq_false_iff {B : List Byte} :
    attrNonstd B = false ↔ byteAt B 9 ∈ [0x00, 0x0F] ∧ byteAt B 10 ∈ [0x00, 0x01] := by
  rw [← Bool.not_eq_true, attrNonstd_iff, not_or, not_not, not_not]

/-! ## Bytes put together and taken apart -/

theorem append_nibbles (b : Byte) : (b.extractLsb' 4 4 ++ b.extractLsb' 0 4 : Byte) = b :=
  BitVec.extractLsb'_append_extractLsb' (w := 4) (len := 4)

theorem be16_pair16 (hi lo : Byte) : be16 (pair16 hi lo) = [hi, lo] := by
  have hHi : (pair16 hi lo).extractLsb' 8 8 = hi := BitVec.extractLsb'_append_eq_left
  have hLo : (pair16 hi lo).extractLsb' 0 8 = lo := BitVec.extractLsb'_append_eq_right
  rw [be16, hHi, hLo]

theorem be24_triple24 (hi mid lo : Byte) : be24 (triple24 hi mid lo) = [hi, mid, lo] := by
  have hHi : (triple24 hi mid lo).extractLsb' 16 8 = hi := BitVec.extractLsb'_append_eq_left
  have hMid : (triple24 hi mid lo).extractLsb' 8 8 = mid :=
    (BitVec.extractLsb'_append_eq_of_add_le (by omega)).trans BitVec.extractLsb'_append_eq_left
  have hLo : (triple24 hi mid lo).extractLsb' 0 8 = lo :=
    (BitVec.extractLsb'_append_eq_of_add_le (by omega)).trans BitVec.extractLsb'_append_eq_right
  rw [be24, hHi, hMid, hLo]

theorem take_eq_map_byteAt {B : List Byte} {n : Nat} (h : n ≤ B.length) :
    B.take n = (List.range n).map (byteAt B) := by
  rw [List.range_eq_range']
  exact slice_eq_map_byteAt (a := 0) h

theorem drop_fourteen {B : List Byte} (h : B.length = 16) : B.drop 14 = [byteAt B 14, byteAt B 15] := by
  rw [drop_eq_byteAt_cons (by omega), drop_eq_byteAt_cons (by omega), List.drop_of_length_le (by omega)]

/-! ## The bytes of a serialized block (R111) -/

section Serialized

variable (ab : AttributeBlock)

theorem rsv_eq_bytes :
    ab.rsv.val = [byteAt ab.rsv.val 0, byteAt ab.rsv.val 1, byteAt ab.rsv.val 2, byteAt ab.rsv.val 3] := by
  have hLen := ab.rsv.property
  have hBytes := take_eq_map_byteAt (Nat.le_of_eq hLen.symm)
  rwa [List.take_of_length_le hLen.le] at hBytes

/-- The layout with one entry per offset. -/
theorem attrBody_eq_bytes :
    attrBody ab = [ab.verMajor ++ ab.verMinor, ab.nbr, ab.nbw, ab.nmaxb.extractLsb' 8 8, ab.nmaxb.extractLsb' 0 8,
      byteAt ab.rsv.val 0, byteAt ab.rsv.val 1, byteAt ab.rsv.val 2, byteAt ab.rsv.val 3, wipByte ab.wip,
      writeableByte ab.writeable, ab.ln.extractLsb' 16 8, ab.ln.extractLsb' 8 8, ab.ln.extractLsb' 0 8] := by
  rw [attrBody, rsv_eq_bytes]
  rfl

theorem length_attrBody : (attrBody ab).length = 14 := by
  rw [attrBody_eq_bytes]
  rfl

theorem length_attrSerialize : (attrSerialize ab).length = 16 := by
  rw [attrSerialize, List.length_append, length_attrBody]
  rfl

theorem byteAt_attrSerialize_nine : byteAt (attrSerialize ab) 9 = wipByte ab.wip := by
  rw [attrSerialize, attrBody_eq_bytes]
  rfl

theorem byteAt_attrSerialize_ten : byteAt (attrSerialize ab) 10 = writeableByte ab.writeable := by
  rw [attrSerialize, attrBody_eq_bytes]
  rfl

end Serialized

/-! ## The sum of bytes 0 to 13 (R110) -/

theorem num_le (B : List Byte) (k : Nat) : num B k ≤ 255 := Nat.le_of_lt_succ (byteAt B k).isLt

/-- A bound on each byte bounds the sum. -/
theorem sum14_le_of_num_le {B : List Byte} {bound : Nat → Nat} (h : ∀ k, num B k ≤ bound k) :
    sum14 B ≤ ((List.range 14).map bound).sum :=
  List.sum_le_sum fun k _ => h k

theorem sum14_le (B : List Byte) : sum14 B ≤ 3570 := sum14_le_of_num_le (num_le B)

/-- The largest byte a serializer writes at offset `k` of 0 to 13: the flag bytes 9 and 10 take two values each. -/
def serializedMax (k : Nat) : Nat := if k = 9 then 0x0F else if k = 10 then 0x01 else 255

theorem num_attrSerialize_le (ab : AttributeBlock) (k : Nat) : num (attrSerialize ab) k ≤ serializedMax k := by
  unfold serializedMax
  split
  · next hNine =>
    rw [hNine, num, byteAt_attrSerialize_nine]
    cases ab.wip <;> decide
  · split
    · next hTen =>
      rw [hTen, num, byteAt_attrSerialize_ten]
      cases ab.writeable <;> decide
    · exact num_le _ _

theorem sum14_attrSerialize_le (ab : AttributeBlock) : sum14 (attrSerialize ab) ≤ 3076 :=
  sum14_le_of_num_le (num_attrSerialize_le ab)

theorem csum_append {body tail : List Byte} (h : body.length = 14) : csum (body ++ tail) = csum body := by
  rw [csum, csum, List.take_left' h, ← h, List.take_length]

theorem csum_take (B : List Byte) : csum (B.take 14) = csum B := by
  rw [csum, csum, List.take_take, Nat.min_self]

/-- The checksum fits its 16 bits without wrapping (R110). -/
theorem csum_toNat {B : List Byte} (h : 14 ≤ B.length) : (BitVec.ofNat 16 (csum B)).toNat = csum B := by
  have hLe := sum14_le B
  rw [BitVec.toNat_ofNat, Nat.mod_eq_of_lt (by rw [csum_eq_sum14 h]; omega)]

theorem storedSum_of_drop {B : List Byte} {hi lo : Byte} (h : B.drop 14 = [hi, lo]) :
    storedSum B = (pair16 hi lo).toNat := by
  rw [storedSum, byteAt_of_drop h, byteAt_succ_of_drop h]

/-! ## The round trip (R114) -/

theorem attrRecord_nbr (B : List Byte) : (attrRecord B).nbr = byteAt B 1 := rfl

theorem attrRecord_nbw (B : List Byte) : (attrRecord B).nbw = byteAt B 2 := rfl

section RoundTrip

variable (ab : AttributeBlock)

theorem attrRsv_attrSerialize : attrRsv (attrSerialize ab) = ab.rsv := by
  apply Subtype.ext
  rw [rsv_eq_bytes, attrSerialize, attrBody_eq_bytes]
  rfl

theorem attrRecord_attrSerialize : attrRecord (attrSerialize ab) = ab := by
  obtain ⟨hMajor, hMinor⟩ := nibbles_extract ab.verMajor ab.verMinor
  rw [attrRecord, attrRsv_attrSerialize, attrSerialize, attrBody_eq_bytes]
  simp [byteAt, hMajor, hMinor]

theorem attrValid_attrSerialize : attrValid (attrSerialize ab) = true := by
  have hBody := length_attrBody ab
  have hStored : storedSum (attrSerialize ab) = csum (attrBody ab) := by
    have hDrop : (attrSerialize ab).drop 14 = be16 (BitVec.ofNat 16 (csum (attrBody ab))) := List.drop_left' hBody
    rw [storedSum_of_drop hDrop, pair16_extract, csum_toNat hBody.ge]
  rw [attrValid, beq_iff_eq, hStored, attrSerialize, csum_append hBody]

theorem attrNonstd_attrSerialize : attrNonstd (attrSerialize ab) = false := by
  rw [attrNonstd_eq_false_iff, byteAt_attrSerialize_nine, byteAt_attrSerialize_ten]
  constructor
  · cases ab.wip <;> decide
  · cases ab.writeable <;> decide

end RoundTrip

/-- In a standard block each byte of 0 to 13 is the one its field is written as. -/
theorem attrBody_attrRecord {B : List Byte} (hLen : 14 ≤ B.length) (hStd : attrNonstd B = false) :
    attrBody (attrRecord B) = B.take 14 := by
  obtain ⟨hWip, hWriteable⟩ := attrNonstd_eq_false_iff.1 hStd
  rw [take_eq_map_byteAt hLen]
  simp only [attrBody, attrRecord, append_nibbles, be16_pair16, be24_triple24, wipByte_wipOf hWip,
    writeableByte_writeableOf hWriteable]
  rfl

theorem be16_csum {B : List Byte} (hLen : B.length = 16) (hValid : attrValid B = true) :
    be16 (BitVec.ofNat 16 (csum B)) = B.drop 14 := by
  rw [drop_fourteen hLen, ← be16_pair16, ← beq_iff_eq.1 hValid, storedSum, BitVec.ofNat_toNat, BitVec.setWidth_eq]

theorem attrSerialize_attrRecord {B : List Byte} (hLen : B.length = 16) (hValid : attrValid B = true)
    (hStd : attrNonstd B = false) : attrSerialize (attrRecord B) = B := by
  rw [attrSerialize, attrBody_attrRecord (by omega) hStd, csum_take, be16_csum hLen hValid, List.take_append_drop]

/-! ## What the checksum detects (R115) -/

/-- Next to the checksum bytes of a valid block, bytes 0 to 13 make a valid block exactly when their sum is the same. -/
theorem attrValid_iff_sum14_eq {B B' : List Byte} (hLen : B.length = 16) (hLen' : B'.length = 16)
    (hValid : attrValid B = true) (hDrop : B'.drop 14 = B.drop 14) :
    attrValid B' = true ↔ sum14 B' = sum14 B := by
  have hStored : storedSum B' = storedSum B := storedSum_of_drop (hDrop.trans (drop_fourteen hLen))
  rw [attrValid, beq_iff_eq] at hValid ⊢
  rw [hStored, hValid, csum_eq_sum14 (by omega), csum_eq_sum14 (by omega), eq_comm]

theorem sum_set_add_getElem (l : List Nat) {k : Nat} (a : Nat) (h : k < l.length) :
    (l.set k a).sum + l[k] = l.sum + a := by
  have hSplit := List.sum_take_add_sum_drop l k
  rw [List.drop_eq_getElem_cons h, List.sum_cons] at hSplit
  rw [List.sum_set, if_pos h]
  omega

/-- Changing one byte changes the sum by the difference of the two values. -/
theorem sum14_set {B : List Byte} {k : Nat} (v : Byte) (hLen : 14 ≤ B.length) (hk : k < 14) :
    sum14 (B.set k v) + num B k = sum14 B + v.toNat := by
  have hSum := sum_set_add_getElem ((B.take 14).map BitVec.toNat) v.toNat (k := k) (by simp; omega)
  rw [← List.map_set, ← List.take_set, List.getElem_map, List.getElem_take] at hSum
  rw [← csum_eq_sum14 hLen, ← csum_eq_sum14 (by simpa using hLen), num, byteAt, List.getD_eq_getElem _ _ (by omega)]
  exact hSum

theorem attrValid_set {B : List Byte} {k : Nat} {v : Byte} (hLen : B.length = 16) (hValid : attrValid B = true)
    (hk : k < 14) (hv : byteAt B k ≠ v) : attrValid (B.set k v) = false := by
  have hDrop : (B.set k v).drop 14 = B.drop 14 := List.drop_set_of_lt hk
  have hByte : num B k ≠ v.toNat := fun h => hv (BitVec.eq_of_toNat_eq h)
  have hSum := sum14_set v (by omega : 14 ≤ B.length) hk
  rw [← Bool.not_eq_true, attrValid_iff_sum14_eq hLen (by rw [List.length_set, hLen]) hValid hDrop]
  omega

theorem sum14_eq_of_perm {B B' : List Byte} (hLen : 14 ≤ B.length) (hLen' : 14 ≤ B'.length)
    (h : (B'.take 14).Perm (B.take 14)) : sum14 B' = sum14 B := by
  rw [← csum_eq_sum14 hLen, ← csum_eq_sum14 hLen']
  exact (h.map BitVec.toNat).sum_eq

/-! ## Capacity (R35, R117) -/

theorem blocksForCapacity_of_le {C : Nat} (h : C ≤ 1048560) :
    blocksForCapacity C = some (BitVec.ofNat 16 ((C + 15) / 16)) := if_neg (by omega)

theorem blocksForCapacity_of_lt {C : Nat} (h : 1048560 < C) : blocksForCapacity C = none := if_pos h

/-- The block count of a capacity that is not refused fits 16 bits. -/
theorem toNat_blocks {C : Nat} (h : C ≤ 1048560) : (BitVec.ofNat 16 ((C + 15) / 16)).toNat = (C + 15) / 16 := by
  rw [BitVec.toNat_ofNat, Nat.mod_eq_of_lt (by omega)]

theorem capacity_le (ab : AttributeBlock) : capacity ab ≤ 1048560 := by
  have h := ab.nmaxb.isLt
  unfold capacity
  omega

end Sys2Proof.Machine

namespace Sys2Proof.Claims

open Machine

/-- Settles O1: what ATTR_PARSE reads at each offset of the serialized block is the field (R114), so the bytes there are
those of the layout. -/
theorem attrSerializeWritesTheLayout : Obligations.AttrSerializeWritesTheLayout := by
  unfold Obligations.AttrSerializeWritesTheLayout
  intro ab s
  have hLen := length_attrSerialize ab
  have hMajor := attrRecord_verMajor (attrSerialize ab)
  have hMinor := attrRecord_verMinor (attrSerialize ab)
  have hNbr := attrRecord_nbr (attrSerialize ab)
  have hNbw := attrRecord_nbw (attrSerialize ab)
  have hNmaxb := attrRecord_nmaxb (attrSerialize ab)
  have hRsv := attrRecord_rsv (attrSerialize ab) (by omega)
  have hLn := attrRecord_ln (attrSerialize ab)
  rw [attrRecord_attrSerialize] at hMajor hMinor hNbr hNbw hNmaxb hRsv hLn
  refine ⟨attrSerialize ab, exec_attrSerialize ab s, hLen, by omega, hNbr.symm, hNbw.symm, hNmaxb.symm, hRsv.symm,
    byteAt_attrSerialize_nine ab, byteAt_attrSerialize_ten ab, hLn.symm, ?_⟩
  exact (attrValid_iff _ (by omega)).1 (attrValid_attrSerialize ab)

/-- Settles O3, both directions of R114. -/
theorem attrRoundTrip : Obligations.AttrRoundTrip := by
  unfold Obligations.AttrRoundTrip
  refine ⟨fun ab s => ⟨⟨attrSerialize ab, length_attrSerialize ab⟩, exec_attrSerialize ab s, ?_⟩,
    fun ⟨B, hLen⟩ ab s hParse => ?_⟩
  · exact exec_attrParse_eq_iff.2
      ⟨attrRecord_attrSerialize ab, attrValid_attrSerialize ab, attrNonstd_attrSerialize ab⟩
  · obtain ⟨rfl, hValid, hStd⟩ := exec_attrParse_eq_iff.1 hParse
    rw [exec_attrSerialize, attrSerialize_attrRecord hLen hValid hStd]

/-- Settles O4: each clause asks whether the change keeps the sum of bytes 0 to 13. -/
theorem checksumSensitivity : Obligations.ChecksumSensitivity := by
  unfold Obligations.ChecksumSensitivity
  refine ⟨fun ⟨B, hLen⟩ k v s hValid hk hv => ?_, fun B B' hValid hSum hDrop => ?_,
    fun ⟨B, hLen⟩ ⟨B', hLen'⟩ hValid hPerm hDrop => ?_⟩
  · exact ⟨⟨B.set k v, by rw [List.length_set, hLen]⟩, attrRecord (B.set k v), attrNonstd (B.set k v), rfl,
      exec_attrParse_eq_iff.2 ⟨rfl, attrValid_set hLen hValid hk hv, rfl⟩⟩
  · exact (attrValid_iff_sum14_eq B.property B'.property hValid hDrop).2 hSum
  · exact (attrValid_iff_sum14_eq hLen hLen' hValid hDrop).2 (sum14_eq_of_perm (by omega) (by omega) hPerm)

/-- Settles O5. -/
theorem attrCheckComparesTheSum : Obligations.AttrCheckComparesTheSum := by
  unfold Obligations.AttrCheckComparesTheSum
  refine ⟨fun ⟨B, hLen⟩ s => ?_, fun B => sum14_le B.val, fun ab s => ?_⟩
  · exact ⟨attrValid B, exec_attrCheck B s, attrValid_iff B (by omega)⟩
  · exact ⟨attrSerialize ab, exec_attrSerialize ab s, sum14_attrSerialize_le ab⟩

/-- Settles O6; the bound is 16 times the largest 16-bit block count. -/
theorem capacityInBlocks : Obligations.CapacityInBlocks := by
  unfold Obligations.CapacityInBlocks
  refine ⟨fun C hC => ?_, fun C hC => blocksForCapacity_of_lt hC, fun ab => ⟨rfl, capacity_le ab⟩⟩
  have hCeil := toNat_blocks hC
  exact ⟨_, blocksForCapacity_of_le hC, hCeil, by omega, by omega⟩

end Sys2Proof.Claims
end

section
/-! The timing model TM (R130 to R136): T by arithmetic on the timing byte, the answers of TIMEOUT_RD and TIMEOUT_WR,
and the range of T: O7, O8. -/

namespace Sys2Proof.Machine

open Claims

/-! ## The fields of the timing byte (R130) -/

theorem timeoutA_eq (p : Byte) : timeoutA p = p.toNat % 8 + 1 := by
  rw [timeoutA, BitVec.extractLsb'_toNat, Nat.shiftRight_zero]

theorem timeoutB_eq (p : Byte) : timeoutB p = p.toNat / 8 % 8 + 1 := by
  rw [timeoutB, BitVec.extractLsb'_toNat, Nat.shiftRight_eq_div_pow]

theorem timeoutE_eq (p : Byte) : timeoutE p = p.toNat / 64 := by
  have hByte := p.isLt
  rw [timeoutE, BitVec.extractLsb'_toNat, Nat.shiftRight_eq_div_pow, Nat.mod_eq_of_lt (by omega)]

/-- The model's timeout is T of R130. -/
theorem timeout_eq_timeoutMs (p : Byte) (n : Nat) : timeout p n = timeoutMs p n := by
  rw [timeout, timeoutA_eq, timeoutB_eq, timeoutE_eq]
  rfl

/-! ## TIMEOUT_RD and TIMEOUT_WR (R131, R132) -/

theorem exec_timeoutRd (n : Nat) (s : State) :
    exec (.timeoutRd n) s = .next (s.reply (resultOf .ms (readTimeout s n))) := by
  rw [← State.finish_eq_reply]
  rfl

theorem exec_timeoutWr (n : Nat) (s : State) :
    exec (.timeoutWr n) s = .next (s.reply (resultOf .ms (writeTimeout s n))) := by
  rw [← State.finish_eq_reply]
  rfl

theorem readTimeout_unloaded {s : State} (h : s.re.pmm = none) (n : Nat) :
    readTimeout s n = .error (.unconfigured .reTag) := by
  simp only [readTimeout, rePmm, h]

theorem writeTimeout_unloaded {s : State} (h : s.re.pmm = none) (n : Nat) :
    writeTimeout s n = .error (.unconfigured .reTag) := by
  simp only [writeTimeout, rePmm, h]

/-- The timing byte of a read is at offset 5 (R131). -/
theorem readTimeout_eq_timeoutMs {s : State} {pmm : Bytes 8} (h : s.re.pmm = some pmm) (n : Nat) :
    readTimeout s n = .ok (timeoutMs (byteAt pmm.val 5) n) := by
  rw [readTimeout_ok h, timeout_eq_timeoutMs]
  rfl

/-- The timing byte of a write is at offset 6 (R132). -/
theorem writeTimeout_eq_timeoutMs {s : State} {pmm : Bytes 8} (h : s.re.pmm = some pmm) (n : Nat) :
    writeTimeout s n = .ok (timeoutMs (byteAt pmm.val 6) n) := by
  rw [writeTimeout_ok h, timeout_eq_timeoutMs]
  rfl

/-! ## The range of T (R135, R136) -/

theorem timeout_mono (p : Byte) : Monotone (timeout p) := by
  intro m n h
  unfold timeout
  gcongr

/-- The margin is in every timeout. -/
theorem tMargin_le_timeout (p : Byte) (n : Nat) : Config.tMargin ≤ timeout p n := Nat.le_add_left _ _

/-- Each of the three fields is largest in the byte 0xFF. -/
theorem timeout_le_timeout_max (p : Byte) (n : Nat) : timeout p n ≤ timeout 0xFF n := by
  have hByte := p.isLt
  have hA : timeoutA p ≤ timeoutA 0xFF := by
    rw [timeoutA_eq]
    exact Nat.succ_le_of_lt (Nat.mod_lt _ (by decide))
  have hB : timeoutB p ≤ timeoutB 0xFF := by
    rw [timeoutB_eq]
    exact Nat.succ_le_of_lt (Nat.mod_lt _ (by decide))
  have hE : timeoutE p ≤ timeoutE 0xFF := by
    rw [timeoutE_eq]
    exact Nat.le_of_lt_succ (Nat.div_lt_of_lt_mul hByte)
  unfold timeout
  gcongr
  decide

/-- Up to `m` blocks no timeout is longer than the largest byte's for `m`. -/
theorem timeout_le_of_le {n m : Nat} (p : Byte) (h : n ≤ m) : timeout p n ≤ timeout 0xFF m :=
  (timeout_le_timeout_max p n).trans (timeout_mono 0xFF h)

end Sys2Proof.Machine

namespace Sys2Proof.Claims

open Machine

/-- Settles O7: RE.PMM is UNLOADED, or its timing byte is put into T. -/
theorem timeoutResults : Obligations.TimeoutResults := by
  unfold Obligations.TimeoutResults
  intro n s
  simp only [exec_timeoutRd, exec_timeoutWr]
  refine ⟨fun hNone => ?_, fun pmm hPmm => ?_⟩
  · rw [readTimeout_unloaded hNone, writeTimeout_unloaded hNone]
    exact ⟨rfl, rfl⟩
  · rw [readTimeout_eq_timeoutMs hPmm, writeTimeout_eq_timeoutMs hPmm]
    exact ⟨rfl, rfl⟩

/-- Settles O8: T grows with the block count and with each field of the timing byte, so the byte 0xFF bounds it. -/
theorem timeoutMonotoneAndBounded : Obligations.TimeoutMonotoneAndBounded := by
  unfold Obligations.TimeoutMonotoneAndBounded
  have hMost : ∀ (p : Byte) (n : Nat), n ≤ 255 → timeout p n ≤ 39588 := fun p n h => timeout_le_of_le p h
  refine ⟨fun p n => timeout_mono p n.le_succ, by decide, by decide,
    fun p n h => ⟨tMargin_le_timeout p n, hMost p n h⟩, by decide, fun p n h => timeout_le_of_le p h, by decide,
    fun p n h => ?_⟩
  have hFits := hMost p n h
  rw [BitVec.toNat_ofNat, Nat.mod_eq_of_lt (by omega)]

end Sys2Proof.Claims
end

section
/-! One exchange over an external transport (R134, R150, R151): READ_BLOCKS and WRITE_BLOCKS with sound operands are one
exchange and the parse of its answer, for every answer of Send and Receive: O15, O16. -/

namespace Sys2Proof.Machine

open Claims

/-! ## Records delivered by READ_BLOCKS and WRITE_BLOCKS -/

theorem exec_readBlocks (svc : Svc) (blocks : List Nat) (s : State) :
    exec (.readBlocks svc blocks) s =
      .next ((readBlocks svc blocks s).2.reply (resultOf .bytes (readBlocks svc blocks s).1)) := by
  rw [← State.finish_eq_reply]
  rfl

theorem exec_writeBlocks (svc : Svc) (blocks : List Nat) (data : List Byte) (s : State) :
    exec (.writeBlocks svc blocks data) s =
      .next ((writeBlocks svc blocks data s).2.reply
        (resultOf (fun _ => .unit) (writeBlocks svc blocks data s).1)) := by
  rw [← State.finish_eq_reply]
  rfl

section Exchange

variable {s : State} {idm pmm : Bytes 8} {svc : Svc} {C : List Nat} {data F : List Byte} {code : Byte} {n t : Nat}
  {tr tr' : Transport} {a : Option (List Byte)}

/-! ## The operands that SER_WRITE takes -/

theorem length_writeRequest (h : ∀ b ∈ C, b ≤ 0xFFFF) :
    (writeRequest idm svc C data).length = 14 + (C.flatMap entryOf).length + data.length := by
  rw [writeRequest_eq h, length_commandFrame, List.length_append, length_listsWire_request h]
  omega

theorem writeSound_of_length_writeRequest (hSome : C ≠ []) (hRange : ∀ b ∈ C, b ≤ 0xFFFF)
    (hWhole : data.length = 16 * C.length) (hl : (writeRequest idm svc C data).length ≤ 255) :
    WriteSound C data := by
  rw [length_writeRequest hRange, hWhole] at hl
  exact ⟨List.length_pos_of_ne_nil hSome, hRange, hWhole, hl⟩

/-! ## The exchange -/

/-- The state after an exchange whose Receive was given `t` ms and returned `a`, leaving the transport `tr'`: RE is idle
again and RE.PEND stays (log 11). -/
def State.answered (s : State) (code : Byte) (n t : Nat) (tr' : Transport) (a : Option (List Byte)) : State :=
  { s with
    re := { s.re with pend := { code := code, n := byteOf n, t := BitVec.ofNat 16 t } }
    transport := { tr' with log := tr'.log ++ [.received t a] } }

theorem exchange_sendFail (hLink : s.transport.link = .external) (hSend : drawSend s.transport = (false, tr)) :
    exchange code n t F s =
      (.error (.transport .sendFail), s.setTransport { tr with log := tr.log ++ [.sent F false] }) := by
  rw [exchange_external hLink hSend rfl]
  exact if_neg Bool.false_ne_true

theorem exchange_answered (hLink : s.transport.link = .external) (hIdle : s.re.phase = .idle)
    (hSend : drawSend s.transport = (true, tr))
    (hReceive : drawReceive { tr with log := tr.log ++ [WireEvent.sent F true] } = (a, tr')) :
    exchange code n t F s = (receiveResult a, s.answered code n t tr' a) := by
  rw [exchange_external hLink hSend hReceive, if_pos rfl, State.answered, ← hIdle]

/-! ## READ_BLOCKS and WRITE_BLOCKS of sound operands -/

/-- The parse after an exchange reads RE.IDM alone, which the exchange leaves as it was. -/
theorem next_exchange_parse {α : Type} {parse : State → List Byte → Except Err α}
    (hParse : ∀ u : State, u.re.idm = s.re.idm → parse u = parse s) :
    (Run.next (exchange code n t F s) fun r u => (parse u r, u)) =
      ((exchange code n t F s).1.bind (parse s), (exchange code n t F s).2) := by
  have hInside := exchange_inside code n t F s
  generalize exchange code n t F s = run at hInside
  obtain ⟨r, u⟩ := run
  cases r with
  | error e => rfl
  | ok r => rw [Run.next_ok, hParse u hInside.idm]; rfl

/-- One exchange with the request of R143 and the timeout of R134, and the parse of its answer (R150). -/
theorem readBlocks_ready (hReady : ReaderReady s idm pmm) (hSound : ReadSound C) :
    readBlocks svc C s =
      ((exchange 0x07 C.length (timeoutMs (byteAt pmm.val 5) C.length) (readRequest idm svc C) s).1.bind
          fun r => parseReadRsp s r C.length,
        (exchange 0x07 C.length (timeoutMs (byteAt pmm.val 5) C.length) (readRequest idm svc C) s).2) := by
  rw [readBlocks_eq hReady.idle (serRead_ok hReady.tag hSound) (readTimeout_eq_timeoutMs hReady.timing _)]
  exact next_exchange_parse (parse := fun u r => parseReadRsp u r C.length) fun u h => by
    rw [parseReadRsp_congr h]

/-- WRITE_BLOCKS, as `readBlocks_ready` (R144, R151). -/
theorem writeBlocks_ready (hReady : ReaderReady s idm pmm) (hSound : WriteSound C data) :
    writeBlocks svc C data s =
      ((exchange 0x09 C.length (timeoutMs (byteAt pmm.val 6) C.length) (writeRequest idm svc C data) s).1.bind
          (parseWriteRsp s),
        (exchange 0x09 C.length (timeoutMs (byteAt pmm.val 6) C.length) (writeRequest idm svc C data) s).2) := by
  rw [writeBlocks_eq hReady.idle (serWrite_ok hReady.tag hSound) (writeTimeout_eq_timeoutMs hReady.timing _)]
  exact next_exchange_parse fun u h => parseWriteRsp_congr h

theorem exec_readBlocks_sendFail (hReady : ReaderReady s idm pmm) (hSound : ReadSound C)
    (hSend : drawSend s.transport = (false, tr)) :
    exec (.readBlocks svc C) s =
      .next ((s.setTransport { tr with log := tr.log ++ [.sent (readRequest idm svc C) false] }).reply
        (.err (.transport .sendFail))) := by
  rw [exec_readBlocks, readBlocks_ready hReady hSound, exchange_sendFail hReady.link hSend]
  rfl

/-- READ_BLOCKS ends with what PARSE_READ_RSP makes of the answer, or NO_RESPONSE. -/
theorem exec_readBlocks_answered (hReady : ReaderReady s idm pmm) (hSound : ReadSound C)
    (hSend : drawSend s.transport = (true, tr))
    (hReceive : drawReceive { tr with log := tr.log ++ [WireEvent.sent (readRequest idm svc C) true] } = (a, tr')) :
    exec (.readBlocks svc C) s =
      .next ((s.answered 0x07 C.length (timeoutMs (byteAt pmm.val 5) C.length) tr' a).reply
        (resultOf .bytes ((receiveResult a).bind fun r => parseReadRsp s r C.length))) := by
  rw [exec_readBlocks, readBlocks_ready hReady hSound, exchange_answered hReady.link hReady.idle hSend hReceive]

theorem exec_writeBlocks_sendFail (hReady : ReaderReady s idm pmm) (hSound : WriteSound C data)
    (hSend : drawSend s.transport = (false, tr)) :
    exec (.writeBlocks svc C data) s =
      .next ((s.setTransport { tr with log := tr.log ++ [.sent (writeRequest idm svc C data) false] }).reply
        (.err (.transport .sendFail))) := by
  rw [exec_writeBlocks, writeBlocks_ready hReady hSound, exchange_sendFail hReady.link hSend]
  rfl

/-- WRITE_BLOCKS ends with what PARSE_WRITE_RSP makes of the answer, or NO_RESPONSE. -/
theorem exec_writeBlocks_answered (hReady : ReaderReady s idm pmm) (hSound : WriteSound C data)
    (hSend : drawSend s.transport = (true, tr))
    (hReceive :
      drawReceive { tr with log := tr.log ++ [WireEvent.sent (writeRequest idm svc C data) true] } = (a, tr')) :
    exec (.writeBlocks svc C data) s =
      .next ((s.answered 0x09 C.length (timeoutMs (byteAt pmm.val 6) C.length) tr' a).reply
        (resultOf (fun _ => .unit) ((receiveResult a).bind (parseWriteRsp s)))) := by
  rw [exec_writeBlocks, writeBlocks_ready hReady hSound, exchange_answered hReady.link hReady.idle hSend hReceive]

end Exchange

end Sys2Proof.Machine

namespace Sys2Proof.Claims

open Machine

/-- Settles O15: the answers of Send and Receive are free, and each ends the exchange in its own way. -/
theorem readBlocksExchange : Obligations.ReadBlocksExchange := by
  unfold Obligations.ReadBlocksExchange
  intro svc blocks s idm pmm ok tr tr' a hReady hSome hMost hRange hSend hReceive
  have hSound : ReadSound blocks := ⟨hSome, hMost, hRange⟩
  refine ⟨?_, ?_⟩
  · rintro rfl
    exact exec_readBlocks_sendFail hReady hSound hSend
  · rintro rfl t rfl
    have hExec := exec_readBlocks_answered hReady hSound hSend hReceive
    refine ⟨?_, ?_, fun payload hLen => ?_⟩
    · rintro rfl
      exact hExec
    · rintro r rfl
      exact ⟨_, exec_parseReadRsp r blocks.length s, hExec⟩
    · rintro rfl
      rw [receiveResult, Except.bind, parseReadRsp_readResponse hReady.tag hLen hMost] at hExec
      exact hExec

/-- Settles O16, as O15. -/
theorem writeBlocksExchange : Obligations.WriteBlocksExchange := by
  unfold Obligations.WriteBlocksExchange
  intro svc blocks data s idm pmm ok tr tr' a hReady hSome hRange hWhole hFits hSend hReceive
  have hSound : WriteSound blocks data := writeSound_of_length_writeRequest hSome hRange hWhole hFits
  refine ⟨?_, ?_⟩
  · rintro rfl
    exact exec_writeBlocks_sendFail hReady hSound hSend
  · rintro rfl t rfl
    have hExec := exec_writeBlocks_answered hReady hSound hSend hReceive
    refine ⟨?_, ?_, ?_⟩
    · rintro rfl
      exact hExec
    · rintro r rfl
      exact ⟨_, exec_parseWriteRsp r s, hExec⟩
    · rintro rfl
      rw [receiveResult, Except.bind, parseWriteRsp_writeResponse hReady.tag] at hExec
      exact hExec

end Sys2Proof.Claims
end

section
/-! Reads and writes in a row over a scripted transport (R172, R174, R175; log 6): READ_CHUNKED and WRITE_CHUNKED make
one exchange per chunk, in order, up to the first that fails: O22, O23. -/

namespace Sys2Proof.Machine

open Claims

/-! ## Chunks (R172) -/

section Chunks

variable {X : List Nat} {lim fuel : Nat} {C : List Nat}

theorem flatten_chunksFuel (hLim : 1 ≤ lim) (hFuel : X.length ≤ fuel) : (chunksFuel lim fuel X).flatten = X := by
  induction fuel generalizing X with
  | zero => rw [List.eq_nil_of_length_eq_zero (Nat.le_zero.1 hFuel)]; rfl
  | succ fuel ih =>
    cases X with
    | nil => rfl
    | cons x X =>
      have hRest : ((x :: X).drop lim).length ≤ fuel := by
        rw [List.length_drop]
        omega
      rw [chunksFuel, List.flatten_cons, ih hRest, List.take_append_drop]

theorem flatten_chunks (hLim : 1 ≤ lim) (X : List Nat) : (chunks X lim).flatten = X :=
  flatten_chunksFuel hLim le_rfl

theorem ne_nil_of_mem_chunksFuel (hLim : 1 ≤ lim) (hC : C ∈ chunksFuel lim fuel X) : C ≠ [] := by
  induction fuel generalizing X with
  | zero => cases hC
  | succ fuel ih =>
    cases X with
    | nil => cases hC
    | cons x X =>
      rcases List.mem_cons.1 hC with rfl | hRest
      · simp only [ne_eq, List.take_eq_nil_iff, reduceCtorEq, or_false]
        omega
      · exact ih hRest

theorem length_pos_of_mem_chunks (hLim : 1 ≤ lim) (hC : C ∈ chunks X lim) : 1 ≤ C.length :=
  List.length_pos_of_ne_nil (ne_nil_of_mem_chunksFuel hLim hC)

/-- Chunks of at most 15 blocks are what SER_READ takes (R143). -/
theorem readSound_of_mem_chunks (hLim : 1 ≤ lim) (hMost : ∀ C ∈ chunks X lim, C.length ≤ 15)
    (hRange : ∀ x ∈ X, x ≤ 0xFFFF) : ∀ C ∈ chunks X lim, ReadSound C := fun C hC =>
  ⟨length_pos_of_mem_chunks hLim hC, hMost C hC, fun x hx => hRange x <| by
    rw [← flatten_chunks hLim X]
    exact List.mem_flatten_of_mem hC hx⟩

end Chunks

/-! ## Records delivered by SER_READ and SER_WRITE -/

theorem exec_serRead (svc : Svc) (C : List Nat) (s : State) :
    exec (.serRead svc C) s = .next (s.reply (resultOf .bytes (serRead s svc C))) := by
  rw [← State.finish_eq_reply]
  rfl

theorem exec_serWrite (svc : Svc) (C : List Nat) (data : List Byte) (s : State) :
    exec (.serWrite svc C data) s = .next (s.reply (resultOf .bytes (serWrite s svc C data))) := by
  rw [← State.finish_eq_reply]
  rfl

theorem resultOf_eq_err {α : Type} {f : α → Value} {r : Except Err α} {e : Err} :
    resultOf f r = .err e ↔ r = .error e := by
  cases r <;> simp [resultOf]

/-! ## Exchanges with a script (log 6) -/

/-- The state after some exchanges over an external transport with a script: RE.PEND is `p`, the transport will answer
`sq` and `rq`, and has had the calls `calls` since `s`. -/
def State.exchanged (s : State) (p : Pending) (sq : List Bool) (rq : List (Option (List Byte)))
    (calls : List WireEvent) : State :=
  { s with
    re := { s.re with pend := p }
    transport := { s.transport with sendScript := sq, recvScript := rq, log := s.transport.log ++ calls } }

/-- After any exchanges since `s`, `op` takes the answers `sends` of Send and `answers` of Receive, makes the calls
`calls` and no other, and yields `r`; it changes nothing else but RE.PEND. -/
def Exchanges {α : Type} (op : State → Run α) (s : State) (sends : List Bool) (answers : List (Option (List Byte)))
    (calls : List WireEvent) (r : Except Err α) : Prop :=
  ∀ (p : Pending) (sq : List Bool) (rq : List (Option (List Byte))) (before : List WireEvent), ∃ p' : Pending,
    op (s.exchanged p (sends ++ sq) (answers ++ rq) before) = (r, s.exchanged p' sq rq (before ++ calls))

section Scripted

variable {s : State} {idm pmm : Bytes 8} {svc : Svc} {sends sends' : List Bool}
  {answers answers' : List (Option (List Byte))} {calls calls' : List WireEvent}

theorem State.exchanged_self (s : State) :
    s.exchanged s.re.pend s.transport.sendScript s.transport.recvScript [] = s := by
  rw [State.exchanged, List.append_nil]

theorem State.exchanged_ready (h : ReaderReady s idm pmm) (p : Pending) (sq : List Bool)
    (rq : List (Option (List Byte))) (before : List WireEvent) :
    ReaderReady (s.exchanged p sq rq before) idm pmm :=
  ⟨h.idle, h.tag, h.timing, h.link⟩

/-- An operation that makes no call. -/
theorem Exchanges.silent {α : Type} {op : State → Run α} {r : Except Err α}
    (h : ∀ p sq rq before, op (s.exchanged p sq rq before) = (r, s.exchanged p sq rq before)) :
    Exchanges op s [] [] [] r :=
  fun p sq rq before => ⟨p, by rw [List.append_nil]; exact h p sq rq before⟩

theorem Exchanges.next {α β : Type} {op : State → Run α} {k : α → State → Run β} {v : α} {r : Except Err β}
    (h : Exchanges op s sends answers calls (.ok v)) (hk : Exchanges (k v) s sends' answers' calls' r) :
    Exchanges (fun u => Run.next (op u) k) s (sends ++ sends') (answers ++ answers') (calls ++ calls') r := by
  intro p sq rq before
  obtain ⟨p1, h1⟩ := h p (sends' ++ sq) (answers' ++ rq) before
  obtain ⟨p2, h2⟩ := hk p1 sq rq (before ++ calls)
  refine ⟨p2, ?_⟩
  simp only [List.append_assoc] at h1 h2 ⊢
  rw [h1, Run.next_ok, h2]

/-- The first error ends a row of operations, and there is no later call (R243). -/
theorem Exchanges.next_error {α β : Type} {op : State → Run α} {e : Err}
    (h : Exchanges op s sends answers calls (.error e)) (k : α → State → Run β) :
    Exchanges (fun u => Run.next (op u) k) s sends answers calls (.error e) := by
  intro p sq rq before
  obtain ⟨p1, h1⟩ := h p sq rq before
  exact ⟨p1, by simp only [h1, Run.next_error]⟩

/-- An instruction that runs `op` from `s` on and delivers its result ends as `op` does. -/
theorem Exchanges.ends {α : Type} {op : State → Run α} {r : Except Err α} {i : Instr} {f : α → Value} {sq : List Bool}
    {rq : List (Option (List Byte))} (h : Exchanges op s sends answers calls r)
    (hExec : exec i s = .next ((op s).2.finish f (op s).1)) (hSends : s.transport.sendScript = sends ++ sq)
    (hAnswers : s.transport.recvScript = answers ++ rq) :
    Ends i s s.reader.cache sq rq calls (resultOf f r) := by
  obtain ⟨p, hOp⟩ := h s.re.pend sq rq []
  rw [← hSends, ← hAnswers, State.exchanged_self, List.nil_append] at hOp
  rw [hOp, State.finish_eq_reply] at hExec
  exact ⟨_, hExec, ⟨rfl, rfl, rfl, rfl, rfl, rfl, rfl, rfl⟩, rfl, rfl⟩

/-! ## One exchange -/

section OneExchange

variable {code : Byte} {n t : Nat} {F : List Byte} {C : List Nat} {data : List Byte} {e : Err}

theorem exchange_sendFail_exchanges (hReady : ReaderReady s idm pmm) :
    Exchanges (exchange code n t F) s [false] [] [.sent F false] (.error (.transport .sendFail)) := by
  intro p sq rq before
  have hNow := State.exchanged_ready hReady p (false :: sq) rq before
  refine ⟨p, (exchange_sendFail hNow.link rfl).trans ?_⟩
  simp [State.exchanged, State.setTransport]

theorem exchange_answered_exchanges (hReady : ReaderReady s idm pmm) (a : Option (List Byte)) :
    Exchanges (exchange code n t F) s [true] [a] [.sent F true, .received t a] (receiveResult a) := by
  intro p sq rq before
  have hNow := State.exchanged_ready hReady p (true :: sq) (a :: rq) before
  refine ⟨{ code := code, n := byteOf n, t := BitVec.ofNat 16 t },
    (exchange_answered hNow.link hNow.idle rfl rfl).trans ?_⟩
  simp [State.exchanged, State.answered]

/-! ## READ_BLOCKS (R150) -/

/-- READ_BLOCKS of sound operands makes the calls of its exchange, and parses its answer. -/
theorem Exchanges.readBlocks {r : Except Err (List Byte)} (hReady : ReaderReady s idm pmm) (hSound : ReadSound C)
    (h : Exchanges (exchange 0x07 C.length (timeoutMs (byteAt pmm.val 5) C.length) (readRequest idm svc C)) s sends
      answers calls r) :
    Exchanges (Machine.readBlocks svc C) s sends answers calls (r.bind fun F => parseReadRsp s F C.length) := by
  intro p sq rq before
  obtain ⟨p', h'⟩ := h p sq rq before
  exact ⟨p', by rw [readBlocks_ready (State.exchanged_ready hReady _ _ _ _) hSound, h']; rfl⟩

/-- The success response ends READ_BLOCKS with its payload. -/
theorem readBlocks_ok_exchanges (hReady : ReaderReady s idm pmm) (hSound : ReadSound C) {D : List Byte}
    (hD : D.length = 16 * C.length) :
    Exchanges (readBlocks svc C) s [true] [some (readResponse idm C.length D)]
      [.sent (readRequest idm svc C) true,
        .received (timeoutMs (byteAt pmm.val 5) C.length) (some (readResponse idm C.length D))] (.ok D) := by
  rw [← parseReadRsp_readResponse hReady.tag hD hSound.most]
  exact .readBlocks hReady hSound (exchange_answered_exchanges hReady (some _))

/-- What its serializer raises, READ_BLOCKS raises before any call (R145). -/
theorem readBlocks_of_serRead_error (hIdle : s.re.phase = .idle) (h : serRead s svc C = .error e) :
    readBlocks svc C s = (.error e, s) := by
  simp only [readBlocks, reGate_idle hIdle, h]

/-- In each of the ways it can fail, READ_BLOCKS makes the calls that `ReadFails` lists. -/
theorem readBlocks_fails_exchanges (hReady : ReaderReady s idm pmm)
    (h : ReadFails s idm pmm svc C e sends answers calls) :
    Exchanges (readBlocks svc C) s sends answers calls (.error e) := by
  cases h with
  | serializer e hExec =>
    rw [exec_serRead, Host.Outcome.next.injEq, State.reply_inj, resultOf_eq_err] at hExec
    refine .silent fun p sq rq before => ?_
    have hNow := State.exchanged_ready hReady p sq rq before
    exact readBlocks_of_serRead_error hNow.idle (by rw [serRead_congr (hNow.tag.trans hReady.tag.symm), hExec])
  | sendFail hSound => exact .readBlocks hReady hSound (exchange_sendFail_exchanges hReady)
  | noResponse hSound => exact .readBlocks hReady hSound (exchange_answered_exchanges hReady none)
  | response r e hSound hExec =>
    rw [exec_parseReadRsp, Host.Outcome.next.injEq, State.reply_inj, resultOf_eq_err] at hExec
    rw [← hExec]
    exact .readBlocks hReady hSound (exchange_answered_exchanges hReady (some r))

/-! ## WRITE_BLOCKS (R151) -/

/-- WRITE_BLOCKS, as `Exchanges.readBlocks`. -/
theorem Exchanges.writeBlocks {r : Except Err (List Byte)} (hReady : ReaderReady s idm pmm)
    (hSound : WriteSound C data)
    (h : Exchanges (exchange 0x09 C.length (timeoutMs (byteAt pmm.val 6) C.length) (writeRequest idm svc C data)) s
      sends answers calls r) :
    Exchanges (Machine.writeBlocks svc C data) s sends answers calls (r.bind (parseWriteRsp s)) := by
  intro p sq rq before
  obtain ⟨p', h'⟩ := h p sq rq before
  exact ⟨p', by rw [writeBlocks_ready (State.exchanged_ready hReady _ _ _ _) hSound, h']; rfl⟩

theorem writeBlocks_ok_exchanges (hReady : ReaderReady s idm pmm) (hSound : WriteSound C data) :
    Exchanges (writeBlocks svc C data) s [true] [some (writeResponse idm)]
      [.sent (writeRequest idm svc C data) true,
        .received (timeoutMs (byteAt pmm.val 6) C.length) (some (writeResponse idm))] (.ok ()) := by
  rw [← parseWriteRsp_writeResponse hReady.tag]
  exact .writeBlocks hReady hSound (exchange_answered_exchanges hReady (some _))

theorem writeBlocks_of_serWrite_error (hIdle : s.re.phase = .idle) (h : serWrite s svc C data = .error e) :
    writeBlocks svc C data s = (.error e, s) := by
  simp only [writeBlocks, reGate_idle hIdle, h]

/-- WRITE_BLOCKS, as `readBlocks_fails_exchanges`. -/
theorem writeBlocks_fails_exchanges (hReady : ReaderReady s idm pmm)
    (h : WriteFails s idm pmm svc C data e sends answers calls) :
    Exchanges (writeBlocks svc C data) s sends answers calls (.error e) := by
  cases h with
  | serializer e hExec =>
    rw [exec_serWrite, Host.Outcome.next.injEq, State.reply_inj, resultOf_eq_err] at hExec
    refine .silent fun p sq rq before => ?_
    have hNow := State.exchanged_ready hReady p sq rq before
    exact writeBlocks_of_serWrite_error hNow.idle (by rw [serWrite_congr (hNow.tag.trans hReady.tag.symm), hExec])
  | sendFail hSound => exact .writeBlocks hReady hSound (exchange_sendFail_exchanges hReady)
  | noResponse hSound => exact .writeBlocks hReady hSound (exchange_answered_exchanges hReady none)
  | response r e hSound hExec =>
    rw [exec_parseWriteRsp, Host.Outcome.next.injEq, State.reply_inj, resultOf_eq_err] at hExec
    rw [← hExec]
    exact .writeBlocks hReady hSound (exchange_answered_exchanges hReady (some r))

end OneExchange

/-! ## Reads in a row (R174) -/

section Reads

variable {Cs pre : List (List Nat)} {C : List Nat} {D : List Byte} {e : Err}

theorem readChunks_append (pre rest : List (List Nat)) (acc : List Byte) (s : State) :
    readChunks (pre ++ rest) acc s = Run.next (readChunks pre acc s) fun D => readChunks rest D := by
  induction pre generalizing acc s with
  | nil => rfl
  | cons C pre ih =>
    simp only [List.cons_append, readChunks]
    generalize readBlocks s.reader.svcRd C s = run
    obtain ⟨r, u⟩ := run
    cases r with
    | error e => rfl
    | ok p => exact ih (acc ++ p) u

/-- Every chunk answered with its part of `D`: the payloads are put together behind those before. -/
theorem readChunks_exchanges (hReady : ReaderReady s idm pmm) (hSound : ∀ C ∈ Cs, ReadSound C)
    (hD : D.length = 16 * Cs.flatten.length) (acc : List Byte) :
    Exchanges (readChunks Cs acc) s (List.replicate Cs.length true) (readReplies idm Cs D)
      (readLog idm pmm s.reader.svcRd Cs D) (.ok (acc ++ D)) := by
  induction Cs generalizing D acc with
  | nil =>
    obtain rfl : D = [] := List.eq_nil_of_length_eq_zero (by simpa using hD)
    rw [List.append_nil]
    exact .silent fun _ _ _ _ => rfl
  | cons C Cs ih =>
    obtain ⟨hFirst, hRest⟩ := List.forall_mem_cons.1 hSound
    rw [List.flatten_cons, List.length_append] at hD
    have hHead := readBlocks_ok_exchanges (svc := s.reader.svcRd) hReady hFirst (D := D.take (16 * C.length))
      (by rw [List.length_take]; omega)
    have hTail := ih hRest (D := D.drop (16 * C.length)) (by rw [List.length_drop]; omega)
      (acc ++ D.take (16 * C.length))
    rw [List.append_assoc, List.take_append_drop] at hTail
    exact hHead.next hTail

/-- The first chunk whose read fails ends the row. -/
theorem readChunks_fails_exchanges (hReady : ReaderReady s idm pmm) (hSound : ∀ C ∈ pre, ReadSound C)
    (hD : D.length = 16 * pre.flatten.length)
    (hFails : ReadFails s idm pmm s.reader.svcRd C e sends answers calls) (post : List (List Nat)) (acc : List Byte) :
    Exchanges (readChunks (pre ++ C :: post) acc) s (List.replicate pre.length true ++ sends)
      (readReplies idm pre D ++ answers) (readLog idm pmm s.reader.svcRd pre D ++ calls) (.error e) := by
  have hRow := (readChunks_exchanges hReady hSound hD acc).next
    (k := fun D => readChunks (C :: post) D) ((readBlocks_fails_exchanges hReady hFails).next_error _)
  rwa [← funext (readChunks_append pre (C :: post) acc)] at hRow

end Reads

/-! ## Writes in a row (R175) -/

section Writes

variable {ws pre : List (List Nat × List Byte)} {w : List Nat × List Byte} {e : Err}

/-- One WRITE_BLOCKS through SVC_WR for each part, up to the first that fails. -/
def writeAll : List (List Nat × List Byte) → State → Run Unit
  | [], s => (.ok (), s)
  | w :: ws, s => Run.next (writeBlocks s.reader.svcWr w.1 w.2 s) fun _ => writeAll ws

/-- The write loop of R175 writes each chunk with its slice of the data. -/
theorem writeChunks_eq_writeAll (P : List Byte) (Cs : List (List Nat)) (k : Nat) (s : State) :
    writeChunks P Cs k s = writeAll (chunkWrites P Cs k) s := by
  induction Cs generalizing k s with
  | nil => rfl
  | cons C Cs ih =>
    have hSlice : chunkData P k C.length =
        if 16 * (k + C.length) ≤ P.length then (P.drop (16 * k)).take (16 * C.length)
        else Config.freeSlice P (16 * k) (16 * (k + C.length)) := by
      split
      · next hInside => exact chunkData_inside hInside
      · next hPast => exact if_neg hPast
    simp only [writeChunks, chunkWrites, writeAll, hSlice, ih]

/-- Slices inside the data are its successive parts. -/
theorem chunkWrites_eq_splitData {P : List Byte} {Cs : List (List Nat)} {k : Nat}
    (h : 16 * (k + Cs.flatten.length) ≤ P.length) : chunkWrites P Cs k = splitData Cs (P.drop (16 * k)) := by
  induction Cs generalizing k with
  | nil => rfl
  | cons C Cs ih =>
    rw [List.flatten_cons, List.length_append] at h
    rw [chunkWrites, splitData, if_pos (by omega), ih (by omega), List.drop_drop, Nat.mul_add]

theorem length_chunkWrites (P : List Byte) (Cs : List (List Nat)) (k : Nat) :
    (chunkWrites P Cs k).length = Cs.length := by
  induction Cs generalizing k with
  | nil => rfl
  | cons C Cs ih => rw [chunkWrites, List.length_cons, ih, List.length_cons]

theorem writeAll_append (pre rest : List (List Nat × List Byte)) (s : State) :
    writeAll (pre ++ rest) s = Run.next (writeAll pre s) fun _ => writeAll rest := by
  induction pre generalizing s with
  | nil => rfl
  | cons w pre ih =>
    simp only [List.cons_append, writeAll]
    generalize writeBlocks s.reader.svcWr w.1 w.2 s = run
    obtain ⟨r, u⟩ := run
    cases r with
    | error e => rfl
    | ok _ => exact ih u

theorem writeAll_exchanges (hReady : ReaderReady s idm pmm) (hSound : ∀ w ∈ ws, WriteSound w.1 w.2) :
    Exchanges (writeAll ws) s (List.replicate ws.length true)
      (List.replicate ws.length (some (writeResponse idm))) (writeLog idm pmm s.reader.svcWr ws) (.ok ()) := by
  induction ws with
  | nil => exact .silent fun _ _ _ _ => rfl
  | cons w ws ih =>
    obtain ⟨hFirst, hRest⟩ := List.forall_mem_cons.1 hSound
    exact (writeBlocks_ok_exchanges (svc := s.reader.svcWr) hReady hFirst).next (ih hRest)

/-- The first write that fails ends the row. -/
theorem writeAll_fails_exchanges (hReady : ReaderReady s idm pmm) (hSound : ∀ w ∈ pre, WriteSound w.1 w.2)
    (hFails : WriteFails s idm pmm s.reader.svcWr w.1 w.2 e sends answers calls)
    (post : List (List Nat × List Byte)) :
    Exchanges (writeAll (pre ++ w :: post)) s (List.replicate pre.length true ++ sends)
      (List.replicate pre.length (some (writeResponse idm)) ++ answers)
      (writeLog idm pmm s.reader.svcWr pre ++ calls) (.error e) := by
  have hRow := (writeAll_exchanges hReady hSound).next
    (k := fun _ => writeAll (w :: post)) ((writeBlocks_fails_exchanges hReady hFails).next_error _)
  rwa [← funext (writeAll_append pre (w :: post))] at hRow

end Writes

end Scripted

/-! ## READ_CHUNKED and WRITE_CHUNKED with a limit of at least 1 -/

section Chunked

variable {lim : Nat}

theorem exec_readChunked (hLim : 1 ≤ lim) (X : List Nat) (s : State) :
    exec (.readChunked X lim) s =
      .next ((readChunks (chunks X lim) [] s).2.finish .bytes (readChunks (chunks X lim) [] s).1) := by
  have hRun : readChunked X lim s = readChunks (chunks X lim) [] s := if_neg (by omega)
  rw [← hRun]
  rfl

theorem exec_writeChunked (hLim : 1 ≤ lim) (X : List Nat) (P : List Byte) (s : State) :
    exec (.writeChunked X P lim) s =
      .next ((writeAll (chunkWrites P (chunks X lim) 0) s).2.finish (fun _ => .unit)
        (writeAll (chunkWrites P (chunks X lim) 0) s).1) := by
  have hRun : writeChunked X P lim s = writeAll (chunkWrites P (chunks X lim) 0) s :=
    (if_neg (by omega)).trans (writeChunks_eq_writeAll P _ 0 s)
  rw [← hRun]
  rfl

end Chunked

end Sys2Proof.Machine

namespace Sys2Proof.Claims

open Machine

/-- Settles O22: the reads of the chunks in a row, all answered or up to the first that fails. -/
theorem readChunkedConcatenates : Obligations.ReadChunkedConcatenates := by
  unfold Obligations.ReadChunkedConcatenates
  intro X lim D s idm pmm sq rq hReady hLim
  have hExec := exec_readChunked hLim X s
  refine ⟨fun hMost hRange hD hSends hAnswers => ?_,
    fun pre post C e sends answers calls hSplit hSound hD hFails hSends hAnswers => ?_⟩
  · have hSound := readSound_of_mem_chunks hLim hMost hRange
    rw [← flatten_chunks hLim X] at hD
    exact (readChunks_exchanges hReady hSound hD []).ends hExec hSends hAnswers
  · rw [hSplit] at hExec
    rw [← List.append_assoc] at hSends hAnswers
    exact (readChunks_fails_exchanges hReady hSound hD hFails post []).ends hExec hSends hAnswers

/-- Settles O23, as O22; slices inside the data are its successive parts. -/
theorem writeChunkedWritesInOrder : Obligations.WriteChunkedWritesInOrder := by
  unfold Obligations.WriteChunkedWritesInOrder
  intro X lim P s idm pmm sq rq hReady hLim
  have hExec := exec_writeChunked hLim X P s
  refine ⟨fun hLen => ?_, fun hSound hSends hAnswers => ?_,
    fun pre post w e sends answers calls hSplit hSound hFails hSends hAnswers => ?_⟩
  · rw [chunkWrites_eq_splitData (by rw [flatten_chunks hLim]; omega)]
    rfl
  · rw [← length_chunkWrites P _ 0] at hSends hAnswers
    exact (writeAll_exchanges hReady hSound).ends hExec hSends hAnswers
  · rw [hSplit] at hExec
    rw [← List.append_assoc] at hSends hAnswers
    exact (writeAll_fails_exchanges hReady hSound hFails post).ends hExec hSends hAnswers

end Sys2Proof.Claims
end

section
/-! The serializers and LOAD_TAG of RE (R140 to R145): the request frame, or the first error in the order of the checks:
O9, O10, O11. -/

namespace Sys2Proof.Machine

open Claims

/-- LOAD_TAG with RE idle (R140). -/
theorem exec_loadTag_idle {s : State} (h : s.re.phase = .idle) (idm pmm : Bytes 8) :
    exec (.loadTag idm pmm) s = .next ((s.setTag idm pmm).reply (.ok .unit)) := by
  simp only [exec, execLoadTag, reGate_idle h]

section Serializers

variable {s : State} {idm : Bytes 8} {svc : Svc} {blocks pre post : List Nat} {data body : List Byte} {b : Nat}

/-! ## The checks that both serializers end with -/

/-- The block number that BLOCK_RANGE records is the first over 0xFFFF. -/
theorem tooBig_append_cons (hPre : ∀ x ∈ pre, x ≤ 0xFFFF) (hBig : 0xFFFF < b) :
    tooBig (pre ++ b :: post) = some b := by
  have hNone : pre.find? (fun x => decide (x > 0xFFFF)) = none := tooBig_eq_none hPre
  rw [tooBig, List.find?_append, hNone, Option.none_or]
  exact List.find?_cons_of_pos (by simpa using hBig)

/-- BLOCK_RANGE comes before the length of the frame is looked at. -/
theorem finishRequest_blockRange (hPre : ∀ x ∈ pre, x ≤ 0xFFFF) (hBig : 0xFFFF < b) :
    finishRequest body (pre ++ b :: post) = .error (.argument .blockRange b) := by
  simp only [finishRequest, tooBig_append_cons hPre hBig]

/-- FRAME_LEN records the length of the frame that would have been sent. -/
theorem finishRequest_frameLen (hRange : ∀ x ∈ blocks, x ≤ 0xFFFF) (hLong : 255 < (withLength body).length) :
    finishRequest body blocks = .error (.argument .frameLen (withLength body).length) := by
  simp only [finishRequest, tooBig_eq_none hRange]
  exact if_pos hLong

/-! ## SER_READ (R143) -/

theorem serRead_unloaded (h : s.re.idm = none) : serRead s svc blocks = .error (.unconfigured .reTag) := by
  simp only [serRead, reIdm, h]

theorem serRead_nblkRange (hTag : s.re.idm = some idm) (hCount : blocks.length < 1 ∨ 15 < blocks.length) :
    serRead s svc blocks = .error (.argument .nblkRange blocks.length) := by
  simp only [serRead, reIdm, hTag]
  exact if_pos hCount

/-- With a count that SER_READ takes, only the last checks remain. -/
theorem serRead_eq_finishRequest (hTag : s.re.idm = some idm) (hSome : 1 ≤ blocks.length)
    (hMost : blocks.length ≤ 15) :
    serRead s svc blocks = finishRequest (readBody idm svc blocks) blocks := by
  simp only [serRead, reIdm, hTag]
  exact if_neg (by rw [Config.rdMaxBlocks_eq]; omega)

/-- At most 14 + 3 * 15 bytes: FRAME_LEN cannot arise for a read. -/
theorem length_readRequest_le (h : ReadSound blocks) : (readRequest idm svc blocks).length ≤ 59 := by
  have hEntries := length_flatMap_entryOf_le blocks
  have hMost := h.most
  rw [readRequest_eq h.range, length_commandFrame, List.append_nil, length_listsWire_request h.range]
  omega

/-! ## SER_WRITE (R144) -/

theorem serWrite_unloaded (h : s.re.idm = none) :
    serWrite s svc blocks data = .error (.unconfigured .reTag) := by
  simp only [serWrite, reIdm, h]

theorem serWrite_dataLen (hTag : s.re.idm = some idm) (hLen : data.length ≠ 16 * blocks.length) :
    serWrite s svc blocks data = .error (.argument .dataLen data.length) := by
  simp only [serWrite, reIdm, hTag]
  exact if_pos hLen

/-- No blocks and no data agree in length, so that NBLK_RANGE is what they raise. -/
theorem serWrite_nblkRange (hTag : s.re.idm = some idm) :
    serWrite s svc [] [] = .error (.argument .nblkRange 0) := by
  simp only [serWrite, reIdm, hTag]
  rfl

/-- With data of 16 bytes per block, only the last checks remain. -/
theorem serWrite_eq_finishRequest (hTag : s.re.idm = some idm) (hSome : blocks ≠ [])
    (hWhole : data.length = 16 * blocks.length) :
    serWrite s svc blocks data = finishRequest (writeBody idm svc blocks data) blocks := by
  have hPos := List.length_pos_of_ne_nil hSome
  simp only [serWrite, reIdm, hTag]
  rw [if_neg (not_not.2 hWhole), if_neg (by omega)]

/-- The frame of R144 is the body that SER_WRITE builds behind its length. -/
theorem withLength_writeBody (hRange : ∀ x ∈ blocks, x ≤ 0xFFFF) :
    withLength (writeBody idm svc blocks data) = writeRequest idm svc blocks data := by
  rw [writeBody, requestHeader, flatMap_encEntry hRange, le16_eq_lowHigh]
  rfl

theorem serWrite_frameLen (hTag : s.re.idm = some idm) (hSome : blocks ≠ []) (hRange : ∀ x ∈ blocks, x ≤ 0xFFFF)
    (hWhole : data.length = 16 * blocks.length) (hLong : 255 < (writeRequest idm svc blocks data).length) :
    serWrite s svc blocks data = .error (.argument .frameLen (writeRequest idm svc blocks data).length) := by
  rw [← withLength_writeBody hRange] at hLong ⊢
  rw [serWrite_eq_finishRequest hTag hSome hWhole, finishRequest_frameLen hRange hLong]

end Serializers

end Sys2Proof.Machine

namespace Sys2Proof.Claims

open Machine

/-- Settles O9, by the phase of RE. -/
theorem loadTagLoadsBothRegisters : Obligations.LoadTagLoadsBothRegisters := by
  unfold Obligations.LoadTagLoadsBothRegisters
  intro idm pmm s
  exact ⟨fun hIdle => exec_loadTag_idle hIdle idm pmm, fun hAwait => exec_loadTag_await hAwait idm pmm⟩

/-- Settles O10, by one case for each outcome of R143, in the order of its checks. -/
theorem serReadBuildsTheFrame : Obligations.SerReadBuildsTheFrame := by
  unfold Obligations.SerReadBuildsTheFrame
  intro svc blocks s
  simp only [exec_serRead]
  refine ⟨fun hNone => ?_, fun idm hTag => ⟨fun hCount => ?_, fun hSome hMost => ⟨?_, fun hRange => ?_⟩⟩⟩
  · rw [serRead_unloaded hNone]
    rfl
  · rw [serRead_nblkRange hTag hCount]
    rfl
  · rintro pre b post rfl hPre hBig
    rw [serRead_eq_finishRequest hTag hSome hMost, finishRequest_blockRange hPre hBig]
    rfl
  · have hSound : ReadSound blocks := ⟨hSome, hMost, hRange⟩
    rw [serRead_ok hTag hSound]
    exact ⟨length_readRequest_le hSound, rfl⟩

/-- Settles O11, by one case for each outcome of R144, in the order of its checks. -/
theorem serWriteBuildsTheFrame : Obligations.SerWriteBuildsTheFrame := by
  unfold Obligations.SerWriteBuildsTheFrame
  intro svc blocks data s
  simp only [exec_serWrite]
  refine ⟨fun hNone => ?_, fun idm hTag => ⟨fun hLen => ?_, fun hWhole =>
    ⟨?_, ?_, fun hSome hRange => ⟨fun hLong => ?_, fun hFits => ?_⟩⟩⟩⟩
  · rw [serWrite_unloaded hNone]
    rfl
  · rw [serWrite_dataLen hTag hLen]
    rfl
  · rintro rfl
    obtain rfl : data = [] := List.eq_nil_of_length_eq_zero hWhole
    rw [serWrite_nblkRange hTag]
    rfl
  · rintro pre b post rfl hPre hBig
    rw [serWrite_eq_finishRequest hTag (by simp) hWhole, finishRequest_blockRange hPre hBig]
    rfl
  · rw [serWrite_frameLen hTag hSome hRange hWhole hLong]
    rfl
  · rw [serWrite_ok hTag (writeSound_of_length_writeRequest hSome hRange hWhole hFits)]
    rfl

end Sys2Proof.Claims
end

section
/-! The common response check (R146, R149): the first failing check is what both parsers report: O12. -/

namespace Sys2Proof.Machine

open Claims

section Check

variable {s : State} {idm : Bytes 8} {F : List Byte} {rc : Byte} {e : Err}

theorem checkResponse_unloaded (h : s.re.idm = none) : checkResponse s F rc = .error (.unconfigured .reTag) := by
  simp only [checkResponse, reIdm, h]

/-- The checks of R146 with a tag loaded, in their order. -/
theorem checkResponse_loaded (hTag : s.re.idm = some idm) :
    checkResponse s F rc =
      if F.length = 0 ∨ num F 0 ≠ F.length then .error (.framing .lenByte (.num F.length))
      else if F.length < 12 then .error (.framing .short (.num F.length))
      else if byteAt F 1 ≠ rc then .error (.framing .code (.num (num F 1)))
      else if slice F 2 10 ≠ idm.val then .error (.framing .idm (.bytes (slice F 2 10)))
      else if byteAt F 10 ≠ 0x00 ∨ byteAt F 11 ≠ 0x00 then .error (.command (byteAt F 10) (byteAt F 11))
      else .ok () := by
  simp only [checkResponse, reIdm, hTag]
  rfl

/-- A frame whose length byte is sound goes on to the other checks. -/
theorem not_lenByte (hSome : F ≠ []) (hNum : num F 0 = F.length) : ¬ (F.length = 0 ∨ num F 0 ≠ F.length) := by
  have hPos := List.length_pos_of_ne_nil hSome
  omega

/-- What the common check raises, either parser delivers as its result. -/
theorem exec_parser_of_check_error {n : Nat} {i : Instr}
    (hi : rc = 0x07 ∧ i = .parseReadRsp F n ∨ rc = 0x09 ∧ i = .parseWriteRsp F)
    (h : checkResponse s F rc = .error e) : exec i s = .next (s.reply (.err e)) := by
  obtain ⟨rfl, rfl⟩ | ⟨rfl, rfl⟩ := hi
  · rw [exec_parseReadRsp, parseReadRsp, h]
    rfl
  · rw [exec_parseWriteRsp, parseWriteRsp, h]
    rfl

end Check

end Sys2Proof.Machine

namespace Sys2Proof.Claims

open Machine

/-- Settles O12: both parsers deliver what the common check raises, and it raises by one case for each check of R146. -/
theorem responseCheckOrder : Obligations.ResponseCheckOrder := by
  unfold Obligations.ResponseCheckOrder
  intro F n s rc i hi
  refine ⟨fun hNone => exec_parser_of_check_error hi (checkResponse_unloaded hNone), fun idm hTag => ?_⟩
  have hExec : ∀ e, checkResponse s F rc = .error e → exec i s = .next (s.reply (.err e)) :=
    fun _ => exec_parser_of_check_error hi
  rw [checkResponse_loaded hTag] at hExec
  refine ⟨fun hLenByte => hExec _ ?_, fun hSome hNum => ?_⟩
  · exact if_pos (hLenByte.imp_left List.length_eq_zero_iff.2)
  rw [if_neg (not_lenByte hSome hNum)] at hExec
  refine ⟨fun hShort => hExec _ (if_pos hShort), fun h12 => ?_⟩
  rw [if_neg (not_lt.2 h12)] at hExec
  refine ⟨fun hCode => hExec _ (if_pos hCode), fun hCode => ?_⟩
  rw [if_neg (not_not.2 hCode)] at hExec
  refine ⟨fun hIdm => hExec _ (if_pos hIdm), fun hIdm hStatus => hExec _ ?_⟩
  rw [if_neg (not_not.2 hIdm), if_pos hStatus]

end Sys2Proof.Claims
end

section
/-! Errors before any exchange (R145): an ArgumentError or Unconfigured is raised with the state as it was, and what a
serializer raises, its exchange raises: O17. -/

namespace Sys2Proof.Machine

/-- The errors of an operand or of a missing tag (R145). -/
def Err.beforeExchange (e : Err) : Prop := (∃ sub n, e = .argument sub n) ∨ ∃ sub, e = .unconfigured sub

/-- An operation leaves the reader-side host as it was and then delivers one result, with which the host's list ends; if
that is an error of an operand or of a missing tag, it is neither the transport's nor a parser's, so that no call came
before it. -/
theorem eq_reply_of_beforeExchange {α : Type} {s t : State} {i : Instr} {run : Run α} {f : α → Value} {e : Err}
    (hExec : exec i s = .next (run.2.reply (resultOf f run.1))) (hKept : run.2.reader = s.reader)
    (hErrors : ∀ {e u}, run = (.error e, u) →
      u = s ∨ (∃ sub, e = .transport sub) ∨ (∃ sub info, e = .framing sub info) ∨ ∃ a b, e = .command a b)
    (hErr : e.beforeExchange) (hNext : exec i s = .next t)
    (hLast : t.reader.results = s.reader.results ++ [.err e]) : t = s.reply (.err e) := by
  obtain ⟨r, u⟩ := run
  obtain rfl := Host.Outcome.next.inj (hExec.symm.trans hNext)
  change u.reader = s.reader at hKept
  rw [State.reply_reader, hKept] at hLast
  have hRecord : resultOf f r = .err e := by simpa using hLast
  obtain rfl := resultOf_eq_err.1 hRecord
  rcases hErrors rfl with hSame | ⟨sub, rfl⟩ | ⟨sub, info, rfl⟩ | ⟨sf1, sf2, rfl⟩
  · rw [hSame]
    rfl
  all_goals simp [Err.beforeExchange] at hErr

section Exchange

variable {s t : State} {svc : Svc} {blocks : List Nat} {data : List Byte} {e : Err}

theorem exec_readBlocks_beforeExchange (hErr : e.beforeExchange) (hNext : exec (.readBlocks svc blocks) s = .next t)
    (hLast : t.reader.results = s.reader.results ++ [.err e]) : t = s.reply (.err e) :=
  eq_reply_of_beforeExchange (exec_readBlocks svc blocks s) (readBlocks_inside svc blocks s).reader readBlocks_error
    hErr hNext hLast

theorem exec_writeBlocks_beforeExchange (hErr : e.beforeExchange)
    (hNext : exec (.writeBlocks svc blocks data) s = .next t)
    (hLast : t.reader.results = s.reader.results ++ [.err e]) : t = s.reply (.err e) :=
  eq_reply_of_beforeExchange (exec_writeBlocks svc blocks data s) (writeBlocks_inside svc blocks data s).reader
    writeBlocks_error hErr hNext hLast

theorem exec_readBlocks_of_exec_serRead (hIdle : s.re.phase = .idle)
    (h : exec (.serRead svc blocks) s = .next (s.reply (.err e))) :
    exec (.readBlocks svc blocks) s = .next (s.reply (.err e)) := by
  rw [exec_serRead, Host.Outcome.next.injEq, State.reply_inj, resultOf_eq_err] at h
  rw [exec_readBlocks, readBlocks_of_serRead_error hIdle h]
  rfl

theorem exec_writeBlocks_of_exec_serWrite (hIdle : s.re.phase = .idle)
    (h : exec (.serWrite svc blocks data) s = .next (s.reply (.err e))) :
    exec (.writeBlocks svc blocks data) s = .next (s.reply (.err e)) := by
  rw [exec_serWrite, Host.Outcome.next.injEq, State.reply_inj, resultOf_eq_err] at h
  rw [exec_writeBlocks, writeBlocks_of_serWrite_error hIdle h]
  rfl

end Exchange

end Sys2Proof.Machine

namespace Sys2Proof.Claims

open Machine

/-- Settles O17: the record tells which error ended the exchange, and its class that no call came before it. -/
theorem argumentErrorsSendNothing : Obligations.ArgumentErrorsSendNothing := by
  unfold Obligations.ArgumentErrorsSendNothing
  intro svc blocks data s e hErr
  exact ⟨fun _ => exec_readBlocks_beforeExchange hErr, fun _ => exec_writeBlocks_beforeExchange hErr,
    fun hIdle => ⟨exec_readBlocks_of_exec_serRead hIdle, exec_writeBlocks_of_exec_serWrite hIdle⟩⟩

end Sys2Proof.Claims
end

section
/-! GET_ATTR (R171): CACHE, or one read of block 0 that fills CACHE when its checksum holds: O19. -/

namespace Sys2Proof.Machine

open Claims

/-! ## An operation over a script, run from its first state -/

section Runs

variable {α : Type} {op : State → Run α} {s : State} {sends : List Bool} {answers : List (Option (List Byte))}
  {calls : List WireEvent} {r : Except Err α} {sq : List Bool} {rq : List (Option (List Byte))}

theorem Exchanges.run (h : Exchanges op s sends answers calls r) (hSends : s.transport.sendScript = sends ++ sq)
    (hAnswers : s.transport.recvScript = answers ++ rq) : ∃ p, op s = (r, s.exchanged p sq rq calls) := by
  obtain ⟨p, hOp⟩ := h s.re.pend sq rq []
  rw [← hSends, ← hAnswers, State.exchanged_self, List.nil_append] at hOp
  exact ⟨p, hOp⟩

/-- An instruction that makes some exchanges, leaves `c` in CACHE and delivers `v` ends so. -/
theorem ends_of_exec {i : Instr} {p : Pending} {c : Option AttributeBlock} {v : HostResult}
    (h : exec i s = .next (((s.exchanged p sq rq calls).setCache c).reply v)) : Ends i s c sq rq calls v :=
  ⟨_, h, ⟨rfl, rfl, rfl, rfl, rfl, rfl, rfl, rfl⟩, rfl, rfl⟩

end Runs

/-! ## GET_ATTR -/

section GetAttr

variable {s : State} {ab : AttributeBlock}

theorem exec_getAttr (s : State) :
    exec .getAttr s = .next ((getAttr s).2.reply (resultOf .record (getAttr s).1)) := by
  rw [← State.finish_eq_reply]
  rfl

theorem getAttr_cached (h : s.reader.cache = some ab) : getAttr s = (.ok ab, s) := by
  simp only [getAttr, h]

/-- What GET_ATTR makes of block 0 once it is read: only a block whose checksum holds reaches CACHE. -/
def recordBlock (B : List Byte) (s : State) : Run AttributeBlock :=
  if attrValid B then (.ok (attrRecord B), s.setCache (some (attrRecord B)))
  else (.error (.checksum (storedSum B) (csum B)), s)

theorem getAttr_uncached (h : s.reader.cache = none) :
    getAttr s = Run.next (readBlocks s.reader.svcRd [0] s) recordBlock := by
  simp only [getAttr, h]
  rfl

theorem recordBlock_valid {B : List Byte} (h : attrValid B = true) :
    recordBlock B s = (.ok (attrRecord B), s.setCache (some (attrRecord B))) := if_pos h

theorem recordBlock_invalid {B : Block} (h : attrValid B.val = false) :
    recordBlock B.val s = (.error (.checksum (num B.val 14 * 256 + num B.val 15) (sum14 B.val)), s) := by
  have hLen : B.val.length = 16 := B.property
  rw [← csum_eq_sum14 (by omega)]
  exact (if_neg (by simp [h])).trans (by rw [storedSum, pair16_toNat]; rfl)

/-- Block 0 is a read that SER_READ takes. -/
theorem readSound_block_zero : ReadSound [0] := ⟨by simp, by simp, by simp⟩

end GetAttr

/-! ## GET_ATTR with CACHE empty, over a script (log 6) -/

section Uncached

variable {s : State} {idm pmm : Bytes 8} {sq : List Bool} {rq : List (Option (List Byte))} {sends : List Bool}
  {answers : List (Option (List Byte))} {calls : List WireEvent}

/-- A tag that serves the read of block 0. -/
theorem readBlocks_block_zero (hReady : ReaderReady s idm pmm) (B : Block) :
    Exchanges (readBlocks s.reader.svcRd [0]) s [true] [some (readResponse idm 1 B.val)]
      (readLog idm pmm s.reader.svcRd [[0]] B.val) (.ok B.val) := by
  have hTake : B.val.take 16 = B.val := List.take_of_length_le B.property.le
  have hRead := readBlocks_ok_exchanges (svc := s.reader.svcRd) hReady readSound_block_zero (D := B.val) B.property
  have hLog : readLog idm pmm s.reader.svcRd [[0]] B.val =
      [.sent (readRequest idm s.reader.svcRd [0]) true,
        .received (timeoutMs (byteAt pmm.val 5) 1) (some (readResponse idm 1 B.val))] := by
    simp [readLog, hTake]
  rwa [hLog]

theorem getAttr_ends_valid (hReady : ReaderReady s idm pmm) (hCache : s.reader.cache = none) {B : Block}
    (hSends : s.transport.sendScript = true :: sq)
    (hAnswers : s.transport.recvScript = some (readResponse idm 1 B.val) :: rq) (hValid : attrValid B.val = true) :
    Ends .getAttr s (some (attrRecord B.val)) sq rq (readLog idm pmm s.reader.svcRd [[0]] B.val)
      (.ok (.record (attrRecord B.val))) := by
  obtain ⟨p, hRead⟩ := (readBlocks_block_zero hReady B).run hSends hAnswers
  refine ends_of_exec (p := p) ?_
  rw [exec_getAttr, getAttr_uncached hCache, hRead, Run.next_ok, recordBlock_valid hValid]
  rfl

/-- GET_ATTR that fails after any exchanges leaves CACHE empty. -/
theorem getAttr_ends_error {e : Err} (hCache : s.reader.cache = none)
    (h : Exchanges (fun u => Run.next (readBlocks s.reader.svcRd [0] u) recordBlock) s sends answers calls (.error e))
    (hSends : s.transport.sendScript = sends ++ sq) (hAnswers : s.transport.recvScript = answers ++ rq) :
    Ends .getAttr s none sq rq calls (.err e) := by
  have hExec := exec_getAttr s
  rw [← State.finish_eq_reply, getAttr_uncached hCache] at hExec
  have hEnds := h.ends hExec hSends hAnswers
  rwa [hCache] at hEnds

theorem getAttr_ends_invalid (hReady : ReaderReady s idm pmm) (hCache : s.reader.cache = none) {B : Block}
    (hSends : s.transport.sendScript = true :: sq)
    (hAnswers : s.transport.recvScript = some (readResponse idm 1 B.val) :: rq) (hValid : attrValid B.val = false) :
    Ends .getAttr s none sq rq (readLog idm pmm s.reader.svcRd [[0]] B.val)
      (.err (.checksum (num B.val 14 * 256 + num B.val 15) (sum14 B.val))) := by
  have hSum := (readBlocks_block_zero hReady B).next (k := recordBlock)
    (.silent fun _ _ _ _ => recordBlock_invalid hValid)
  rw [List.append_nil, List.append_nil, List.append_nil] at hSum
  exact getAttr_ends_error hCache hSum hSends hAnswers

end Uncached

end Sys2Proof.Machine

namespace Sys2Proof.Claims

open Machine

/-- Settles O19: CACHE answers; or the read of block 0 succeeds with a valid or an invalid block, or it fails. -/
theorem getAttrCachesValidBlocks : Obligations.GetAttrCachesValidBlocks := by
  unfold Obligations.GetAttrCachesValidBlocks
  refine ⟨fun s ab hCache => ?_, fun s idm pmm sq rq hReady hCache => ⟨fun B hSends hAnswers => ?_,
    fun e sends answers calls hFails hSends hAnswers => ?_⟩⟩
  · rw [exec_getAttr, getAttr_cached hCache]
    rfl
  · exact ⟨getAttr_ends_valid hReady hCache hSends hAnswers, getAttr_ends_invalid hReady hCache hSends hAnswers⟩
  · exact getAttr_ends_error hCache ((readBlocks_fails_exchanges hReady hFails).next_error _) hSends hAnswers

end Sys2Proof.Claims
end

section
/-! The chunks of a list, and the edges of the sequences (R172, R174, R175, R178): O20, O21, O27. -/

namespace Sys2Proof.Machine

/-! ## The sizes of the chunks (R172) -/

section Sizes

variable {X : List Nat} {lim fuel : Nat} {C : List Nat}

/-- A list with elements has a first chunk, and its other chunks are those of what is left. -/
theorem chunksFuel_succ (hX : X ≠ []) :
    chunksFuel lim (fuel + 1) X = X.take lim :: chunksFuel lim fuel (X.drop lim) := by
  cases X with
  | nil => exact absurd rfl hX
  | cons x X => rfl

theorem chunksFuel_nil : chunksFuel lim fuel [] = [] := by cases fuel <;> rfl

theorem length_le_of_mem_chunksFuel (hC : C ∈ chunksFuel lim fuel X) : C.length ≤ lim := by
  induction fuel generalizing X with
  | zero => cases hC
  | succ fuel ih =>
    cases X with
    | nil => cases hC
    | cons x X =>
      rcases List.mem_cons.1 hC with rfl | hRest
      · exact List.length_take_le _ _
      · exact ih hRest

/-- When a chunk follows, elements are left, so that the chunk before it is full. -/
theorem length_eq_of_mem_dropLast_chunksFuel (hC : C ∈ (chunksFuel lim fuel X).dropLast) : C.length = lim := by
  induction fuel generalizing X with
  | zero => cases hC
  | succ fuel ih =>
    by_cases hX : X = []
    · rw [hX, chunksFuel_nil] at hC
      cases hC
    · rw [chunksFuel_succ hX] at hC
      by_cases hRest : chunksFuel lim fuel (X.drop lim) = []
      · rw [hRest] at hC
        cases hC
      · rw [List.dropLast_cons_of_ne_nil hRest] at hC
        rcases List.mem_cons.1 hC with rfl | hLater
        · have hLeft : X.drop lim ≠ [] := fun h => hRest (by rw [h, chunksFuel_nil])
          rw [ne_eq, List.drop_eq_nil_iff] at hLeft
          exact List.length_take_of_le (by omega)
        · exact ih hLater

/-- There are as many chunks as full ones fit, and one for a rest. -/
theorem length_chunksFuel (hLim : 1 ≤ lim) (hFuel : X.length ≤ fuel) :
    (chunksFuel lim fuel X).length = (X.length + lim - 1) / lim := by
  induction fuel generalizing X with
  | zero =>
    rw [Nat.le_zero.1 hFuel, Nat.div_eq_of_lt (by omega)]
    rfl
  | succ fuel ih =>
    by_cases hX : X = []
    · rw [hX, chunksFuel_nil, List.length_nil, List.length_nil, Nat.div_eq_of_lt (by omega)]
    · have hPos := List.length_pos_of_ne_nil hX
      rw [chunksFuel_succ hX, List.length_cons, ih (by rw [List.length_drop]; omega), List.length_drop,
        ← Nat.add_div_right _ hLim]
      by_cases hFull : lim ≤ X.length
      · congr 1
        omega
      · rw [Nat.div_eq_of_lt_le (k := 1) (by omega) (by omega), Nat.div_eq_of_lt_le (k := 1) (by omega) (by omega)]

end Sizes

/-! ## A chunk limit of 0, and an empty list (R174, R175) -/

section Limit

variable {X : List Nat} {lim : Nat}

theorem exec_readChunked_run (X : List Nat) (lim : Nat) (s : State) :
    exec (.readChunked X lim) s =
      .next ((readChunked X lim s).2.reply (resultOf .bytes (readChunked X lim s).1)) := by
  rw [← State.finish_eq_reply]
  rfl

theorem exec_writeChunked_run (X : List Nat) (P : List Byte) (lim : Nat) (s : State) :
    exec (.writeChunked X P lim) s =
      .next ((writeChunked X P lim s).2.reply (resultOf (fun _ => .unit) (writeChunked X P lim s).1)) := by
  rw [← State.finish_eq_reply]
  rfl

theorem readChunked_zero (hX : X ≠ []) (s : State) : readChunked X 0 s = (.error (.argument .chunkZero 0), s) :=
  if_pos ⟨List.length_pos_of_ne_nil hX, rfl⟩

theorem writeChunked_zero (hX : X ≠ []) (P : List Byte) (s : State) :
    writeChunked X P 0 s = (.error (.argument .chunkZero 0), s) :=
  if_pos ⟨List.length_pos_of_ne_nil hX, rfl⟩

/-- A limit that suffices for the list: any for the empty one. -/
theorem readChunked_eq_readChunks (h : X = [] ∨ 1 ≤ lim) (s : State) :
    readChunked X lim s = readChunks (chunks X lim) [] s :=
  if_neg fun ⟨hPos, hZero⟩ => h.elim (List.ne_nil_of_length_pos hPos) (by omega)

theorem writeChunked_eq_writeAll (h : X = [] ∨ 1 ≤ lim) (P : List Byte) (s : State) :
    writeChunked X P lim s = writeAll (Claims.chunkWrites P (chunks X lim) 0) s :=
  (if_neg fun ⟨hPos, hZero⟩ => h.elim (List.ne_nil_of_length_pos hPos) (by omega)).trans
    (writeChunks_eq_writeAll P _ 0 s)

theorem flatten_chunks_of_limit (h : X = [] ∨ 1 ≤ lim) : (chunks X lim).flatten = X := by
  rcases h with rfl | hLim
  · rfl
  · exact flatten_chunks hLim X

end Limit

/-! ## The records of NDEF_GET and NDEF_SET -/

theorem exec_ndefGet (s : State) :
    exec .ndefGet s = .next ((ndefGet s).2.reply (resultOf .bytes (ndefGet s).1)) := by
  rw [← State.finish_eq_reply]
  rfl

theorem exec_ndefSet (data : List Byte) (s : State) :
    exec (.ndefSet data) s = .next ((ndefSet data s).2.reply (resultOf (fun _ => .unit) (ndefSet data s).1)) := by
  rw [← State.finish_eq_reply]
  rfl

theorem Run.invalidate_cache {α : Type} (r : Run α) : r.invalidate.2.reader.cache = none := rfl

end Sys2Proof.Machine

namespace Sys2Proof.Claims

open Machine

/-- Settles O20. -/
theorem chunksSplitTheList : Obligations.ChunksSplitTheList := by
  unfold Obligations.ChunksSplitTheList
  intro X lim hLim
  exact ⟨flatten_chunks hLim X,
    fun C hC => ⟨length_pos_of_mem_chunks hLim hC, length_le_of_mem_chunksFuel hC⟩,
    fun C hC => length_eq_of_mem_dropLast_chunksFuel hC, length_chunksFuel hLim le_rfl⟩

/-- Settles O21: with a limit of 0 the operation ends at its check; an empty list has no chunk, hence no exchange. -/
theorem chunkLimitZero : Obligations.ChunkLimitZero := by
  unfold Obligations.ChunkLimitZero
  refine ⟨fun X P s hX => ⟨?_, ?_⟩, fun P lim s => ⟨?_, ?_⟩⟩
  · rw [exec_readChunked_run, readChunked_zero hX]
    rfl
  · rw [exec_writeChunked_run, writeChunked_zero hX]
    rfl
  · rw [exec_readChunked_run, readChunked_eq_readChunks (.inl rfl)]
    rfl
  · rw [exec_writeChunked_run, writeChunked_eq_writeAll (.inl rfl)]
    rfl

/-- Settles O27: whatever the steps end with, the invalidation of R178 comes after them, and the record after it leaves
CACHE alone. -/
theorem cacheEmptyAfterGetAndSet : Obligations.CacheEmptyAfterGetAndSet := by
  unfold Obligations.CacheEmptyAfterGetAndSet
  intro s data
  exact ⟨⟨_, exec_ndefGet s, Run.invalidate_cache (ndefGetSteps s)⟩,
    ⟨_, exec_ndefSet data s, Run.invalidate_cache (ndefSetSteps data s)⟩⟩

end Sys2Proof.Claims
end

section
/-! NDEF_GET over a scripted transport (R177; log 6): GET_ATTR, then the reads in a row, and CACHE empty however they
end: O24. -/

namespace Sys2Proof.Machine

open Claims

/-! ## Exchanges that leave something in CACHE -/

/-- As `Exchanges`, and CACHE is `c` after it. -/
def Caches {α : Type} (op : State → Run α) (s : State) (c : Option AttributeBlock) (sends : List Bool)
    (answers : List (Option (List Byte))) (calls : List WireEvent) (r : Except Err α) : Prop :=
  ∀ (p : Pending) (sq : List Bool) (rq : List (Option (List Byte))) (before : List WireEvent), ∃ p' : Pending,
    op (s.exchanged p (sends ++ sq) (answers ++ rq) before) =
      (r, (s.setCache c).exchanged p' sq rq (before ++ calls))

section Caching

variable {s : State} {c d : Option AttributeBlock} {sends sends' : List Bool}
  {answers answers' : List (Option (List Byte))} {calls calls' : List WireEvent} {α β : Type} {op : State → Run α}
  {r : Except Err α}

theorem Exchanges.caches (h : Exchanges op s sends answers calls r) (hCache : s.reader.cache = c) :
    Caches op s c sends answers calls r := by
  subst hCache
  exact h

theorem Caches.next {k : α → State → Run β} {v : α} {r : Except Err β}
    (h : Caches op s c sends answers calls (.ok v)) (hk : Caches (k v) (s.setCache c) d sends' answers' calls' r) :
    Caches (fun u => Run.next (op u) k) s d (sends ++ sends') (answers ++ answers') (calls ++ calls') r := by
  intro p sq rq before
  obtain ⟨p1, h1⟩ := h p (sends' ++ sq) (answers' ++ rq) before
  obtain ⟨p2, h2⟩ := hk p1 sq rq (before ++ calls)
  refine ⟨p2, ?_⟩
  simp only [List.append_assoc] at h1 h2 ⊢
  rw [h1, Run.next_ok, h2]
  rfl

/-- The first error ends a sequence, and there is no later call (R243). -/
theorem Caches.next_error {e : Err} (h : Caches op s c sends answers calls (.error e)) (k : α → State → Run β) :
    Caches (fun u => Run.next (op u) k) s c sends answers calls (.error e) := by
  intro p sq rq before
  obtain ⟨p1, h1⟩ := h p sq rq before
  exact ⟨p1, by simp only [h1, Run.next_error]⟩

/-- The invalidation of R178, however the sequence ends. -/
theorem Caches.invalidate (h : Caches op s c sends answers calls r) :
    Caches (fun u => (op u).invalidate) s none sends answers calls r := by
  intro p sq rq before
  obtain ⟨p1, h1⟩ := h p sq rq before
  exact ⟨p1, by simp only [h1, Run.invalidate]; rfl⟩

/-- What is done after CACHE has been emptied. -/
theorem Caches.after_emptying (h : Caches op (s.setCache none) c sends answers calls r) :
    Caches (fun u => op (u.setCache none)) s c sends answers calls r := h

/-- An instruction that runs `op` and delivers its result ends as `op` does. -/
theorem Caches.ends {i : Instr} {f : α → Value} {sq : List Bool} {rq : List (Option (List Byte))}
    (h : Caches op s c sends answers calls r) (hExec : exec i s = .next ((op s).2.reply (resultOf f (op s).1)))
    (hSends : s.transport.sendScript = sends ++ sq) (hAnswers : s.transport.recvScript = answers ++ rq) :
    Ends i s c sq rq calls (resultOf f r) := by
  obtain ⟨p, hOp⟩ := h s.re.pend sq rq []
  rw [← hSends, ← hAnswers, State.exchanged_self, List.nil_append] at hOp
  rw [hOp] at hExec
  exact ends_of_exec hExec

end Caching

/-! ## What CACHE does not touch -/

section OtherCache

variable {s : State} {idm pmm : Bytes 8} {svc : Svc} {C : List Nat} {data : List Byte} {e : Err} {sends : List Bool}
  {answers : List (Option (List Byte))} {calls : List WireEvent}

theorem readerReady_setCache (h : ReaderReady s idm pmm) (c : Option AttributeBlock) :
    ReaderReady (s.setCache c) idm pmm :=
  ⟨h.idle, h.tag, h.timing, h.link⟩

/-- The ways in which a read can fail do not depend on CACHE. -/
theorem readFails_setCache (h : ReadFails s idm pmm svc C e sends answers calls) (c : Option AttributeBlock) :
    ReadFails (s.setCache c) idm pmm svc C e sends answers calls := by
  cases h with
  | serializer e hExec =>
    rw [exec_serRead, Host.Outcome.next.injEq, State.reply_inj, resultOf_eq_err] at hExec
    refine .serializer e ?_
    rw [exec_serRead, serRead_congr (congrArg Re.idm (State.setCache_re s c)), hExec]
    rfl
  | sendFail hSound => exact .sendFail hSound
  | noResponse hSound => exact .noResponse hSound
  | response r e hSound hExec =>
    rw [exec_parseReadRsp, Host.Outcome.next.injEq, State.reply_inj, resultOf_eq_err] at hExec
    refine .response r e hSound ?_
    rw [exec_parseReadRsp, parseReadRsp_congr (congrArg Re.idm (State.setCache_re s c)), hExec]
    rfl

/-- The ways in which a write can fail, as `readFails_setCache`. -/
theorem writeFails_setCache (h : WriteFails s idm pmm svc C data e sends answers calls) (c : Option AttributeBlock) :
    WriteFails (s.setCache c) idm pmm svc C data e sends answers calls := by
  cases h with
  | serializer e hExec =>
    rw [exec_serWrite, Host.Outcome.next.injEq, State.reply_inj, resultOf_eq_err] at hExec
    refine .serializer e ?_
    rw [exec_serWrite, serWrite_congr (congrArg Re.idm (State.setCache_re s c)), hExec]
    rfl
  | sendFail hSound => exact .sendFail hSound
  | noResponse hSound => exact .noResponse hSound
  | response r e hSound hExec =>
    rw [exec_parseWriteRsp, Host.Outcome.next.injEq, State.reply_inj, resultOf_eq_err] at hExec
    refine .response r e hSound ?_
    rw [exec_parseWriteRsp, parseWriteRsp_congr (congrArg Re.idm (State.setCache_re s c)), hExec]
    rfl

theorem attrFails_setCache (h : AttrFails s idm pmm e sends answers calls) (c : Option AttributeBlock) :
    AttrFails (s.setCache c) idm pmm e sends answers calls := by
  cases h with
  | read e sends answers calls hFails => exact .read e sends answers calls (readFails_setCache hFails c)
  | checksum B hValid => exact .checksum B hValid

end OtherCache

/-! ## The first GET_ATTR of a sequence (R171) -/

section FirstAttr

variable {s : State} {idm pmm : Bytes 8} {B : Block} {e : Err} {sends : List Bool}
  {answers : List (Option (List Byte))} {calls : List WireEvent}

theorem readReplies_block_zero (idm : Bytes 8) (B : Block) :
    readReplies idm [[0]] B.val = [some (readResponse idm 1 B.val)] := by
  have hTake : B.val.take 16 = B.val := List.take_of_length_le B.property.le
  simp [readReplies, hTake]

/-- GET_ATTR with CACHE empty is a read of block 0 and what it makes of it. -/
theorem getAttr_caches_of_uncached {c : Option AttributeBlock} {r : Except Err AttributeBlock}
    (hCache : s.reader.cache = none)
    (h : Caches (fun u => Run.next (readBlocks s.reader.svcRd [0] u) recordBlock) s c sends answers calls r) :
    Caches getAttr s c sends answers calls r := by
  intro p sq rq before
  obtain ⟨p', hOp⟩ := h p sq rq before
  have hUncached := getAttr_uncached (s := s.exchanged p (sends ++ sq) (answers ++ rq) before) hCache
  exact ⟨p', hUncached.trans hOp⟩

/-- GET_ATTR answers CACHE, or the record of block 0 after one read; CACHE is full after it. -/
theorem getAttr_caches (h : AttrReady s idm pmm B) :
    Caches getAttr s (some (firstAttr s B)) (List.replicate (attrReads s.reader.cache).length true)
      (readReplies idm (attrReads s.reader.cache) B.val)
      (readLog idm pmm s.reader.svcRd (attrReads s.reader.cache) B.val) (.ok (firstAttr s B)) := by
  cases hCache : s.reader.cache with
  | some ab =>
    have hFirst : firstAttr s B = ab := by rw [firstAttr, hCache, Option.getD_some]
    have hSilent : Exchanges getAttr s [] [] [] (.ok ab) := .silent fun _ _ _ _ => getAttr_cached hCache
    rw [hFirst]
    exact hSilent.caches hCache
  | none =>
    have hFirst : firstAttr s B = attrRecord B.val := by rw [firstAttr, hCache, Option.getD_none]
    have hRead := (readBlocks_block_zero h.ready B).caches hCache
    have hRecord : Caches (recordBlock B.val) (s.setCache none) (some (attrRecord B.val)) [] [] []
        (.ok (attrRecord B.val)) := fun p sq rq before =>
      ⟨p, by rw [List.append_nil]; exact recordBlock_valid (h.valid hCache)⟩
    have hRun := hRead.next hRecord
    rw [List.append_nil, List.append_nil, List.append_nil, ← readReplies_block_zero] at hRun
    rw [hFirst]
    exact getAttr_caches_of_uncached hCache hRun

/-- GET_ATTR with CACHE empty, in each of the ways it can fail. -/
theorem getAttr_fails_caches (hReady : ReaderReady s idm pmm) (hCache : s.reader.cache = none)
    (h : AttrFails s idm pmm e sends answers calls) : Caches getAttr s none sends answers calls (.error e) := by
  refine getAttr_caches_of_uncached hCache (Exchanges.caches ?_ hCache)
  cases h with
  | read e sends answers calls hFails => exact (readBlocks_fails_exchanges hReady hFails).next_error _
  | checksum B hValid =>
    have hSum := (readBlocks_block_zero hReady B).next (k := recordBlock)
      (.silent fun _ _ _ _ => recordBlock_invalid hValid)
    rwa [List.append_nil, List.append_nil, List.append_nil] at hSum

end FirstAttr

/-! ## NDEF_GET once the record of block 0 is known (R177) -/

/-- The steps of NDEF_GET after GET_ATTR has answered `ab`. -/
def readMessage (ab : AttributeBlock) (s : State) : Run (List Byte) :=
  if messageBlocks ab.ln.toNat > 0 ∧ ab.nbr = 0 then (.error (.argument .chunkZero 0), s)
  else Run.next (readChunked (messageRange ab.ln.toNat) ab.nbr.toNat s) fun D t => (.ok (D.take ab.ln.toNat), t)

theorem ndefGet_eq (s : State) : ndefGet s = (Run.next (getAttr s) readMessage).invalidate := rfl

section ReadMessage

variable {ab : AttributeBlock}

theorem length_blocksOfMessage (ln : Nat) : (blocksOfMessage ln).length = (ln + 15) / 16 := List.length_range'

/-- A chunk limit suffices for a message when it is not 0 or the message is empty. -/
theorem blocksOfMessage_limit {ln lim : Nat} (h : ln = 0 ∨ 1 ≤ lim) : blocksOfMessage ln = [] ∨ 1 ≤ lim :=
  h.imp_left fun hZero => by rw [hZero]; rfl

theorem readMessage_chunkZero (hLn : ab.ln.toNat ≠ 0) (hZero : ab.nbr = 0) (s : State) :
    readMessage ab s = (.error (.argument .chunkZero 0), s) :=
  if_pos ⟨by unfold messageBlocks; omega, hZero⟩

theorem readMessage_eq (h : ab.ln.toNat = 0 ∨ 1 ≤ ab.nbr.toNat) (s : State) :
    readMessage ab s =
      Run.next (readChunks (chunks (blocksOfMessage ab.ln.toNat) ab.nbr.toNat) [] s)
        fun D t => (.ok (D.take ab.ln.toNat), t) := by
  rw [← readChunked_eq_readChunks (blocksOfMessage_limit h)]
  refine if_neg fun ⟨hSome, hZero⟩ => ?_
  have hNbr : ab.nbr.toNat = 0 := by rw [hZero]; rfl
  unfold messageBlocks at hSome
  omega

end ReadMessage

section Get

variable {s : State} {idm pmm : Bytes 8} {B : Block} {ab : AttributeBlock} {sends : List Bool}
  {answers : List (Option (List Byte))} {calls : List WireEvent}

/-- NDEF_GET makes the exchanges of GET_ATTR and then those of its other steps, and CACHE is empty after it. -/
theorem ndefGet_caches {r : Except Err (List Byte)} (h : AttrReady s idm pmm B)
    (hMessage : Exchanges (readMessage (firstAttr s B)) (s.setCache (some (firstAttr s B))) sends answers calls r) :
    Caches ndefGet s none (List.replicate (attrReads s.reader.cache).length true ++ sends)
      (readReplies idm (attrReads s.reader.cache) B.val ++ answers)
      (readLog idm pmm s.reader.svcRd (attrReads s.reader.cache) B.val ++ calls) r :=
  ((getAttr_caches h).next (hMessage.caches rfl)).invalidate

/-- Every chunk of the message answered: the first `ln` bytes of what the tag gave. -/
theorem readMessage_exchanges (hReady : ReaderReady s idm pmm) (hLim : ab.ln.toNat = 0 ∨ 1 ≤ ab.nbr.toNat)
    (hSound : ∀ C ∈ chunks (blocksOfMessage ab.ln.toNat) ab.nbr.toNat, ReadSound C) {D : List Byte}
    (hD : D.length = 16 * ((ab.ln.toNat + 15) / 16)) :
    Exchanges (readMessage ab) s
      (List.replicate (chunks (blocksOfMessage ab.ln.toNat) ab.nbr.toNat).length true)
      (readReplies idm (chunks (blocksOfMessage ab.ln.toNat) ab.nbr.toNat) D)
      (readLog idm pmm s.reader.svcRd (chunks (blocksOfMessage ab.ln.toNat) ab.nbr.toNat) D)
      (.ok (D.take ab.ln.toNat)) := by
  have hFlat := flatten_chunks_of_limit (blocksOfMessage_limit hLim)
  have hRow := (readChunks_exchanges hReady hSound (D := D) (by rw [hFlat, length_blocksOfMessage, hD]) []).next
    (k := fun D t => (.ok (D.take ab.ln.toNat), t)) (.silent fun _ _ _ _ => rfl)
  rw [List.append_nil, List.append_nil, List.append_nil, ← funext (readMessage_eq hLim)] at hRow
  exact hRow

/-- The first chunk of the message whose read fails ends it. -/
theorem readMessage_fails_exchanges {pre post : List (List Nat)} {C : List Nat} {D : List Byte} {e : Err}
    (hReady : ReaderReady s idm pmm) (hLim : ab.ln.toNat = 0 ∨ 1 ≤ ab.nbr.toNat)
    (hSplit : chunks (blocksOfMessage ab.ln.toNat) ab.nbr.toNat = pre ++ C :: post)
    (hSound : ∀ C ∈ pre, ReadSound C) (hD : D.length = 16 * pre.flatten.length)
    (hFails : ReadFails s idm pmm s.reader.svcRd C e sends answers calls) :
    Exchanges (readMessage ab) s (List.replicate pre.length true ++ sends) (readReplies idm pre D ++ answers)
      (readLog idm pmm s.reader.svcRd pre D ++ calls) (.error e) := by
  rw [funext (readMessage_eq hLim), hSplit]
  exact (readChunks_fails_exchanges hReady hSound hD hFails post []).next_error _

end Get

end Sys2Proof.Machine

namespace Sys2Proof.Claims

open Machine

/-- Settles O24: GET_ATTR fails; or it answers, and the other steps end at the check of nbr, with the message, or at the
first chunk whose read fails. -/
theorem ndefGetReturnsTheMessage : Obligations.NdefGetReturnsTheMessage := by
  unfold Obligations.NdefGetReturnsTheMessage
  intro s idm pmm sq rq
  refine ⟨fun hReady hCache e sends answers calls hFails hSends hAnswers => ?_, ?_⟩
  · exact ((getAttr_fails_caches hReady hCache hFails).next_error readMessage).invalidate.ends (exec_ndefGet s) hSends
      hAnswers
  · rintro B _ _ _ D hAttr rfl rfl rfl
    have hReady := readerReady_setCache hAttr.ready (some (firstAttr s B))
    refine ⟨fun hLn hZero hSends hAnswers => ?_, fun hLim => ⟨fun hSound hD hSends hAnswers => ?_,
      fun pre post C e sends answers calls hSplit hSound hD hFails hSends hAnswers => ?_⟩⟩
    · have hGet := ndefGet_caches hAttr (.silent fun _ _ _ _ => readMessage_chunkZero hLn hZero _)
      rw [List.append_nil, List.append_nil, List.append_nil] at hGet
      exact hGet.ends (exec_ndefGet s) hSends hAnswers
    · have hGet := ndefGet_caches hAttr (readMessage_exchanges hReady hLim hSound hD)
      rw [← List.replicate_add] at hGet
      rw [← List.append_assoc] at hAnswers
      exact hGet.ends (exec_ndefGet s) hSends hAnswers
    · have hGet := ndefGet_caches hAttr
        (readMessage_fails_exchanges hReady hLim hSplit hSound hD (readFails_setCache hFails _))
      exact hGet.ends (exec_ndefGet s) (by simpa only [List.replicate_add, List.append_assoc] using hSends)
        (by simpa only [List.append_assoc] using hAnswers)

end Sys2Proof.Claims
end

section
/-! NDEF_SET over a scripted transport (R179; log 6): its checks, GET_ATTR again, then the writes in a row: O25. -/

namespace Sys2Proof.Machine

open Claims

/-! ## NDEF_SET once the record of block 0 is known (R179) -/

/-- The steps of NDEF_SET after the first GET_ATTR has answered `ab`. -/
def checkAndWrite (data : List Byte) (ab : AttributeBlock) (s : State) : Run Unit :=
  if ab.writeable = false then (.error (.policy .notWriteable 0), s)
  else if data.length > capacity ab then (.error (.policy .capacity data.length), s)
  else Run.next (getAttr (s.setCache none)) (ndefSetWrites data)

theorem ndefSet_eq (data : List Byte) (s : State) :
    ndefSet data s = (Run.next (getAttr s) (checkAndWrite data)).invalidate := rfl

section SetSteps

variable {s : State} {data : List Byte} {ab : AttributeBlock}

/-- With its checks passed, NDEF_SET goes on. -/
theorem checkAndWrite_allowed (hWriteable : ab.writeable = true) (hCapacity : data.length ≤ 16 * ab.nmaxb.toNat) :
    checkAndWrite data ab = fun s => Run.next (getAttr (s.setCache none)) (ndefSetWrites data) := by
  funext s
  exact (if_neg (by simp [hWriteable])).trans (if_neg (Nat.not_lt.2 hCapacity))

/-! ## The writes in a row -/

theorem padded_eq_paddedMessage (data : List Byte) : padded data = paddedMessage data := by
  rw [padded, paddedMessage, zeros]
  congr 2
  omega

theorem length_paddedMessage (data : List Byte) : (paddedMessage data).length = 16 * ((data.length + 15) / 16) := by
  rw [paddedMessage, List.length_append, List.length_replicate]
  omega

/-- An operation with no value that goes on to nothing. -/
theorem Run.next_unit (r : Run Unit) : (Run.next r fun _ t => (.ok (), t)) = r := by
  obtain ⟨r, t⟩ := r
  cases r <;> rfl

theorem ndefSetWrites_chunkZero (hData : data ≠ []) (hZero : ab.nbw = 0) (s : State) :
    ndefSetWrites data ab s = (.error (.argument .chunkZero 0), s) :=
  if_pos ⟨List.length_pos_of_ne_nil hData, hZero⟩

theorem blocksOfMessage_data_limit {lim : Nat} (h : data = [] ∨ 1 ≤ lim) :
    blocksOfMessage data.length = [] ∨ 1 ≤ lim :=
  blocksOfMessage_limit (h.imp_left fun hNil => by rw [hNil]; rfl)

theorem flatten_message_chunks {lim : Nat} (h : data = [] ∨ 1 ≤ lim) :
    (chunks (blocksOfMessage data.length) lim).flatten = blocksOfMessage data.length :=
  flatten_chunks_of_limit (blocksOfMessage_data_limit h)

/-- The zero-padded message fills its blocks, so that every slice lies inside it. -/
theorem writeChunked_message {lim : Nat} (h : data = [] ∨ 1 ≤ lim) (s : State) :
    writeChunked (messageRange data.length) (padded data) lim s =
      writeAll (splitData (chunks (blocksOfMessage data.length) lim) (paddedMessage data)) s := by
  have hLen := length_paddedMessage data
  have hBlocks := length_blocksOfMessage data.length
  have hSplit := chunkWrites_eq_splitData (P := paddedMessage data) (Cs := chunks (blocksOfMessage data.length) lim)
    (k := 0) (by rw [flatten_message_chunks h]; omega)
  rw [padded_eq_paddedMessage]
  exact (writeChunked_eq_writeAll (blocksOfMessage_data_limit h) _ s).trans (by rw [hSplit]; rfl)

/-- The writes of NDEF_SET are one row: block 0, the message, block 0. -/
theorem ndefSetWrites_eq_writeAll (h : data = [] ∨ 1 ≤ ab.nbw.toNat) (s : State) :
    ndefSetWrites data ab s = writeAll (setWrites data ab) s := by
  have hLimit : ¬ (data.length > 0 ∧ ab.nbw = 0) := fun ⟨hSome, hZero⟩ => by
    have hNbw : ab.nbw.toNat = 0 := by rw [hZero]; rfl
    have hNil := h.resolve_right (by omega)
    rw [hNil] at hSome
    exact Nat.lt_irrefl 0 hSome
  rw [ndefSetWrites, if_neg hLimit]
  simp only [setWrites, writeAll, funext (writeAll_append _ [_]), Run.next_unit, writeChunked_message h]

/-! ## The operands of the writes -/

/-- Each part of the split data is 16 bytes for each of its blocks. -/
theorem mem_splitData {Cs : List (List Nat)} {P : List Byte} {w : List Nat × List Byte} (hw : w ∈ splitData Cs P)
    (hP : P.length = 16 * Cs.flatten.length) : w.1 ∈ Cs ∧ w.2.length = 16 * w.1.length := by
  induction Cs generalizing P with
  | nil => cases hw
  | cons C Cs ih =>
    rw [List.flatten_cons, List.length_append] at hP
    rcases List.mem_cons.1 hw with rfl | hRest
    · exact ⟨List.mem_cons_self, List.length_take_of_le (by omega)⟩
    · obtain ⟨hMem, hLen⟩ := ih hRest (by rw [List.length_drop]; omega)
      exact ⟨List.mem_cons_of_mem _ hMem, hLen⟩

theorem le_of_mem_blocksOfMessage {ln b : Nat} (h : b ∈ blocksOfMessage ln) : b ≤ (ln + 15) / 16 := by
  have := (List.mem_range'_1.1 h).2
  omega

/-- A message within a capacity has block numbers of 16 bits (R35). -/
theorem blocks_le_of_capacity {b : Nat} (hCapacity : data.length ≤ 16 * ab.nmaxb.toNat)
    (h : b ∈ blocksOfMessage data.length) : b ≤ 0xFFFF := by
  have hLast := le_of_mem_blocksOfMessage h
  have hBits := ab.nmaxb.isLt
  omega

theorem writeSound_block_zero {B : List Byte} (hLen : B.length = 16) : WriteSound [0] B :=
  ⟨by simp, by simp, hLen, by simp [WriteFits, entryOf]⟩

/-- What NDEF_SET writes, SER_WRITE takes when it fits a frame (R144). -/
theorem writeSound_of_mem_setWrites {w : List Nat × List Byte} (hLim : data = [] ∨ 1 ≤ ab.nbw.toNat)
    (hRange : ∀ b ∈ blocksOfMessage data.length, b ≤ 0xFFFF) (hw : w ∈ setWrites data ab) (hFits : WriteFits w.1) :
    WriteSound w.1 w.2 := by
  rw [setWrites, List.mem_cons, List.mem_append, List.mem_singleton] at hw
  rcases hw with rfl | hPart | rfl
  · exact writeSound_block_zero (length_attrSerialize _)
  · obtain ⟨hChunk, hWhole⟩ := mem_splitData hPart
      (by rw [flatten_message_chunks hLim, length_blocksOfMessage, length_paddedMessage])
    have hMem : ∀ b ∈ w.1, b ∈ blocksOfMessage data.length := fun b hb => by
      rw [← flatten_message_chunks hLim]
      exact List.mem_flatten_of_mem hChunk hb
    refine ⟨?_, fun b hb => hRange b (hMem b hb), hWhole, hFits⟩
    rcases blocksOfMessage_data_limit hLim with hNone | hPos
    · rw [hNone] at hChunk
      cases hChunk
    · exact length_pos_of_mem_chunks hPos hChunk
  · exact writeSound_block_zero (length_attrSerialize _)

end SetSteps

/-! ## NDEF_SET over a script -/

section Set

variable {s : State} {idm pmm : Bytes 8} {B B2 : Block} {data : List Byte} {sends : List Bool}
  {answers : List (Option (List Byte))} {calls : List WireEvent} {r : Except Err Unit}

/-- NDEF_SET makes the exchanges of its first GET_ATTR and then those of its steps after the checks. -/
theorem ndefSet_caches {c : Option AttributeBlock} (h : SetAllowed data s idm pmm B)
    (hRest : Caches (fun u => Run.next (getAttr u) (ndefSetWrites data)) (s.setCache none) c sends answers calls r) :
    Caches (ndefSet data) s none (List.replicate (attrReads s.reader.cache).length true ++ sends)
      (readReplies idm (attrReads s.reader.cache) B.val ++ answers)
      (readLog idm pmm s.reader.svcRd (attrReads s.reader.cache) B.val ++ calls) r := by
  have hChecked : Caches (checkAndWrite data (firstAttr s B)) (s.setCache (some (firstAttr s B))) c sends answers calls
      r := by
    rw [checkAndWrite_allowed h.writeable h.capacity]
    exact Caches.after_emptying hRest
  exact ((getAttr_caches h.attr).next hChecked).invalidate

/-- Both GET_ATTRs succeed, and the exchanges of the writes follow theirs. -/
theorem ndefSet_ends {sq : List Bool} {rq : List (Option (List Byte))} (h : SetAllowed data s idm pmm B)
    (hValid : attrValid B2.val = true)
    (hWrites : Exchanges (ndefSetWrites data (attrRecord B2.val)) (s.setCache (some (attrRecord B2.val))) sends answers
      calls r)
    (hSends : s.transport.sendScript =
      List.replicate ((attrReads s.reader.cache).length + 1) true ++ (sends ++ sq))
    (hAnswers : s.transport.recvScript = readReplies idm (attrReads s.reader.cache) B.val ++
      (readReplies idm [[0]] B2.val ++ (answers ++ rq))) :
    Ends (.ndefSet data) s none sq rq
      (readLog idm pmm s.reader.svcRd (attrReads s.reader.cache) B.val ++
        readLog idm pmm s.reader.svcRd [[0]] B2.val ++ calls) (resultOf (fun _ => .unit) r) := by
  have hSecond : AttrReady (s.setCache none) idm pmm B2 := ⟨readerReady_setCache h.attr.ready none, fun _ => hValid⟩
  have hSet := ndefSet_caches h ((getAttr_caches hSecond).next (hWrites.caches rfl))
  rw [List.replicate_add, List.append_assoc] at hSends
  rw [List.append_assoc]
  exact hSet.ends (exec_ndefSet data s) (by rw [hSends, List.append_assoc]; rfl)
    (by rw [hAnswers, List.append_assoc]; rfl)

end Set

end Sys2Proof.Machine

namespace Sys2Proof.Claims

open Machine

/-- Settles O25: the first GET_ATTR fails; or it answers and the second fails; or both answer, and the row of writes
ends at the check of nbw, with Ok(), or at the first write that fails. -/
theorem ndefSetWritesInOrder : Obligations.NdefSetWritesInOrder := by
  unfold Obligations.NdefSetWritesInOrder
  intro data s idm pmm sq rq
  have hExec := exec_ndefSet data s
  refine ⟨fun hReady hCache e sends answers calls hFails hSends hAnswers => ?_, ?_⟩
  · exact ((getAttr_fails_caches hReady hCache hFails).next_error (checkAndWrite data)).invalidate.ends hExec hSends
      hAnswers
  rintro B1 _ hAllowed rfl
  have hReady := hAllowed.attr.ready
  refine ⟨fun e sends answers calls hFails hSends hAnswers => ?_, ?_⟩
  · have hSecond := (getAttr_fails_caches (readerReady_setCache hReady none) rfl
      (attrFails_setCache hFails none)).next_error (ndefSetWrites data)
    rw [← List.append_assoc] at hSends hAnswers
    exact (ndefSet_caches hAllowed hSecond).ends hExec hSends hAnswers
  rintro B2 _ _ hValid rfl rfl
  refine ⟨fun hData hZero hSends hAnswers => ?_, fun hLim => ?_⟩
  · have hEnds := ndefSet_ends (sends := []) (answers := []) hAllowed hValid
      (.silent fun _ _ _ _ => ndefSetWrites_chunkZero hData hZero _) hSends hAnswers
    rwa [List.append_nil] at hEnds
  have hNow := readerReady_setCache hReady (some (attrRecord B2.val))
  have hRow := funext (ndefSetWrites_eq_writeAll (ab := attrRecord B2.val) hLim)
  have hSound : ∀ w ∈ setWrites data (attrRecord B2.val), WriteFits w.1 → WriteSound w.1 w.2 := fun w =>
    writeSound_of_mem_setWrites hLim fun b => blocks_le_of_capacity hAllowed.capacity
  refine ⟨fun hFits hSends hAnswers => ?_,
    fun pre post w e sends answers calls hSplit hFits hFails hSends hAnswers => ?_⟩
  all_goals rw [List.replicate_add, List.append_assoc] at hSends
  · have hWrites := writeAll_exchanges hNow fun w hw => hSound w hw (hFits w hw)
    rw [← hRow] at hWrites
    exact ndefSet_ends hAllowed hValid hWrites hSends hAnswers
  · have hPre : ∀ v ∈ pre, v ∈ setWrites data (attrRecord B2.val) := fun v hv => by
      rw [hSplit]
      exact List.mem_append_left _ hv
    have hWrites := writeAll_fails_exchanges hNow (fun v hv => hSound v (hPre v hv) (hFits v hv))
      (writeFails_setCache hFails _) post
    rw [← hSplit, ← hRow] at hWrites
    rw [← List.append_assoc (List.replicate pre.length _)] at hSends hAnswers
    exact ndefSet_ends hAllowed hValid hWrites hSends hAnswers

end Sys2Proof.Claims
end

section
/-! PolicyError (R183, R237): only the checks of NDEF_SET raise it, and they come before the second GET_ATTR and before
every write: O26. -/

namespace Sys2Proof.Machine

open Claims

/-! ## What never raises PolicyError -/

/-- The errors of the class PolicyError (R230). -/
def Err.isPolicy : Err → Bool
  | .policy _ _ => true
  | _ => false

/-- An outcome that is no PolicyError. -/
def NeverPolicy {α : Type} (r : Except Err α) : Prop := ∀ e, r = .error e → e.isPolicy = false

section Never

variable {α β : Type} {s : State}

theorem neverPolicy_ok (a : α) : NeverPolicy (.ok a : Except Err α) := fun _ h => by cases h

theorem neverPolicy_error {e : Err} (h : e.isPolicy = false) : NeverPolicy (.error e : Except Err α) := fun _ h' => by
  cases h'
  exact h

theorem NeverPolicy.bind {r : Except Err α} {f : α → Except Err β} (hr : NeverPolicy r) (hf : ∀ a, NeverPolicy (f a)) :
    NeverPolicy (r.bind f) := by
  cases r with
  | ok a => exact hf a
  | error e => exact neverPolicy_error (hr e rfl)

theorem NeverPolicy.next {r : Run α} {k : α → State → Run β} (hr : NeverPolicy r.1)
    (hk : ∀ a t, NeverPolicy (k a t).1) : NeverPolicy (Run.next r k).1 := by
  obtain ⟨r, t⟩ := r
  cases r with
  | ok a => exact hk a t
  | error e => exact neverPolicy_error (hr e rfl)

/-! ### The serializers, the exchange and the parsers -/

theorem finishRequest_neverPolicy (body : List Byte) (blocks : List Nat) : NeverPolicy (finishRequest body blocks) := by
  unfold finishRequest
  split
  · exact neverPolicy_error rfl
  split
  · exact neverPolicy_error rfl
  · exact neverPolicy_ok _

theorem serRead_neverPolicy (s : State) (svc : Svc) (blocks : List Nat) : NeverPolicy (serRead s svc blocks) := by
  cases hTag : s.re.idm with
  | none =>
    rw [serRead_unloaded hTag]
    exact neverPolicy_error rfl
  | some idm =>
    simp only [serRead, reIdm, hTag]
    split
    · exact neverPolicy_error rfl
    · exact finishRequest_neverPolicy _ _

theorem serWrite_neverPolicy (s : State) (svc : Svc) (blocks : List Nat) (data : List Byte) :
    NeverPolicy (serWrite s svc blocks data) := by
  cases hTag : s.re.idm with
  | none =>
    rw [serWrite_unloaded hTag]
    exact neverPolicy_error rfl
  | some idm =>
    simp only [serWrite, reIdm, hTag]
    split
    · exact neverPolicy_error rfl
    split
    · exact neverPolicy_error rfl
    · exact finishRequest_neverPolicy _ _

theorem exchange_neverPolicy (code : Byte) (n t : Nat) (F : List Byte) (s : State) :
    NeverPolicy (exchange code n t F s).1 := fun e he => by
  obtain ⟨sub, rfl⟩ := exchange_error (Prod.ext he rfl : exchange code n t F s = (.error e, _))
  rfl

theorem parseReadRsp_neverPolicy {idm : Bytes 8} (hTag : s.re.idm = some idm) (F : List Byte) (n : Nat) :
    NeverPolicy (parseReadRsp s F n) := fun e he => by
  obtain ⟨sub, info, rfl⟩ | ⟨sf1, sf2, rfl⟩ := parseReadRsp_error hTag he <;> rfl

theorem parseWriteRsp_neverPolicy {idm : Bytes 8} (hTag : s.re.idm = some idm) (F : List Byte) :
    NeverPolicy (parseWriteRsp s F) := fun e he => by
  obtain ⟨sub, info, rfl⟩ | ⟨sf1, sf2, rfl⟩ := parseWriteRsp_error hTag he <;> rfl

/-! ### READ_BLOCKS and WRITE_BLOCKS -/

theorem readBlocks_neverPolicy (svc : Svc) (blocks : List Nat) (s : State) :
    NeverPolicy (readBlocks svc blocks s).1 := by
  cases hPhase : s.re.phase with
  | await =>
    rw [readBlocks_await hPhase]
    exact neverPolicy_error rfl
  | idle =>
    cases hFrame : serRead s svc blocks with
    | error e =>
      rw [readBlocks_of_serRead_error hPhase hFrame]
      exact neverPolicy_error (serRead_neverPolicy s svc blocks e hFrame)
    | ok frame =>
      obtain ⟨idm, hTag⟩ := serRead_ok_idm hFrame
      cases hPmm : s.re.pmm with
      | none =>
        simp only [readBlocks, reGate_idle hPhase, hFrame, readTimeout_unloaded hPmm]
        exact neverPolicy_error rfl
      | some pmm =>
        rw [readBlocks_eq hPhase hFrame (readTimeout_ok hPmm _),
          next_exchange_parse (parse := fun u r => parseReadRsp u r blocks.length) fun u h => by
            rw [parseReadRsp_congr h]]
        exact (exchange_neverPolicy _ _ _ _ _).bind fun F => parseReadRsp_neverPolicy hTag F _

theorem writeBlocks_neverPolicy (svc : Svc) (blocks : List Nat) (data : List Byte) (s : State) :
    NeverPolicy (writeBlocks svc blocks data s).1 := by
  cases hPhase : s.re.phase with
  | await =>
    rw [writeBlocks_await hPhase]
    exact neverPolicy_error rfl
  | idle =>
    cases hFrame : serWrite s svc blocks data with
    | error e =>
      rw [writeBlocks_of_serWrite_error hPhase hFrame]
      exact neverPolicy_error (serWrite_neverPolicy s svc blocks data e hFrame)
    | ok frame =>
      obtain ⟨idm, hTag⟩ := serWrite_ok_idm hFrame
      cases hPmm : s.re.pmm with
      | none =>
        simp only [writeBlocks, reGate_idle hPhase, hFrame, writeTimeout_unloaded hPmm]
        exact neverPolicy_error rfl
      | some pmm =>
        rw [writeBlocks_eq hPhase hFrame (writeTimeout_ok hPmm _),
          next_exchange_parse (parse := parseWriteRsp) fun u h => parseWriteRsp_congr h]
        exact (exchange_neverPolicy _ _ _ _ _).bind fun F => parseWriteRsp_neverPolicy hTag F

/-! ### The steps of NDEF_SET -/

theorem getAttr_neverPolicy (s : State) : NeverPolicy (getAttr s).1 := by
  unfold getAttr
  split
  · exact neverPolicy_ok _
  · refine (readBlocks_neverPolicy _ _ _).next fun B t => ?_
    split
    · exact neverPolicy_ok _
    · exact neverPolicy_error rfl

theorem writeChunks_neverPolicy (P : List Byte) (Cs : List (List Nat)) (k : Nat) (s : State) :
    NeverPolicy (writeChunks P Cs k s).1 := by
  induction Cs generalizing k s with
  | nil => exact neverPolicy_ok _
  | cons C Cs ih => exact (writeBlocks_neverPolicy _ _ _ _).next fun _ t => ih _ t

theorem writeChunked_neverPolicy (X : List Nat) (P : List Byte) (lim : Nat) (s : State) :
    NeverPolicy (writeChunked X P lim s).1 := by
  unfold writeChunked
  split
  · exact neverPolicy_error rfl
  · exact writeChunks_neverPolicy _ _ _ _

theorem ndefSetWrites_neverPolicy (data : List Byte) (ab : AttributeBlock) (s : State) :
    NeverPolicy (ndefSetWrites data ab s).1 := by
  unfold ndefSetWrites
  split
  · exact neverPolicy_error rfl
  · exact (writeBlocks_neverPolicy _ _ _ _).next fun _ _ => (writeChunked_neverPolicy _ _ _ _).next fun _ _ =>
      writeBlocks_neverPolicy _ _ _ _

end Never

/-! ## PolicyError of NDEF_SET -/

section Policy

variable {s : State} {data : List Byte} {ab : AttributeBlock} {e : Err}

/-- The two checks in their order: NOT_WRITEABLE, then CAPACITY (R179, R237). -/
def PolicyRefuses (data : List Byte) (ab : AttributeBlock) (e : Err) : Prop :=
  ab.writeable = false ∧ e = .policy .notWriteable 0 ∨
    ab.writeable = true ∧ 16 * ab.nmaxb.toNat < data.length ∧ e = .policy .capacity data.length

theorem checkAndWrite_refused (h : PolicyRefuses data ab e) (s : State) : checkAndWrite data ab s = (.error e, s) := by
  rcases h with ⟨hReadOnly, rfl⟩ | ⟨hWriteable, hLong, rfl⟩
  · exact if_pos hReadOnly
  · exact (if_neg (by simp [hWriteable])).trans (if_pos hLong)

/-- A PolicyError is raised by a check, before anything is done. -/
theorem checkAndWrite_policy (h : (checkAndWrite data ab s).1 = .error e) (hPolicy : e.isPolicy = true) :
    (checkAndWrite data ab s).2 = s := by
  unfold checkAndWrite at h ⊢
  split
  · rfl
  next hWriteable =>
  rw [if_neg hWriteable] at h
  split
  · rfl
  next hFits =>
  rw [if_neg hFits] at h
  have hNever := (getAttr_neverPolicy _).next (ndefSetWrites_neverPolicy data) e h
  rw [hNever] at hPolicy
  cases hPolicy

/-- An NDEF_SET that raises PolicyError has done its first GET_ATTR and nothing else. -/
theorem ndefSet_policy (h : (ndefSet data s).1 = .error e) (hPolicy : e.isPolicy = true) :
    (ndefSet data s).2 = (getAttr s).2.setCache none := by
  rw [ndefSet_eq] at h ⊢
  have hNever := getAttr_neverPolicy s
  generalize getAttr s = run at h hNever ⊢
  obtain ⟨r, t⟩ := run
  cases r with
  | error e' => rfl
  | ok ab => exact congrArg (State.setCache · none) (checkAndWrite_policy h hPolicy)

/-- But for CACHE, GET_ATTR with CACHE empty leaves what its READ_BLOCKS leaves. -/
theorem getAttr_uncached_state (hCache : s.reader.cache = none) :
    (getAttr s).2.setCache none = (readBlocks s.reader.svcRd [0] s).2.setCache none := by
  rw [getAttr_uncached hCache]
  generalize readBlocks s.reader.svcRd [0] s = run
  obtain ⟨r, t⟩ := run
  cases r with
  | error e => rfl
  | ok B =>
    rw [Run.next_ok, recordBlock]
    split <;> rfl

/-- The record of an NDEF_SET tells what it ended with. -/
theorem ndefSet_of_record {t : State} (hNext : exec (.ndefSet data) s = .next t)
    (hLast : t.reader.results = s.reader.results ++ [.err e]) :
    (ndefSet data s).1 = .error e ∧ t = (ndefSet data s).2.reply (.err e) := by
  rw [exec_ndefSet] at hNext
  obtain rfl := Host.Outcome.next.inj hNext
  obtain ⟨c, hInside⟩ := ndefSet_inside data s
  have hRecord : resultOf (fun _ => .unit) (ndefSet data s).1 = .err e := by
    rw [State.reply_reader, hInside.reader] at hLast
    simpa using hLast
  exact ⟨resultOf_eq_err.1 hRecord, by rw [hRecord]⟩

end Policy

end Sys2Proof.Machine

namespace Sys2Proof.Claims

open Machine

/-- Settles O26: a PolicyError is raised right after the first GET_ATTR, which answers CACHE or makes one
READ_BLOCKS. -/
theorem policyErrorsWriteNothing : Obligations.PolicyErrorsWriteNothing := by
  unfold Obligations.PolicyErrorsWriteNothing
  refine ⟨fun data s t sub n hNext hLast => ?_, fun data s ab e hRefuses => ⟨fun hCache => ?_, ?_⟩⟩
  · obtain ⟨hError, rfl⟩ := ndefSet_of_record hNext hLast
    rw [ndefSet_policy hError rfl]
    refine ⟨fun hFull => ?_, fun hCache => ⟨_, exec_readBlocks _ _ _, ?_⟩⟩
    · obtain ⟨ab, hCache⟩ := Option.isSome_iff_exists.1 hFull
      rw [getAttr_cached hCache]
    · have hReader := (readBlocks_inside s.reader.svcRd [0] s).reader
      rw [getAttr_uncached_state hCache]
      simp only [State.reply, State.setCache, hReader, ← hCache]
  · rw [exec_ndefSet, ndefSet_eq, getAttr_cached hCache, Run.next_ok, checkAndWrite_refused hRefuses]
    rfl
  · rintro idm pmm B sq rq hReady hCache hValid rfl hSends hAnswers
    have hFirst := getAttr_caches (B := B) ⟨hReady, fun _ => hValid⟩
    have hAttr : firstAttr s B = attrRecord B.val := by rw [firstAttr, hCache, Option.getD_none]
    have hCheck : Exchanges (checkAndWrite data (attrRecord B.val)) (s.setCache (some (attrRecord B.val))) [] [] []
        (.error e) := .silent fun _ _ _ _ => checkAndWrite_refused hRefuses _
    rw [hAttr, hCache] at hFirst
    have hSet := (hFirst.next (hCheck.caches rfl)).invalidate
    rw [List.append_nil, List.append_nil, List.append_nil] at hSet
    exact hSet.ends (exec_ndefSet data s) hSends hAnswers

end Sys2Proof.Claims
end

section
/-! What NDEF_SET writes, NDEF_GET returns (R182), on bench L with both services over one store (logs 7, 8 and 10):
O51. -/

namespace Sys2Proof.Machine

open Claims

/-! ## Rows of blocks of the store -/

/-- The bytes of some blocks of a bank, in order. -/
def storedRow (m : Memory) (bank : BitVec 16) (C : List Nat) : List Byte :=
  C.flatMap fun b => (Memory.readBlock m bank (BitVec.ofNat 16 b)).val

/-- The store after some blocks of a bank have been written with the successive blocks of `data`. -/
def storeRow (bank : BitVec 16) : List Nat → List Byte → Memory → Memory
  | [], _, m => m
  | b :: C, data, m => storeRow bank C (data.drop 16) (Memory.writeBlock m bank (BitVec.ofNat 16 b) (data.take 16))

section Rows

variable {bank : BitVec 16} {C C' : List Nat} {data data' : List Byte} {m : Memory} {b : Nat}

/-- A row of entries that all write one bank. -/
theorem storeAfter_eq_storeRow {s : State} {svc : Svc}
    (h : ∀ b ∈ C, writeBank s (svc, BitVec.ofNat 16 b) = some bank) :
    storeAfter s (C.map fun b => (svc, BitVec.ofNat 16 b)) data m = storeRow bank C data m := by
  induction C generalizing data m with
  | nil => rfl
  | cons b C ih =>
    obtain ⟨hFirst, hRest⟩ := List.forall_mem_cons.1 h
    rw [List.map_cons, storeAfter, hFirst, ih hRest]
    rfl

theorem storeRow_append (h : data.length = 16 * C.length) :
    storeRow bank (C ++ C') (data ++ data') m = storeRow bank C' data' (storeRow bank C data m) := by
  induction C generalizing data m with
  | nil =>
    obtain rfl : data = [] := List.eq_nil_of_length_eq_zero h
    rfl
  | cons b C ih =>
    rw [List.length_cons] at h
    rw [List.cons_append, storeRow, List.drop_append_of_le_length (by omega), List.take_append_of_le_length (by omega),
      ih (by rw [List.length_drop]; omega)]
    rfl

theorem wf_storeRow (hm : Memory.wf m) : Memory.wf (storeRow bank C data m) := by
  induction C generalizing data m with
  | nil => exact hm
  | cons b C ih => exact ih (Memory.wf_writeBlock hm)

theorem blockNumber_inj {b b' : Nat} (hb : b ≤ 0xFFFF) (hb' : b' ≤ 0xFFFF)
    (h : BitVec.ofNat 16 b = BitVec.ofNat 16 b') : b = b' := by
  rw [← toNat_blockNumber hb, h, toNat_blockNumber hb']

/-- A block that is not written stays. -/
theorem readBlock_storeRow_ne (hLen : data.length = 16 * C.length) (hRange : ∀ x ∈ C, x ≤ 0xFFFF) (hb : b ≤ 0xFFFF)
    (hOut : b ∉ C) :
    Memory.readBlock (storeRow bank C data m) bank (BitVec.ofNat 16 b) =
      Memory.readBlock m bank (BitVec.ofNat 16 b) := by
  induction C generalizing data m with
  | nil => rfl
  | cons x C ih =>
    obtain ⟨hx, hRest⟩ := List.forall_mem_cons.1 hRange
    obtain ⟨hNe, hOut⟩ := not_or.1 (List.mem_cons.not.1 hOut)
    rw [List.length_cons] at hLen
    rw [storeRow, ih (by rw [List.length_drop]; omega) hRest hOut]
    exact Memory.readBlock_writeBlock_ne (List.length_take_of_le (by omega)) fun h =>
      hNe (blockNumber_inj hb hx h.2.symm)

/-- Blocks that are not written stay. -/
theorem storedRow_storeRow_disjoint (hLen : data.length = 16 * C.length) (hRange : ∀ x ∈ C, x ≤ 0xFFFF)
    (hRange' : ∀ x ∈ C', x ≤ 0xFFFF) (hOut : ∀ x ∈ C', x ∉ C) :
    storedRow (storeRow bank C data m) bank C' = storedRow m bank C' :=
  List.flatMap_congr fun b hb => by rw [readBlock_storeRow_ne hLen hRange (hRange' b hb) (hOut b hb)]

/-- Different blocks read after they were written give the bytes written. -/
theorem storedRow_storeRow_self (hm : Memory.wf m) (hLen : data.length = 16 * C.length)
    (hRange : ∀ x ∈ C, x ≤ 0xFFFF) (hNodup : C.Nodup) : storedRow (storeRow bank C data m) bank C = data := by
  induction C generalizing data m with
  | nil => exact (List.eq_nil_of_length_eq_zero hLen).symm
  | cons b C ih =>
    obtain ⟨hb, hRest⟩ := List.forall_mem_cons.1 hRange
    obtain ⟨hOut, hNodup⟩ := List.nodup_cons.1 hNodup
    rw [List.length_cons] at hLen
    have hDrop : (data.drop 16).length = 16 * C.length := by rw [List.length_drop]; omega
    have hTail := ih (data := data.drop 16)
      (Memory.wf_writeBlock (bank := bank) (blk := BitVec.ofNat 16 b) (d := data.take 16) hm) hDrop hRest hNodup
    have hHead : (Memory.readBlock (storeRow bank (b :: C) data m) bank (BitVec.ofNat 16 b)).val = data.take 16 := by
      rw [storeRow, readBlock_storeRow_ne hDrop hRest hb hOut]
      exact congrArg Subtype.val
        (Memory.readBlock_writeBlock_self (d := ⟨data.take 16, List.length_take_of_le (by omega)⟩) hm)
    calc storedRow (storeRow bank (b :: C) data m) bank (b :: C)
        = data.take 16 ++ storedRow (storeRow bank (b :: C) data m) bank C := by rw [← hHead]; rfl
      _ = data.take 16 ++ data.drop 16 := congrArg _ hTail
      _ = data := List.take_append_drop 16 data

end Rows

/-! ## Operations on bench L -/

/-- Bench L (log 7): both units idle, RE's tag is this block's own ED, and the services that the reader-side host uses
are backed by the blocks below `size` of one bank of the store (logs 8 and 10). -/
structure Bench (s : State) (idm pmm : Bytes 8) (bank : BitVec 16) (size : Nat) : Prop where
  idle : s.unitsIdle
  link : s.transport.link = .loopback
  tag : s.re.idm = some idm
  timing : s.re.pmm = some pmm
  identity : s.ed.idm = some idm
  reads : ∃ wr, lookupService s.ed.svc s.reader.svcRd = some { rd := .store bank size, wr := wr }
  writes : ∃ rd, lookupService s.ed.svc s.reader.svcWr = some { rd := rd, wr := .store bank size }

/-- A run ends with the value `v` and leaves the store `m`. -/
structure Yields {α : Type} (r : Run α) (v : α) (m : Memory) : Prop where
  value : r.1 = .ok v
  store : r.2.app.mem = m

theorem Yields.next {α β : Type} {r : Run α} {k : α → State → Run β} {v : α} {w : β} {m m' : Memory}
    (h : Yields r v m) (hk : Yields (k v r.2) w m') : Yields (Run.next r k) w m' := by
  obtain ⟨r, t⟩ := r
  obtain rfl : r = .ok v := h.value
  exact hk

theorem Yields.invalidate {α : Type} {r : Run α} {v : α} {m : Memory} (h : Yields r v m) : Yields r.invalidate v m :=
  ⟨h.value, h.store⟩

section OnBench

variable {s t : State} {idm pmm : Bytes 8} {bank : BitVec 16} {size : Nat} {C : List Nat} {data : List Byte}

/-- A sequence of RE's operations leaves the bench set up. -/
theorem Bench.after (h : Bench s idm pmm bank size) (hInside : InsideSequence s t) : Bench t idm pmm bank size := by
  obtain ⟨c, hInside⟩ := hInside
  have hSvc : t.ed.svc = s.ed.svc := hInside.services
  have hRd : t.reader.svcRd = s.reader.svcRd := by rw [hInside.reader, State.setCache_reader]
  have hWr : t.reader.svcWr = s.reader.svcWr := by rw [hInside.reader, State.setCache_reader]
  refine ⟨hInside.unitsIdle h.idle, hInside.link.trans h.link, hInside.idm.trans h.tag, hInside.pmm.trans h.timing, ?_,
    ?_, ?_⟩
  · rw [hInside.ed]
    exact h.identity
  · rw [hSvc, hRd]
    exact h.reads
  · rw [hSvc, hWr]
    exact h.writes

/-- So does the delivery of a result. -/
theorem Bench.reply (h : Bench s idm pmm bank size) (r : HostResult) : Bench (s.reply r) idm pmm bank size :=
  ⟨h.idle, h.link, h.tag, h.timing, h.identity, h.reads, h.writes⟩

/-- The record of a sequence that ends with a value. -/
theorem Yields.results {α : Type} {r : Run α} {v : α} {m : Memory} (h : Yields r v m) (hInside : InsideSequence s r.2)
    (f : α → Value) : (r.2.reply (resultOf f r.1)).reader.results = s.reader.results ++ [.ok (f v)] := by
  obtain ⟨c, hInside⟩ := hInside
  rw [State.reply_reader, hInside.reader, h.value]
  rfl

/-- READ_BLOCKS answers the blocks of the store. -/
theorem readBlocks_yields (h : Bench s idm pmm bank size) (hSound : ReadSound C) (hHeld : ∀ b ∈ C, b < size) :
    Yields (readBlocks s.reader.svcRd C s) (storedRow s.app.mem bank C) s.app.mem := by
  obtain ⟨wr, hService⟩ := h.reads
  obtain ⟨hTurn, hMem⟩ := loopbackTurn_readRequest ⟨h.idle.2, h.identity⟩ hService hSound hHeld
  obtain ⟨hExchange, hApp⟩ := exchange_loopback h.link hTurn 0x07 C.length (timeout (readTiming pmm) C.length)
  rw [readBlocks_of_exchange h.idle.1 h.tag (readTimeout_ok h.timing _) hSound (length_flatMap_block _ C) hExchange]
  exact ⟨rfl, by rw [hApp, hMem]⟩

/-- WRITE_BLOCKS stores its data. -/
theorem writeBlocks_yields (h : Bench s idm pmm bank size) (hSound : WriteSound C data) (hHeld : ∀ b ∈ C, b < size) :
    Yields (writeBlocks s.reader.svcWr C data s) () (storeRow bank C data s.app.mem) := by
  obtain ⟨rd, hService⟩ := h.writes
  obtain ⟨hTurn, hMem⟩ := loopbackTurn_writeRequest ⟨h.idle.2, h.identity⟩ hService hSound hHeld
  obtain ⟨hExchange, hApp⟩ := exchange_loopback h.link hTurn 0x09 C.length (timeout (writeTiming pmm) C.length)
  rw [writeBlocks_of_exchange h.idle.1 h.tag (writeTimeout_ok h.timing _) hSound hExchange]
  rw [storeAfter_eq_storeRow fun b hb => writeBank_request hService (hSound.range b hb) (hHeld b hb)] at hMem
  exact ⟨rfl, by rw [hApp, hMem]⟩

/-- Reads in a row answer the blocks of all of them. -/
theorem readChunks_yields {Cs : List (List Nat)} (h : Bench s idm pmm bank size) (hSound : ∀ C ∈ Cs, ReadSound C)
    (hHeld : ∀ b ∈ Cs.flatten, b < size) (acc : List Byte) :
    Yields (readChunks Cs acc s) (acc ++ storedRow s.app.mem bank Cs.flatten) s.app.mem := by
  induction Cs generalizing s acc with
  | nil => exact ⟨by rw [List.flatten_nil, storedRow, List.flatMap_nil, List.append_nil]; rfl, rfl⟩
  | cons C Cs ih =>
    obtain ⟨hFirst, hRest⟩ := List.forall_mem_cons.1 hSound
    rw [List.flatten_cons] at hHeld ⊢
    obtain ⟨hHere, hThere⟩ := List.forall_mem_append.1 hHeld
    have hHead := readBlocks_yields h hFirst hHere
    have hTail := ih (h.after (readBlocks_inside s.reader.svcRd C s).sequence) hRest hThere
      (acc ++ storedRow s.app.mem bank C)
    rw [hHead.store, List.append_assoc] at hTail
    rw [storedRow, List.flatMap_append]
    exact hHead.next hTail

/-- Writes in a row store the data of all of them. -/
theorem writeAll_yields {ws : List (List Nat × List Byte)} (h : Bench s idm pmm bank size)
    (hSound : ∀ w ∈ ws, WriteSound w.1 w.2) (hHeld : ∀ w ∈ ws, ∀ b ∈ w.1, b < size) :
    Yields (writeAll ws s) () (storeRow bank (ws.flatMap (·.1)) (ws.flatMap (·.2)) s.app.mem) := by
  induction ws generalizing s with
  | nil => exact ⟨rfl, rfl⟩
  | cons w ws ih =>
    obtain ⟨hFirst, hRest⟩ := List.forall_mem_cons.1 hSound
    obtain ⟨hHere, hThere⟩ := List.forall_mem_cons.1 hHeld
    have hHead := writeBlocks_yields h hFirst hHere
    have hTail := ih (h.after (writeBlocks_inside s.reader.svcWr w.1 w.2 s).sequence) hRest hThere
    rw [hHead.store] at hTail
    rw [List.flatMap_cons, List.flatMap_cons, storeRow_append hFirst.whole]
    exact hHead.next hTail

/-! ## NDEF_GET and NDEF_SET on bench L -/

/-- The record of block 0 of the store, when its checksum holds. -/
structure HoldsAttr (m : Memory) (bank : BitVec 16) (ab : AttributeBlock) : Prop where
  valid : attrValid (Memory.readBlock m bank 0).val = true
  record : attrRecord (Memory.readBlock m bank 0).val = ab

variable {ab : AttributeBlock}

/-- GET_ATTR answers the record of block 0, if CACHE holds nothing else. -/
theorem getAttr_yields (h : Bench s idm pmm bank size) (hSize : 0 < size) (hAttr : HoldsAttr s.app.mem bank ab)
    (hCache : s.reader.cache = none ∨ s.reader.cache = some ab) : Yields (getAttr s) ab s.app.mem := by
  rcases hCache with hEmpty | hFull
  · have hRead := readBlocks_yields h readSound_block_zero (by simpa using hSize)
    have hRow : storedRow s.app.mem bank [0] = (Memory.readBlock s.app.mem bank 0).val := List.append_nil _
    rw [hRow] at hRead
    rw [getAttr_uncached hEmpty]
    refine hRead.next ?_
    rw [recordBlock_valid hAttr.valid, hAttr.record]
    exact ⟨rfl, hRead.store⟩
  · rw [getAttr_cached hFull]
    exact ⟨rfl, rfl⟩

/-- NDEF_GET answers the first `ln` bytes of the blocks of the message. -/
theorem ndefGet_yields (h : Bench s idm pmm bank size) (hAttr : HoldsAttr s.app.mem bank ab)
    (hCache : s.reader.cache = none) (hNbr : 1 ≤ ab.nbr.toNat) (hSize : (ab.ln.toNat + 15) / 16 < size)
    (hSound : ∀ C ∈ chunks (blocksOfMessage ab.ln.toNat) ab.nbr.toNat, ReadSound C) :
    Yields (ndefGet s) ((storedRow s.app.mem bank (blocksOfMessage ab.ln.toNat)).take ab.ln.toNat) s.app.mem := by
  have hFirst := getAttr_yields h (by omega) hAttr (.inl hCache)
  have hFlat := flatten_chunks hNbr (blocksOfMessage ab.ln.toNat)
  have hRow := readChunks_yields (h.after (getAttr_inside s)) hSound
    (fun b hb => (le_of_mem_blocksOfMessage (hFlat ▸ hb)).trans_lt hSize) []
  rw [hFirst.store, hFlat, List.nil_append] at hRow
  rw [ndefGet_eq]
  refine (hFirst.next ?_).invalidate
  rw [readMessage_eq (.inr hNbr)]
  exact hRow.next ⟨rfl, hRow.store⟩

/-- NDEF_SET stores the data of its writes. -/
theorem ndefSet_yields (h : Bench s idm pmm bank size) (hAttr : HoldsAttr s.app.mem bank ab)
    (hCache : s.reader.cache = none ∨ s.reader.cache = some ab) (hWriteable : ab.writeable = true)
    (hCapacity : data.length ≤ 16 * ab.nmaxb.toNat) (hNbw : 1 ≤ ab.nbw.toNat) (hSize : 0 < size)
    (hSound : ∀ w ∈ setWrites data ab, WriteSound w.1 w.2) (hHeld : ∀ w ∈ setWrites data ab, ∀ b ∈ w.1, b < size) :
    Yields (ndefSet data s) () (storeRow bank ((setWrites data ab).flatMap (·.1)) ((setWrites data ab).flatMap (·.2))
      s.app.mem) := by
  have hFirst := getAttr_yields h hSize hAttr hCache
  have hEmptied := (h.after (getAttr_inside s)).after (InsideSequence.setCache _ none)
  have hSecond := getAttr_yields hEmptied hSize
    (by rw [State.setCache_app, hFirst.store]; exact hAttr) (.inl rfl)
  have hWrites := writeAll_yields (hEmptied.after (getAttr_inside _)) hSound hHeld
  rw [hSecond.store, State.setCache_app, hFirst.store, ← ndefSetWrites_eq_writeAll (.inr hNbw)] at hWrites
  rw [ndefSet_eq]
  refine (hFirst.next ?_).invalidate
  rw [checkAndWrite_allowed hWriteable hCapacity]
  exact hSecond.next hWrites

end OnBench

/-! ## The writes of NDEF_SET in the store -/

section SetRow

variable {data : List Byte} {ab : AttributeBlock} {bank : BitVec 16} {m : Memory}

/-- The record that NDEF_SET writes to block 0 (R179). -/
def setRecord (data : List Byte) (ab : AttributeBlock) (wip : Bool) : AttributeBlock :=
  { ab with wip := wip, ln := BitVec.ofNat 24 data.length }

/-- A length within a capacity fits its 24 bits. -/
theorem toNat_setRecord_ln (hCapacity : data.length ≤ 16 * ab.nmaxb.toNat) (wip : Bool) :
    (setRecord data ab wip).ln.toNat = data.length := by
  have hBits := ab.nmaxb.isLt
  exact Nat.mod_eq_of_lt (by omega)

theorem flatMap_fst_splitData (Cs : List (List Nat)) (P : List Byte) :
    (splitData Cs P).flatMap (·.1) = Cs.flatten := by
  induction Cs generalizing P with
  | nil => rfl
  | cons C Cs ih => rw [splitData, List.flatMap_cons, ih, List.flatten_cons]

theorem flatMap_snd_splitData {Cs : List (List Nat)} {P : List Byte} (hP : P.length = 16 * Cs.flatten.length) :
    (splitData Cs P).flatMap (·.2) = P := by
  induction Cs generalizing P with
  | nil => exact (List.eq_nil_of_length_eq_zero hP).symm
  | cons C Cs ih =>
    rw [List.flatten_cons, List.length_append] at hP
    rw [splitData, List.flatMap_cons, ih (by rw [List.length_drop]; omega), List.take_append_drop]

/-- The row of writes: block 0, the padded message from block 1 on, block 0. -/
theorem storeRow_setWrites (hNbw : 1 ≤ ab.nbw.toNat) :
    storeRow bank ((setWrites data ab).flatMap (·.1)) ((setWrites data ab).flatMap (·.2)) m =
      storeRow bank [0] (attrSerialize (setRecord data ab false))
        (storeRow bank (blocksOfMessage data.length) (paddedMessage data)
          (storeRow bank [0] (attrSerialize (setRecord data ab true)) m)) := by
  have hFlat := flatten_chunks hNbw (blocksOfMessage data.length)
  have hLen : (paddedMessage data).length = 16 * (blocksOfMessage data.length).length := by
    rw [length_paddedMessage, length_blocksOfMessage]
  have hBlocks : (setWrites data ab).flatMap (·.1) = [0] ++ (blocksOfMessage data.length ++ [0]) := by
    rw [setWrites, List.flatMap_cons, List.flatMap_append, flatMap_fst_splitData, hFlat]
    rfl
  have hData : (setWrites data ab).flatMap (·.2) = attrSerialize (setRecord data ab true) ++
      (paddedMessage data ++ attrSerialize (setRecord data ab false)) := by
    rw [setWrites, List.flatMap_cons, List.flatMap_append, flatMap_snd_splitData (by rw [hFlat, hLen]),
      List.flatMap_singleton]
    rfl
  rw [hBlocks, hData, storeRow_append (length_attrSerialize _), storeRow_append hLen]

theorem zero_notMem_blocksOfMessage (ln : Nat) : 0 ∉ blocksOfMessage ln := fun h =>
  absurd (List.mem_range'_1.1 h).1 (by decide)

/-- After the writes the store holds the record with wip false, and the padded message. -/
theorem store_after_setWrites (hm : Memory.wf m) (hNbw : 1 ≤ ab.nbw.toNat)
    (hRange : ∀ b ∈ blocksOfMessage data.length, b ≤ 0xFFFF) {m' : Memory}
    (hm' : m' = storeRow bank ((setWrites data ab).flatMap (·.1)) ((setWrites data ab).flatMap (·.2)) m) :
    HoldsAttr m' bank (setRecord data ab false) ∧
      storedRow m' bank (blocksOfMessage data.length) = paddedMessage data := by
  rw [storeRow_setWrites hNbw] at hm'
  have hZero : ∀ b ∈ [0], b ≤ 0xFFFF := by simp
  have hAttrLen := length_attrSerialize (setRecord data ab false)
  refine ⟨?_, ?_⟩
  · have hRow : storedRow m' bank [0] = attrSerialize (setRecord data ab false) := by
      rw [hm']
      exact storedRow_storeRow_self (wf_storeRow (wf_storeRow hm)) hAttrLen hZero (List.nodup_singleton 0)
    have hBlock : (Memory.readBlock m' bank 0).val = attrSerialize (setRecord data ab false) :=
      (List.append_nil _).symm.trans hRow
    exact ⟨by rw [hBlock, attrValid_attrSerialize], by rw [hBlock, attrRecord_attrSerialize]⟩
  · have hOut : ∀ b ∈ blocksOfMessage data.length, b ∉ [0] := fun b hb h =>
      zero_notMem_blocksOfMessage _ (List.mem_singleton.1 h ▸ hb)
    rw [hm', storedRow_storeRow_disjoint hAttrLen hZero hRange hOut]
    exact storedRow_storeRow_self (wf_storeRow hm) (by rw [length_paddedMessage, length_blocksOfMessage]) hRange
      List.nodup_range'

/-- A write of NDEF_SET is of block 0, or of a chunk of the message. -/
theorem fst_of_mem_setWrites {w : List Nat × List Byte} (hNbw : 1 ≤ ab.nbw.toNat) (hw : w ∈ setWrites data ab) :
    w.1 = [0] ∨ w.1 ∈ chunks (blocksOfMessage data.length) ab.nbw.toNat := by
  rw [setWrites, List.mem_cons, List.mem_append, List.mem_singleton] at hw
  rcases hw with rfl | hPart | rfl
  · exact .inl rfl
  · exact .inr (mem_splitData hPart
      (by rw [flatten_chunks hNbw, length_blocksOfMessage, length_paddedMessage])).1
  · exact .inl rfl

/-- Every write of NDEF_SET fits a frame when those of the message do. -/
theorem writeFits_of_mem_setWrites (hNbw : 1 ≤ ab.nbw.toNat)
    (hFits : ∀ C ∈ chunks (blocksOfMessage data.length) ab.nbw.toNat, WriteFits C) :
    ∀ w ∈ setWrites data ab, WriteFits w.1 := fun w hw => by
  rcases fst_of_mem_setWrites hNbw hw with hZero | hChunk
  · rw [hZero]
    exact (writeSound_block_zero (length_attrSerialize ab)).fits
  · exact hFits _ hChunk

theorem le_of_mem_setWrites (hNbw : 1 ≤ ab.nbw.toNat) :
    ∀ w ∈ setWrites data ab, ∀ b ∈ w.1, b ≤ (data.length + 15) / 16 := fun w hw b hb => by
  rcases fst_of_mem_setWrites hNbw hw with hZero | hChunk
  · rw [hZero, List.mem_singleton] at hb
    omega
  · refine le_of_mem_blocksOfMessage ?_
    rw [← flatten_chunks hNbw (blocksOfMessage data.length)]
    exact List.mem_flatten_of_mem hChunk hb

end SetRow

end Sys2Proof.Machine

namespace Sys2Proof.Claims

open Machine

/-- Settles O51: NDEF_SET leaves the message and its length in the store, and the bench set up; NDEF_GET then
reads both. -/
theorem setThenGetReturnsTheMessage : Obligations.SetThenGetReturnsTheMessage := by
  unfold Obligations.SetThenGetReturnsTheMessage
  rintro data s idm pmm bank size rd wr ab hIdle hLink hTag hPmm hIdentity hWf hReads hWrites hValid hRecord hCache
    hWriteable hCapacity hSize hNbr hNbw hMost hFits
  have hBench : Bench s idm pmm bank size := ⟨hIdle, hLink, hTag, hPmm, hIdentity, ⟨wr, hReads⟩, ⟨rd, hWrites⟩⟩
  have hRange : ∀ b ∈ blocksOfMessage data.length, b ≤ 0xFFFF := fun b => blocks_le_of_capacity hCapacity
  have hSound : ∀ w ∈ setWrites data ab, WriteSound w.1 w.2 := fun w hw =>
    writeSound_of_mem_setWrites (.inr hNbw) hRange hw (writeFits_of_mem_setWrites hNbw hFits w hw)
  have hSet := ndefSet_yields hBench ⟨hValid, hRecord.symm⟩ hCache hWriteable hCapacity hNbw (by omega) hSound
    fun w hw b hb => (le_of_mem_setWrites hNbw w hw b hb).trans_lt hSize
  obtain ⟨hAttr, hRow⟩ := store_after_setWrites hWf hNbw hRange hSet.store
  have hLn := toNat_setRecord_ln hCapacity false
  have hAfter := (hBench.after (ndefSet_inside data s)).reply (resultOf (fun _ => .unit) (ndefSet data s).1)
  have hGet := ndefGet_yields hAfter hAttr (Run.invalidate_cache (ndefSetSteps data s)) hNbr (by rwa [hLn])
    (readSound_of_mem_chunks hNbr (by rwa [hLn]) (by rwa [hLn]))
  have hMessage : (paddedMessage data).take data.length = data := List.take_left
  rw [hLn, State.reply_app, hRow, hMessage] at hGet
  exact ⟨_, _, exec_ndefSet data s, hSet.results (ndefSet_inside data s) _, exec_ndefGet _,
    hGet.results (ndefGet_inside _) _⟩

end Sys2Proof.Claims
end

section
/-! Configuration of ED (R191, R192): what LOAD_IDENTITY and REGISTER_SERVICE leave when ED is IDLE: O28 and O29. -/

namespace Sys2Proof.Machine

theorem exec_loadIdentity_idle {s : State} (h : s.ed.phase = .idle) (idm pmm : Bytes 8) (sys : Bytes 2) :
    exec (.loadIdentity idm pmm sys) s = .next ((s.setIdentity idm pmm sys).replyEmulator (.ok .unit)) := by
  simp only [exec, execLoadIdentity, edGate_idle h]

theorem exec_registerService_idle {s : State} (h : s.ed.phase = .idle) (code : Svc) (rd : ReadCb) (wr : WriteCb) :
    exec (.registerService code rd wr) s =
      .next ((s.setServices (insertService s.ed.svc code { rd := rd, wr := wr })).replyEmulator (.ok .unit)) := by
  simp only [exec, execRegisterService, edGate_idle h]

end Sys2Proof.Machine

namespace Sys2Proof.Claims

open Machine

/-- Settles O28, by the two phases of ED. -/
theorem loadIdentityLoadsThreeRegisters : Obligations.LoadIdentityLoadsThreeRegisters := by
  unfold Obligations.LoadIdentityLoadsThreeRegisters
  intro idm pmm sys s
  exact ⟨fun hIdle => exec_loadIdentity_idle hIdle idm pmm sys, fun hBusy => exec_loadIdentity_busy hBusy idm pmm sys⟩

/-- Settles O29: the new table is the old one with the pair inserted, and a lookup finds the pair under its code and
the old callbacks under every other. -/
theorem registerServiceMapsTheCode : Obligations.RegisterServiceMapsTheCode := by
  unfold Obligations.RegisterServiceMapsTheCode
  intro code rd wr s
  refine ⟨fun hIdle => ⟨insertService s.ed.svc code { rd := rd, wr := wr }, ?_, ?_, ?_⟩,
    fun hBusy => exec_registerService_busy hBusy code rd wr⟩
  · exact exec_registerService_idle hIdle code rd wr
  · exact lookupService_insertService_self s.ed.svc code _
  · exact fun c hOther => lookupService_insertService_ne s.ed.svc _ hOther.symm

end Sys2Proof.Claims
end

section
/-! The frame of a response (R52, R96, R200): whatever a handler answers is its own length, its response code, ED.IDM
and a body: O45. -/

namespace Sys2Proof.Machine

open Claims

/-- The end is no response, or one that carries this code and this identifier in at most 253 bytes. -/
def DispatchEnd.FramedAs (e : DispatchEnd) (rc : Byte) (idm : Bytes 8) : Prop :=
  ∀ g, e = .respond g → ∃ body, g = commandFrame rc idm body ∧ body.length ≤ 243

/-- A frame that a handler builds has the layout of R81. -/
theorem framed_eq_commandFrame (rc : Byte) (idm : Bytes 8) (body : List Byte) :
    framed ([rc] ++ idm.val ++ body) = commandFrame rc idm body := rfl

section Ends

variable {rc : Byte} {idm : Bytes 8}

theorem framedAs_drop (reason : DropReason) : (DispatchEnd.drop reason).FramedAs rc idm := fun _ h => by cases h

theorem framedAs_raise (e : Err) : (DispatchEnd.raise e).FramedAs rc idm := fun _ h => by cases h

theorem framedAs_respond {body : List Byte} (h : body.length ≤ 243) :
    (DispatchEnd.respond (framed ([rc] ++ idm.val ++ body))).FramedAs rc idm := by
  rintro g ⟨⟩
  exact ⟨body, framed_eq_commandFrame rc idm body, h⟩

/-- An error response: its body is the status alone (R210). -/
theorem framedAs_errorResponse {st : List Byte} (h : st.length ≤ 3) :
    (DispatchEnd.respond (errorResponse idm rc st)).FramedAs rc idm :=
  framedAs_respond (by omega)

end Ends

/-! ## The commands that touch no block (R196 to R198) -/

theorem polling_framedAs (ed : Ed) (idm : Bytes 8) (F : List Byte) : (polling ed idm F).FramedAs 0x01 idm := by
  unfold polling
  split
  · exact framedAs_drop _
  split
  case h_2 => exact framedAs_raise _
  case h_1 sys pmm _ _ =>
    split
    · exact framedAs_drop _
    · rw [List.append_assoc]
      refine framedAs_respond ?_
      rw [List.length_append, pmm.property]
      split <;> simp [sys.property]

theorem requestResponse_framedAs (idm : Bytes 8) : (requestResponse idm).FramedAs 0x05 idm :=
  framedAs_respond (by simp)

theorem requestSystemCode_framedAs (ed : Ed) (idm : Bytes 8) : (requestSystemCode ed idm).FramedAs 0x0D idm := by
  unfold requestSystemCode
  cases ed.sys with
  | none => exact framedAs_raise _
  | some sys =>
    dsimp only
    rw [List.append_assoc]
    exact framedAs_respond (by simp [sys.property])

/-! ## The status of a parse that stops (R210 to R213) -/

section Stopped

variable {svc : SvcTable} {F st : List Byte}

theorem length_status_of_parseServices {k : Nat} {w : Work} (h : (parseServices svc F k w).2 = some (.status st)) :
    st.length = 2 := by
  induction k generalizing w with
  | zero => cases h
  | succ k ih =>
    rw [parseServices] at h
    split_ifs at h
    · cases h
    · cases h; rfl
    · exact ih h

theorem length_status_of_parseEntries {k i : Nat} {w : Work} (h : (parseEntries F k i w).2 = some (.status st)) :
    st.length = 2 := by
  induction k generalizing i w with
  | zero => cases h
  | succ k ih =>
    rw [parseEntries] at h
    split_ifs at h
    · cases h
    · cases h; rfl
    · cases h
    · exact ih h
    · cases h
    · exact ih h

/-- Two parses in a row stop where the first or the second does. -/
theorem Parse.next_stopped {p : Parse} {k : Work → Parse} {stop : Stop} (h : (Parse.next p k).2 = some stop) :
    p.2 = some stop ∨ (k p.1).2 = some stop := by
  obtain ⟨w, none | first⟩ := p
  · exact .inr h
  · exact .inl h

theorem length_status_of_parseLists {w : Work} (h : (parseLists svc F w).2 = some (.status st)) : st.length = 2 := by
  rcases Parse.next_stopped h with hServices | hRest
  · rw [parseServiceList] at hServices
    split_ifs at hServices
    · cases hServices
    · exact length_status_of_parseServices hServices
  rcases Parse.next_stopped hRest with hEntries | hCounted
  · rw [parseBlockList] at hEntries
    split_ifs at hEntries
    · cases hEntries
    · exact length_status_of_parseEntries hEntries
  · cases hCounted

theorem stopEnd_framedAs {w u : Work} {stop : Stop} {rc : Byte} {idm : Bytes 8}
    (h : parseLists svc F w = (u, some stop)) : (stopEnd idm rc stop).FramedAs rc idm := by
  cases stop with
  | drop reason => exact framedAs_drop reason
  | status st =>
    have := length_status_of_parseLists (congrArg Prod.snd h)
    exact framedAs_errorResponse (by omega)

end Stopped

/-! ## READ_WO_ENC and WRITE_WO_ENC (R217 to R220) -/

section Blocks

variable {s : State} {F : List Byte} {idm : Bytes 8}

/-- A success response carries at most the 15 blocks that the overflow check of R218 lets through. -/
theorem readWoEnc_framedAs (hBusy : s.ed.phase = .busy) (hw : s.ed.work = Work.cleared) (h10 : 10 ≤ F.length)
    (h255 : F.length ≤ 255) : (readWoEnc idm F s).1.FramedAs 0x07 idm := by
  unfold readWoEnc
  rw [hw]
  split
  case h_1 hParse => exact stopEnd_framedAs hParse
  case h_2 w hParse =>
    obtain ⟨hBlocks, hNoData, hCounts, -⟩ := entries_of_parse h10 h255 hParse
    rw [Config.maxFrame_eq]
    split
    · exact framedAs_errorResponse (by simp)
    rename_i hFits
    obtain ⟨v, hRun, hData, -⟩ := readEntries_eq (s := s.setWork w) (i := 0) hBusy hCounts
    have hRead := length_readRun_le s.ed.svc (marksFrom [] w.bl) 0 s.app
    rw [length_marksFrom] at hRead
    simp only [State.setWork_ed, State.setWork_app, hNoData, List.nil_append] at hRun hData
    rw [hRun]
    cases (readRun s.ed.svc (marksFrom [] w.bl) 0 s.app).1 with
    | some i => exact framedAs_errorResponse (by simp [positionStatus])
    | none =>
      simp only [Option.map_none, State.setApp_ed, State.setWork_ed, hData]
      rw [List.append_assoc]
      refine framedAs_respond ?_
      simp only [List.length_append, List.length_cons, List.length_nil]
      omega

/-- A write's response carries no block, only its status. -/
theorem writeWoEnc_framedAs (hBusy : s.ed.phase = .busy) (hw : s.ed.work = Work.cleared) (h10 : 10 ≤ F.length)
    (h255 : F.length ≤ 255) : (writeWoEnc idm F s).1.FramedAs 0x09 idm := by
  unfold writeWoEnc
  rw [hw]
  split
  case h_1 hParse => exact stopEnd_framedAs hParse
  case h_2 w hParse =>
    obtain ⟨-, -, hCounts, -⟩ := entries_of_parse h10 h255 hParse
    split
    · exact framedAs_errorResponse (by simp)
    obtain ⟨v, hRun, -, -⟩ := writeEntries_eq (data := F.drop w.cur) (s := s.setWork w) (i := 0) hBusy hCounts
    simp only [State.setWork_ed, State.setWork_app] at hRun
    rw [hRun]
    cases (writeRun s.ed.svc (F.drop w.cur) (marksFrom [] w.bl) 0 s.app).1 with
    | some i => exact framedAs_errorResponse (by simp [positionStatus])
    | none => exact framedAs_respond (by simp)

/-! ## The routing (R193, R195) -/

/-- The response code is the command code plus one (R96). -/
theorem routeIdentified_framedAs (hBusy : s.ed.phase = .busy) (hw : s.ed.work = Work.cleared) (h10 : 10 ≤ F.length)
    (h255 : F.length ≤ 255) (hc : byteAt F 1 ∈ [0x04, 0x06, 0x08, 0x0C]) :
    (routeIdentified idm F s).1.FramedAs (byteAt F 1 + 1) idm := by
  simp only [List.mem_cons, List.not_mem_nil, or_false] at hc
  rcases hc with hc | hc | hc | hc <;> rw [routeIdentified, hc]
  · exact requestResponse_framedAs idm
  · exact readWoEnc_framedAs hBusy hw h10 h255
  · exact writeWoEnc_framedAs hBusy hw h10 h255
  · exact requestSystemCode_framedAs s.ed idm

theorem handleFrame_framedAs (hBusy : s.ed.phase = .busy) (hw : s.ed.work = Work.cleared) :
    (handleFrame idm F s).1.FramedAs (byteAt F 1 + 1) idm := by
  by_cases h2 : F.length < 2
  · rw [handleFrame_tooShort h2]
    exact framedAs_drop _
  by_cases hl : (byteAt F 0).toNat = F.length
  case neg =>
    rw [handleFrame_lengthMismatch (by omega) hl]
    exact framedAs_drop _
  have h255 : F.length ≤ 255 := by have := (byteAt F 0).isLt; omega
  by_cases hPoll : byteAt F 1 = 0x00
  · rw [handleFrame_polling (by omega) hl hPoll, hPoll]
    exact polling_framedAs s.ed idm F
  by_cases hc : byteAt F 1 ∈ [0x04, 0x06, 0x08, 0x0C]
  case neg =>
    rw [handleFrame_unknownCode (by omega) hl (mt List.mem_cons.1 (not_or.2 ⟨hPoll, hc⟩))]
    exact framedAs_drop _
  rw [handleFrame_identified (by omega) hl hc]
  split_ifs with h10 hIdm
  · exact framedAs_drop _
  · exact framedAs_drop _
  · exact routeIdentified_framedAs hBusy hw (by omega) h255 hc

/-- A Respond of DISPATCH is a response frame of the command's code plus one. -/
theorem dispatchFrame_respond {g : List Byte} {calls : List CallbackCall} (hIdm : s.ed.idm = some idm)
    (h : (dispatchFrame F s).1 = .respond g calls) :
    ∃ body, g = commandFrame (byteAt F 1 + 1) idm body ∧ body.length ≤ 243 := by
  cases hPhase : s.ed.phase with
  | busy =>
    rw [dispatchFrame_busy hPhase] at h
    cases h
  | idle =>
    have hFramed := handleFrame_framedAs (F := F) (idm := idm) (s := s.enterDispatch) rfl rfl
    simp only [dispatchFrame, edGate_idle hPhase, hIdm] at h
    cases hEnd : (handleFrame idm F s.enterDispatch).1 with
    | respond frame =>
      rw [hEnd] at h hFramed
      cases h
      exact hFramed g rfl
    | drop reason => simp [hEnd, endResult] at h
    | raise e => simp [hEnd, endResult] at h

end Blocks

end Sys2Proof.Machine

namespace Sys2Proof.Claims

open Machine

/-- Settles O45: every handler answers in the layout of R81 with a body of at most 243 bytes, and that layout holds the
three fields. -/
theorem responsesAreFramed : Obligations.ResponsesAreFramed := by
  unfold Obligations.ResponsesAreFramed
  intro F s t idm g calls hIdm hExec hResult
  rw [exec_dispatch] at hExec
  obtain rfl := Host.Outcome.next.inj hExec
  obtain ⟨body, rfl, hBody⟩ := dispatchFrame_respond hIdm (deliverResult_dispatchFrame_results hResult)
  have hLen := length_commandFrame (byteAt F 1 + 1) idm body
  exact ⟨num_commandFrame (by omega), by omega, rfl, slice_commandFrame _ idm body⟩

end Sys2Proof.Claims
end

section
/-! A frame that ends inside its lists (R211): PARSE_LISTS stops at each place of `CutShort`, and every cut of sound
lists is at such a place: O42. -/

namespace Sys2Proof.Machine

open Claims

section Need

variable {table : SvcTable} {F tail : List Byte}

/-- `need(k)` fails when fewer than `k` bytes follow CUR (R211). -/
theorem missing_of_drop {w : Work} {k : Nat} (hd : F.drop w.cur = tail) (hk : tail.length < k) :
    missing F w k = true := by
  have hLen := congrArg List.length hd
  rw [List.length_drop] at hLen
  rw [missing, decide_eq_true_eq]
  omega

/-! ## Each part of the parse where the frame ends inside it -/

theorem parseServices_truncated {w : Work} {k : Nat} (hd : F.drop w.cur = tail) (hTail : tail.length < 2) :
    parseServices table F (k + 1) w = (w, some (.drop .truncated)) := by
  rw [parseServices, if_pos (missing_of_drop hd hTail)]

theorem parseEntries_truncated_header {w : Work} {k i : Nat} (hd : F.drop w.cur = []) :
    parseEntries F (k + 1) i w = ({ w with i := i }, some (.drop .truncated)) := by
  rw [parseEntries, if_pos (missing_of_drop hd Nat.zero_lt_one)]

/-- The service index is sound, and the form that the header selects asks for more bytes than there are. -/
theorem parseEntries_truncated_number {w : Work} {k i : Nat} {h : Byte} (hd : F.drop w.cur = h :: tail)
    (hIndex : h.toNat % 16 < w.ns.toNat) (hTail : tail.length < if h.toNat / 128 = 1 then 1 else 2) :
    parseEntries F (k + 1) i w = ({ w with i := i }, some (.drop .truncated)) := by
  have hMissing {n : Nat} (hn : tail.length < n) : missing F w (n + 1) = true :=
    missing_of_drop hd (Nat.succ_lt_succ hn)
  rw [parseEntries, if_neg (not_missing_of_drop (l := [h]) hd (by omega) (by simp)), byteAt_of_drop hd, entryIndex_eq,
    if_neg (by omega)]
  by_cases hShort : h.toNat / 128 = 1
  · rw [if_pos ((entryShort_iff h).2 hShort), if_pos (hMissing (by rwa [if_pos hShort] at hTail))]
  · rw [if_neg (mt (entryShort_iff h).1 hShort), if_pos (hMissing (by rwa [if_neg hShort] at hTail))]

end Need

/-! ## PARSE_LISTS -/

section Cut

variable {table : SvcTable} {F body : List Byte} {svcs : List Svc} {entries : List (Byte × BitVec 16)}

/-- The parse gets past registered services and sound entries with an entry still to come. -/
theorem parseLists_truncated_entries {nb : Nat} {rest : List Byte} (hSvcs : svcs.length ≤ 255)
    (hMore : entries.length < nb) (hNb : nb ≤ 255) (hOk : ListsOk table svcs entries)
    (hd : F.drop 10 = byte svcs.length :: (svcs.flatMap lowHigh ++ byte nb :: (entries.flatMap entryWire ++ rest)))
    (hStop : ∀ (w : Work) (k i : Nat), w.ns.toNat = svcs.length → F.drop w.cur = rest →
      parseEntries F (k + 1) i w = ({ w with i := i }, some (.drop .truncated))) :
    ∃ w, parseLists table F Work.cleared = (w, some (.drop .truncated)) := by
  obtain ⟨cur, hParse, hBlocks⟩ := parseLists_services hSvcs hOk.services hd
  obtain ⟨cur', j, hEntries, hRest⟩ :=
    parseBlockList_sound (w := { Work.cleared with ns := byte svcs.length, cur := cur, sl := svcs }) hNb
      (Nat.le_of_lt hMore) (by rw [toNat_byte hSvcs]; exact hOk.entries) hBlocks
  obtain ⟨k, hk⟩ := Nat.exists_eq_succ_of_ne_zero (Nat.sub_ne_zero_of_lt hMore)
  rw [hParse, hEntries, hk, hStop _ _ _ (toNat_byte hSvcs) hRest]
  exact ⟨_, rfl⟩

theorem parseLists_truncated (hCut : CutShort table body) (hd : F.drop 10 = body) :
    ∃ w, parseLists table F Work.cleared = (w, some (.drop .truncated)) := by
  cases hCut with
  | serviceCount =>
    rw [parseLists, parseServiceList, if_pos (missing_of_drop hd Nat.zero_lt_one)]
    exact ⟨_, rfl⟩
  | service ns svcs tail hMore hNs hKnown hTail =>
    obtain ⟨cur, hParse, hRest⟩ :=
      parseServiceList_known (w := { Work.cleared with cur := 10 }) hNs (Nat.le_of_lt hMore) hKnown hd
    obtain ⟨k, hk⟩ := Nat.exists_eq_succ_of_ne_zero (Nat.sub_ne_zero_of_lt hMore)
    rw [parseLists, hParse, hk, parseServices_truncated hRest hTail]
    exact ⟨_, rfl⟩
  | blockCount svcs hSvcs hKnown =>
    obtain ⟨cur, hParse, hRest⟩ := parseLists_services (rest := []) hSvcs hKnown (by rw [hd, List.append_nil])
    rw [hParse, parseBlockList, if_pos (missing_of_drop hRest Nat.zero_lt_one)]
    exact ⟨_, rfl⟩
  | header svcs nb entries hSvcs hMore hNb hOk =>
    exact parseLists_truncated_entries (rest := []) hSvcs hMore hNb hOk (by rw [hd, List.append_nil])
      fun _ _ _ _ hEnd => parseEntries_truncated_header hEnd
  | number svcs nb entries h tail hSvcs hMore hNb hOk hIndex hTail =>
    exact parseLists_truncated_entries hSvcs hMore hNb hOk hd
      fun _ _ _ hNs hEnd => parseEntries_truncated_number hEnd (by rwa [hNs]) hTail

/-! ## Where a cut of sound lists falls -/

/-- A cut of a concatenation falls inside one of its parts, or in front of it. -/
theorem take_flatMap_cut {α : Type} (f : α → List Byte) {l : List α} {k : Nat} (hk : k < (l.flatMap f).length) :
    ∃ pre x post t, l = pre ++ x :: post ∧ t < (f x).length ∧ (l.flatMap f).take k = pre.flatMap f ++ (f x).take t := by
  induction l generalizing k with
  | nil => exact absurd hk (Nat.not_lt_zero k)
  | cons a l ih =>
    rw [List.flatMap_cons, List.length_append] at hk
    rw [List.flatMap_cons]
    by_cases hFirst : k < (f a).length
    · exact ⟨[], a, l, k, rfl, hFirst, List.take_append_of_le_length (Nat.le_of_lt hFirst)⟩
    · obtain ⟨pre, x, post, t, rfl, ht, hTake⟩ := ih (k := k - (f a).length) (by omega)
      refine ⟨a :: pre, x, post, t, rfl, ht, ?_⟩
      rw [List.take_append, List.take_of_length_le (by omega), hTake, List.flatMap_cons, List.append_assoc]

/-- An entry is its header and the block-number bytes of the form that the header selects (R86). -/
theorem entryWire_eq_cons (e : Byte × BitVec 16) :
    ∃ number, entryWire e = e.1 :: number ∧ number.length = if e.1.toNat / 128 = 1 then 1 else 2 := by
  unfold entryWire
  split
  · exact ⟨_, rfl, rfl⟩
  · exact ⟨_, rfl, rfl⟩

theorem cutShort_take_services {k : Nat} (hSvcs : svcs.length ≤ 255)
    (hKnown : ∀ c ∈ svcs, (lookupService table c).isSome) (hk : k < (svcs.flatMap lowHigh).length) :
    CutShort table (byte svcs.length :: (svcs.flatMap lowHigh).take k) := by
  obtain ⟨pre, c, post, t, rfl, ht, hTake⟩ := take_flatMap_cut lowHigh hk
  rw [hTake]
  exact .service _ pre _ (by simp) hSvcs (fun d hd => hKnown d (List.mem_append_left _ hd))
    (Nat.lt_of_le_of_lt (List.length_take_le _ _) ht)

theorem cutShort_take_entries {k : Nat} (hSvcs : svcs.length ≤ 255) (hEntries : entries.length ≤ 255)
    (hOk : ListsOk table svcs entries) (hk : k < (entries.flatMap entryWire).length) :
    CutShort table
      (byte svcs.length :: (svcs.flatMap lowHigh ++ byte entries.length :: (entries.flatMap entryWire).take k)) := by
  obtain ⟨pre, e, post, t, rfl, ht, hTake⟩ := take_flatMap_cut entryWire hk
  obtain ⟨number, hWire, hNumber⟩ := entryWire_eq_cons e
  have hPre : ListsOk table svcs pre := ⟨hOk.services, fun d hd => hOk.entries d (List.mem_append_left _ hd)⟩
  obtain ⟨hIndex, -⟩ : EntryOk svcs.length e := hOk.entries e (by simp)
  have hMore : pre.length < (pre ++ e :: post).length := by simp
  rw [hTake]
  cases t with
  | zero =>
    rw [List.take_zero, List.append_nil]
    exact .header svcs _ pre hSvcs hMore hEntries hPre
  | succ t =>
    rw [hWire, List.length_cons] at ht
    rw [hWire, List.take_succ_cons]
    refine .number svcs _ pre e.1 _ hSvcs hMore hEntries hPre hIndex ?_
    rw [← hNumber]
    exact Nat.lt_of_le_of_lt (List.length_take_le _ _) (Nat.lt_of_succ_lt_succ ht)

/-- A proper initial part of sound lists ends before NS, inside the service list, before NB or inside the block list. -/
theorem cutShort_take_listsWire {k : Nat} (hOk : ListsOk table svcs entries) (hSvcs : svcs.length ≤ 255)
    (hEntries : entries.length ≤ 255) (hk : k < (listsWire svcs entries).length) :
    CutShort table ((listsWire svcs entries).take k) := by
  have hWire : listsWire svcs entries =
      byte svcs.length :: (svcs.flatMap lowHigh ++ byte entries.length :: entries.flatMap entryWire) := by
    simp [listsWire]
  rw [hWire, List.length_cons, List.length_append, List.length_cons] at hk
  rw [hWire]
  cases k with
  | zero => exact .serviceCount
  | succ k =>
    rw [List.take_succ_cons]
    rcases Nat.lt_trichotomy k (svcs.flatMap lowHigh).length with hInside | rfl | hBehind
    · rw [List.take_append_of_le_length (Nat.le_of_lt hInside)]
      exact cutShort_take_services hSvcs hOk.services hInside
    · rw [List.take_left]
      exact .blockCount svcs hSvcs hOk.services
    · obtain ⟨m, rfl⟩ := Nat.exists_eq_add_of_lt hBehind
      rw [Nat.add_assoc, List.take_length_add_append, List.take_succ_cons]
      exact cutShort_take_entries hSvcs hEntries hOk (by omega)

end Cut

/-- A parse that stops with a drop ends a 0x06 or 0x08 command with that drop, and no callback is called. -/
theorem exec_dispatch_parse_drop {s : State} {idm : Bytes 8} {code : Byte} {body : List Byte} {w : Work}
    {reason : DropReason} (hs : EdReady s idm) (hc : code = 0x06 ∨ code = 0x08)
    (hl : (commandFrame code idm body).length ≤ 255)
    (hp : parseLists s.ed.svc (commandFrame code idm body) Work.cleared = (w, some (.drop reason))) :
    exec (.dispatch (commandFrame code idm body)) s =
      .next (afterDispatch s w { s.app with calls := [] } (.drop reason [])) := by
  have hh : handleFrame idm (commandFrame code idm body) s.enterDispatch =
      (.drop reason, s.enterDispatch.setWork w) := by
    rcases hc with rfl | rfl
    · simp only [handleFrame_read hl, readWoEnc, State.enterDispatch_ed, hp, stopEnd]
    · simp only [handleFrame_write hl, writeWoEnc, State.enterDispatch_ed, hp, stopEnd]
  exact exec_dispatch_of_work hs hh

theorem exec_dispatch_cutShort {s : State} {idm : Bytes 8} {code : Byte} {body : List Byte} (hs : EdReady s idm)
    (hc : code = 0x06 ∨ code = 0x08) (hCut : CutShort s.ed.svc body) (hl : body.length ≤ 245) :
    ∃ w, exec (.dispatch (commandFrame code idm body)) s =
      .next (afterDispatch s w { s.app with calls := [] } (.drop .truncated [])) := by
  obtain ⟨w, hw⟩ := parseLists_truncated hCut (drop_commandFrame code idm body)
  exact ⟨w, exec_dispatch_parse_drop hs hc (by rw [length_commandFrame]; omega) hw⟩

end Sys2Proof.Machine

namespace Sys2Proof.Claims

open Machine

/-- Settles O42: the parse stops at each place of `CutShort`, and a cut of sound lists is at one of them. -/
theorem truncatedListsDropped : Obligations.TruncatedListsDropped := by
  unfold Obligations.TruncatedListsDropped
  intro s idm code hs hc
  refine ⟨fun body hCut hl => exec_dispatch_cutShort hs hc hCut hl, ?_⟩
  intro svcs entries k hOk hSvcs hEntries hk hFits
  exact exec_dispatch_cutShort hs hc (cutShort_take_listsWire hOk hSvcs hEntries hk)
    (Nat.le_trans (List.length_take_le _ _) hFits)

end Sys2Proof.Claims
end

section
/-! The two sides of the block (R246): what an instruction of one side leaves of the other: O47. -/

namespace Sys2Proof.Machine

open Claims

theorem not_emulationSide_of_responseFrame {i : Instr} (h : responseFrame i = true) : emulationSide i = false := by
  cases i <;> simp_all [responseFrame, emulationSide]

section Sides

variable {i : Instr} {s t : State}

/-- The program belongs to neither side: the step, and no instruction, moves its index (R29). -/
theorem Effect.keeps_program (e : Effect i s t) : t.program = s.program ∧ t.index = s.index := by
  cases e with
  | exchange r _ k => exact ⟨k.program, k.index⟩
  | sequence r _ k => obtain ⟨c, k⟩ := k; exact ⟨k.program, k.index⟩
  | serve _ k _ => exact ⟨k.program, k.index⟩
  | _ => exact ⟨rfl, rfl⟩

/-- An emulation-side instruction answers to the emulation host alone, and the frames that it hands to ED are not those
that RE sends or receives. -/
theorem Effect.keeps_readerSide (e : Effect i s t) (hi : emulationSide i = true) :
    t.re = s.re ∧ t.reader = s.reader ∧ t.transport.link = s.transport.link ∧
      t.transport.recvScript = s.transport.recvScript ∧ t.transport.sendScript = s.transport.sendScript := by
  cases e with
  | refused r _ => exact ⟨rfl, rfl, rfl, rfl, rfl⟩
  | loadIdentity idm pmm sys r => exact ⟨rfl, rfl, rfl, rfl, rfl⟩
  | registerService code rd wr r => exact ⟨rfl, rfl, rfl, rfl, rfl⟩
  | serve _ k _ => exact ⟨k.re, k.reader, k.link, k.recvScript, k.sendScript⟩
  | result r h => rw [h] at hi; cases hi
  | loadTag idm pmm r => cases hi
  | exchange r h _ => rw [not_emulationSide_of_exchanging h] at hi; cases hi
  | sequence r h _ => rw [not_emulationSide_of_exchanging (exchanging_of_caching h)] at hi; cases hi
  | wait tr h => rw [not_emulationSide_of_responseFrame h] at hi; cases hi
  | complete w r h => rw [not_emulationSide_of_responseFrame h] at hi; cases hi

/-- An exchange reaches the own ED over a loopback only (log 7); no other reader-side instruction reaches it. -/
theorem Effect.keeps_emulatorSide (e : Effect i s t) (hi : emulationSide i = false)
    (hLink : s.transport.link = .external) : t.ed = s.ed ∧ t.emulator = s.emulator ∧ t.app = s.app := by
  cases e with
  | exchange r _ k => exact k.external hLink
  | sequence r _ k => obtain ⟨c, k⟩ := k; exact k.external hLink
  | result r _ => exact ⟨rfl, rfl, rfl⟩
  | loadTag idm pmm r => exact ⟨rfl, rfl, rfl⟩
  | wait tr _ => exact ⟨rfl, rfl, rfl⟩
  | complete w r _ => exact ⟨rfl, rfl, rfl⟩
  | refused r h => rw [h] at hi; cases hi
  | loadIdentity idm pmm sys r => cases hi
  | registerService code rd wr r => cases hi
  | serve h _ _ => rw [emulationSide_of_dispatching h] at hi; cases hi

end Sides

end Sys2Proof.Machine

namespace Sys2Proof.Claims

open Machine

/-- Settles O47: `exec_effect` lists what each instruction can write, and no entry of one side writes the other. -/
theorem unitsShareNoRegister : Obligations.UnitsShareNoRegister := by
  unfold Obligations.UnitsShareNoRegister
  intro i s t h
  have e := effect_of_exec h
  refine ⟨fun hEmulation => ?_, fun hReader hLink => ?_⟩
  · obtain ⟨hRe, hHost, hLink, hRecv, hSend⟩ := e.keeps_readerSide hEmulation
    exact ⟨hRe, hHost, hLink, hRecv, hSend, e.keeps_program⟩
  · obtain ⟨hEd, hHost, hApp⟩ := e.keeps_emulatorSide hReader hLink
    exact ⟨hEd, hHost, hApp, e.keeps_program⟩

end Sys2Proof.Claims
end
